-- ==== Sys2Proof/Word.lean ====
section
/-! DEFINITION. The two kinds of value that cross the host interface (10_state.md rule R32): a 32-bit unsigned word
("u32"), and an element of the field F.

A field element is written by its canonical representative in `[0, P)` (00_scope.md rule R10), a `Nat`: `P` is an
OPEN parameter. `Sys2Proof.Machine.State.Inv` says that every stored element is below `P`; every operation that
stores one reduces it first. -/

namespace Sys2Proof

/-- A 32-bit unsigned word: command words, STATUS, CFG, ROW, RESN, FCMD, TREQ, CCNT. -/
abbrev Word := BitVec 32

end Sys2Proof
end

