-- ==== Sys2Proof/Machine/Arith.lean ====
section
/-! DEFINITION. The integer primitives of 00_scope.md rules R8–R17 and the numeric cores of the gadgets: `SQ`'s
`isqrt`, `RND`, `RNDS`, `RDM` (42_rounding_division.md rule R190), `DBP` (rule R193), `RM` (45_rem.md rule R290).
Every value is an exact integer; nothing wraps. -/

namespace Sys2Proof.Machine

/-- `2^k` as an integer. -/
def pow2 (k : Nat) : Int := ((2 ^ k : Nat) : Int)

/-- The scale `δ = 2^(16·m2)` (rule R8). -/
def delta (m2 : Nat) : Int := pow2 (16 * m2)

/-- The representable bound `B = 2^(16·m)`, `m = m1 + m2` (rule R8). -/
def bound (m1 m2 : Nat) : Int := pow2 (16 * (m1 + m2))

/-- The angle limb count `L = m2 + 1` (rule R8). -/
def angleLimbs (m2 : Nat) : Nat := m2 + 1

/-- `a div b`: floor division for every sign of `b` (rule R9). -/
def divF (a b : Int) : Int := Int.fdiv a b

/-- `a mod b = a − b·(a div b)`, with the sign of `b` (rule R9). -/
def modF (a b : Int) : Int := a - b * divF a b

/-- `|v|` as an integer. -/
def mag (v : Int) : Int := (v.natAbs : Int)

/-- `sgn(v)`: +1 for `v ≥ 0`, −1 for `v < 0` (rule R9). -/
def sgn (v : Int) : Int := if v < 0 then -1 else 1

/-- One step per bit, most significant first: keep bit `k` of the root where its square still fits. -/
def isqrtBits : Nat → Nat → Nat → Nat
  | 0, _, f => f
  | k + 1, n, f => isqrtBits k n (if (f + 2 ^ k) * (f + 2 ^ k) ≤ n then f + 2 ^ k else f)

/-- `isqrt(n)`: the largest `f` with `f² ≤ n` (rule R9; `isqrt_spec` in Laws/Arith.lean). -/
def isqrt (n : Nat) : Nat := isqrtBits (n.log2 / 2 + 1) n 0

/-- `toF(i) = i mod P`, the field image of an integer (rule R10). -/
def toF (P : Nat) (i : Int) : Nat := (i % (P : Int)).toNat

/-- `sval(v)`: the signed value of a field element (rule R10). -/
def sval (P : Nat) (v : Nat) : Int := if v ≤ (P - 1) / 2 then (v : Int) else (v : Int) - (P : Int)

/-- Limb `k` of `|v|`: `(|v| div 2^(16k)) mod 2^16` (rule R15). -/
def limb (v : Int) (k : Nat) : Nat := v.natAbs / 2 ^ (16 * k) % 2 ^ 16

/-- `n4 = 4·⌈n/4⌉`, the padded limb count (rule R15). -/
def padded (n : Nat) : Nat := 4 * ((n + 3) / 4)

/-- `LIMBS_n(v)`: the padded little-endian limb list (rules R15, R78). -/
def limbList (n : Nat) (v : Int) : List Int := (List.range (padded n)).map fun k => (limb v k : Int)

/-- `RND(n, d)` for `d > 0`: the nearest integer to `n/d`, a tie going toward +∞ (rule R16). -/
def rnd (n d : Int) : Int := divF (2 * n + d) (2 * d)

/-- `RNDS(n, d)` for `d ≠ 0` (rule R17). -/
def rnds (n d : Int) : Int := if d < 0 then rnd (-n) (-d) else rnd n d

/-- What `RDM` returns: the quotient, the remainder and the parity bit of the divisor (rule R190). -/
structure Rdm where
  q : Int
  r : Int
  p : Int
deriving DecidableEq, Repr

/-- `RDM(x, y)`, the rounding division by `y > 0` (rule R190). -/
def rdm (x y : Int) : Rdm :=
  { q := rnd x y
    r := x + divF (y - modF y 2) 2 - rnd x y * y
    p := modF y 2 }

/-- The halved divisor `h = (y − p)/2` that C-RD-4 decomposes (rules R190, R192). -/
def half (y : Int) : Int := divF (y - modF y 2) 2

/-- `DBP(x, y)`: the fixed-point quotient of `x` by `y > 0` (rule R193). -/
def dbp (m2 : Nat) (x y : Int) : Int := (rdm (x * delta m2) y).q

/-- What `SQ` returns (43_sqrt.md rule R220). -/
structure Sq where
  y : Int
  r : Int
  f : Int
  N : Int
deriving DecidableEq, Repr

/-- `SQ(x)` for `x ≥ 0` (rule R220). -/
def sq (m2 : Nat) (x : Int) : Sq :=
  let N := x * delta m2
  let f : Int := (isqrt N.toNat : Int)
  let r : Int := if N - f * f > f then 1 else 0
  { y := f + r, r := r, f := f, N := N }

/-- What `RM` returns (45_rem.md rule R290), with the pre-scaled dividend `X`. -/
structure Rm where
  X : Int
  z : Int
  q : Int
  sy : Int
  sa : Int
  a : Int
deriving DecidableEq, Repr

/-- `RM(x, y, xs)`: the signed modulo of `x·xs` by `y ≠ 0` (rule R290). -/
def rm (x y xs : Int) : Rm :=
  let X := x * xs
  let q := divF X y
  { X := X, z := X - q * y, q := q, sy := sgn y, sa := sgn q, a := mag q }

/-- The sum `Σ_{k<n} ℓ_k·2^(16k)` of a limb list read through `l` (rules R15, R161). -/
def limbSum (l : Nat → Int) : Nat → Int
  | 0 => 0
  | n + 1 => limbSum l n + l n * pow2 (16 * n)

end Sys2Proof.Machine
end

