-- ==== Sys2Proof/Syntax.lean ====
section
/-! DEFINITION. The command set: one constructor per row of spec/opcode_table.json (30_encoding.md rules R103,
R104), with the fields of the command word as the rules name them. -/

namespace Sys2Proof

/-- One command. `b` is the build bit B (rule R102). The numeric fields are counts and indices of the spec,
bounded by `Instr.wf` (WellFormed.lean). -/
inductive Instr where
  /-- NOP (rule R140). -/
  | nop
  /-- CONFIG (rule R141): the requested `m1`, `m2` and the column budget NCOLS. -/
  | config (cm1 cm2 ncols : Nat)
  /-- RANGE16 (rule R164). -/
  | range16 (b : Bool)
  /-- DECOMP (rule R165): `n` limbs (1 … 16), `u` the unsigned variant. -/
  | decomp (b : Bool) (n : Nat) (u : Bool)
  /-- RDIV (rule R192). -/
  | rdiv (b : Bool)
  /-- DIVP (rule R194). -/
  | divp (b : Bool)
  /-- SQRT (rule R222). -/
  | sqrt (b : Bool)
  /-- SQRTF (rule R223). -/
  | sqrtf (b : Bool)
  /-- ATAN (rule R258). -/
  | atan (b : Bool)
  /-- REM (rule R291). -/
  | rem (b : Bool)
  /-- TLUT (rule R312): `j` the limb position of the table (0 … 3 encodable). -/
  | tlut (b : Bool) (j : Nat)
  /-- SIN (rule R320). -/
  | sin (b : Bool)
  /-- COS (rule R321). -/
  | cos (b : Bool)
  /-- TAN (rule R323). -/
  | tan (b : Bool)
  /-- EXPR (rule R362). -/
  | expr (b : Bool)
  /-- LOG (rule R363). -/
  | log (b : Bool)
deriving DecidableEq, Repr

/-- The mnemonics of rule R104, without fields: the `op` that the OPEN parameters of 00_scope.md rule R7
(ROWS, MINCOLS, LAYOUT, …) are indexed by. -/
inductive Op where
  | nop | config | range16 | decomp | rdiv | divp | sqrt | sqrtf | atan | rem | tlut | sin | cos | tan | expr | log
deriving DecidableEq, Repr

/-- The mnemonic of a command. -/
def Instr.op : Instr → Op
  | .nop => .nop
  | .config _ _ _ => .config
  | .range16 _ => .range16
  | .decomp _ _ _ => .decomp
  | .rdiv _ => .rdiv
  | .divp _ => .divp
  | .sqrt _ => .sqrt
  | .sqrtf _ => .sqrtf
  | .atan _ => .atan
  | .rem _ => .rem
  | .tlut _ _ => .tlut
  | .sin _ => .sin
  | .cos _ => .cos
  | .tan _ => .tan
  | .expr _ => .expr
  | .log _ => .log

/-- The build bit B of a command (rule R102); NOP and CONFIG require B = 0. -/
def Instr.build : Instr → Bool
  | .nop => false
  | .config _ _ _ => false
  | .range16 b => b
  | .decomp b _ _ => b
  | .rdiv b => b
  | .divp b => b
  | .sqrt b => b
  | .sqrtf b => b
  | .atan b => b
  | .rem b => b
  | .tlut b _ => b
  | .sin b => b
  | .cos b => b
  | .tan b => b
  | .expr b => b
  | .log b => b

/-- The same command with the build bit B = `b` (rule R102). NOP and CONFIG have B = 0 only and stay as they are. -/
def Instr.withBuild (b : Bool) : Instr → Instr
  | .nop => .nop
  | .config cm1 cm2 ncols => .config cm1 cm2 ncols
  | .range16 _ => .range16 b
  | .decomp _ n u => .decomp b n u
  | .rdiv _ => .rdiv b
  | .divp _ => .divp b
  | .sqrt _ => .sqrt b
  | .sqrtf _ => .sqrtf b
  | .atan _ => .atan b
  | .rem _ => .rem b
  | .tlut _ j => .tlut b j
  | .sin _ => .sin b
  | .cos _ => .cos b
  | .tan _ => .tan b
  | .expr _ => .expr b
  | .log _ => .log b

/-- A compute command is every command other than NOP and CONFIG (40_control.md rule R142). -/
def Op.isCompute : Op → Bool
  | .nop => false
  | .config => false
  | .range16 => true
  | .decomp => true
  | .rdiv => true
  | .divp => true
  | .sqrt => true
  | .sqrtf => true
  | .atan => true
  | .rem => true
  | .tlut => true
  | .sin => true
  | .cos => true
  | .tan => true
  | .expr => true
  | .log => true

end Sys2Proof
end

