-- ==== Sys2Proof/Machine/Params.lean ====
section
/-! DEFINITION. The OPEN parameters of 00_scope.md rule R7 (93_implementation_defined.md section 1) as one
structure that every rule of the model takes as an argument, and the names that LAYOUT maps to cells
(20_memory.md rule R71). What each parameter must satisfy is `Params.Valid` in Config.lean. -/

namespace Sys2Proof

/-- The gadget a witness name belongs to: the command itself or a sub-gadget it owns (rule R72). -/
inductive Gadget where
  /-- The command's own names. -/
  | own
  /-- The REM sub-gadget of SIN, COS and TAN with `m1 = 2` (46_trig.md rule R322). -/
  | rem
  /-- LOG's EXPR sub-gadget with input `y` (47_exp_log.md rule R363). -/
  | expY
  /-- LOG's EXPR sub-gadget with input `y − 1` (rule R363). -/
  | expYm1
deriving DecidableEq, Repr

/-- The names of the Witness and Constants lists of the command rules, letter for letter where the letters
allow. The last group are the constants. -/
inductive Sym where
  -- 41_decomp_range.md rules R164, R165
  | v | flag | s
  /-- DECOMP's limb `ℓ_k` (rule R165). -/
  | ell (k : Nat)
  -- 42_rounding_division.md rules R192, R194
  | x | y | q | r | p | h | z
  /-- The site value `y − r − 1` of a rounding division (`d − r − 1` with divisor `d`). -/
  | gap
  -- 43_sqrt.md rules R222, R223
  | a1 | a2 | a3
  -- 44_atan.md rule R258
  | a | gt1 | d1 | t | r1 | p1 | h1
  /-- The site value `a − r1 − 1`. -/
  | gap1
  | gt2 | d2 | num | den | u | r2 | p2 | h2
  /-- The site value `den − r2 − 1`. -/
  | gap2
  | pt | r5
  /-- The site value `15δ⁴ − r5 − 1`. -/
  | gap5
  | w | w2 | res
  -- 45_rem.md rule R291
  | xs | bigX | sy | sa | g
  -- 46_trig.md rules R312, R320, R321, R323
  | k | tS | tC
  /-- The angle limb `θ_j`. -/
  | theta (j : Nat)
  /-- The sine entry `S_j`. -/
  | sj (j : Nat)
  /-- The cosine entry `C_j`. -/
  | cj (j : Nat)
  | sab | cab | sr | cr | sigma | c
  -- 47_exp_log.md rules R362, R363
  | lt | gt | inside | dlo | dhi | e
  /-- Value `i` of the external exponential's witness (rule R362). -/
  | ext (i : Nat)
  | ym1 | e1 | e0 | g1 | g2
  -- constants
  | kDelta | kDelta2 | kFifteenDelta4 | kAtanK | kPi6 | kPi2 | kD | kTwoPiY | kXScaler
  | kExpLo | kExpHi | kExpMin | kExpMax
deriving DecidableEq, Repr

/-- A named value: the gadget it belongs to and its symbol. -/
structure Key where
  gadget : Gadget
  sym : Sym
deriving DecidableEq, Repr

/-- Which cell of a named value: the value itself, or one limb of its decomposition. -/
inductive Part where
  | whole
  | limb (k : Nat)
deriving DecidableEq, Repr

/-- A name of a Witness or Constants list: what LAYOUT gives a cell to (rule R71). -/
structure Name where
  key : Key
  part : Part
deriving DecidableEq, Repr

/-- The three column classes of the trace (rule R70). -/
inductive ColClass where
  /-- `W0 … W254`. -/
  | witness
  /-- `K0 … K(NCONST−1)`. -/
  | constant
  /-- `I0 … I(NPUB−1)`. -/
  | input
deriving DecidableEq, Repr

/-- A cell address `(class, column, row)` (rule R70). LAYOUT's offsets have the same shape, their row counted
from the starting row (rule R71). -/
structure CellAddr where
  cls : ColClass
  col : Nat
  row : Nat
deriving DecidableEq, Repr

/-- The OPEN parameters of rule R7. The functions of `m1`, `m2` are read only at 1 and 2. -/
structure Params where
  /-- The prime modulus `P` of F (rules R7, R10). -/
  P : Nat
  /-- TRACE_ROWS (rule R70). -/
  traceRows : Nat
  /-- NCONST, the number of constant columns (rule R70). -/
  nconst : Nat
  /-- NPUB, the number of public-input columns (rule R70). -/
  npub : Nat
  /-- The OPEN part of `ROWS(op, m1, m2, NCOLS)`: the whole count of a command whose count is OPEN, and the
  rows of LOG's two EXPR sub-gadgets, which come on top of its own gate's (rules R7, R363). -/
  rowsOpen : Op → Nat → Nat → Nat → Nat
  /-- `MINCOLS(op, m1, m2)`. -/
  minCols : Op → Nat → Nat → Nat
  /-- `ONEROW_COLS(op, m1, m2)`, read for SQRT, SQRTF, REM and LOG. -/
  oneRowCols : Op → Nat → Nat → Nat
  /-- `LAYOUT(op, m1, m2, NCOLS)` (rule R71), read on the names of that command's lists. -/
  layout : Op → Nat → Nat → Nat → Name → CellAddr
  /-- `LIMBS(op, site, m1, m2)` (40_control.md rule R146), read on the sites whose budget is OPEN. -/
  limbs : Op → Sym → Nat → Nat → Nat
  /-- `PI_2(m2)` (44_atan.md rule R250). -/
  pi2 : Nat → Int
  /-- `PI_6(m2)` (rule R250). -/
  pi6 : Nat → Int
  /-- `ATAN_K(m2)` (rule R250). -/
  atanK : Nat → Int
  /-- `TRIG_TAB(m2, j, k) = (S, C)`: the TRIG16 and TRIG32 banks (10_state.md rule R42, 46_trig.md rule R310). -/
  trigTab : Nat → Nat → Nat → Int × Int
  /-- `TWO_PI_Y(m2)` (rule R322). -/
  twoPiY : Nat → Int
  /-- `X_SCALER(m2)` (rule R322). -/
  xScaler : Nat → Int
  /-- `EXP_FN(m1, m2, x)` (47_exp_log.md rule R360). -/
  expFn : Nat → Nat → Int → Int
  /-- How many values the external exponential's witness has (rule R362). -/
  expWitCount : Nat → Nat → Nat
  /-- Value `i` of the external exponential's witness at `x`. -/
  expWit : Nat → Nat → Int → Nat → Int
  /-- The external exponential's constraint `EXPC(x, e)` (rule R360). -/
  expc : Nat → Nat → Int → Int → Bool
  /-- `EXP_LO(m1, m2)` (rule R361). -/
  expLo : Nat → Nat → Int
  /-- `EXP_HI(m1, m2)` (rule R361). -/
  expHi : Nat → Nat → Int
  /-- `EXP_MIN(m1, m2)` (rule R361). -/
  expMin : Nat → Nat → Int
  /-- `EXP_MAX(m1, m2)` (rule R361). -/
  expMax : Nat → Nat → Int
  /-- `CHECK_ATAN_ROW4(num, den, u, r2, p2, h2, gt2, t, v)` (rule R259). -/
  checkAtanRow4 : Int → Int → Int → Int → Int → Int → Int → Int → Int → Bool
  /-- `CHECK_TAN_M2(Sr, Cr, σ, c, q, r, p, h, s, res)` (rule R324). -/
  checkTanM2 : Int → Int → Int → Int → Int → Int → Int → Int → Int → Int → Bool

end Sys2Proof
end

