-- ==== Sys2Proof/Machine/Layout.lean ====
section
/-! DEFINITION. What each command writes to the trace: the Witness list and the Constants list of its rule, and
the rows it occupies. LAYOUT (20_memory.md rule R71) gives a cell to every name these tables list.

A Witness list is a table of slots. A slot is one named value: whether the value has a cell of its own, and how
many limb cells its decomposition site has (40_control.md rule R146; 0 where the value is not decomposed). -/

namespace Sys2Proof.Machine

/-- One named value of a Witness list. `signed` is the variant of its decomposition site: an unsigned site also
requires the value to be ≥ 0 (rule R146). The limb cells hold the limbs of the magnitude; the sign of a signed
site is a name of its own in the list, and an unsigned site's sign is the constant 1 (41_decomp_range.md
rule R161) and has no cell (DEDUCED: log entry 7). -/
structure Slot where
  key : Key
  cell : Bool
  limbs : Nat
  signed : Bool
deriving DecidableEq, Repr

/-- A value with a cell and no decomposition. -/
def scalar (g : Gadget) (name : Sym) : Slot := ⟨⟨g, name⟩, true, 0, false⟩

/-- A value with a cell, decomposed unsigned in `n` limbs. -/
def scalarSite (g : Gadget) (name : Sym) (n : Nat) : Slot := ⟨⟨g, name⟩, true, n, false⟩

/-- A value with a cell, whose magnitude is decomposed in `n` limbs. -/
def signedSite (g : Gadget) (name : Sym) (n : Nat) : Slot := ⟨⟨g, name⟩, true, n, true⟩

/-- An expression without a cell, decomposed unsigned in `n` limbs. -/
def bareSite (g : Gadget) (name : Sym) (n : Nat) : Slot := ⟨⟨g, name⟩, false, n, false⟩

/-- DECOMP's names (rule R165), for the largest limb count: `v`, `s` and `ℓ_0 … ℓ_15`. -/
def decompSlots : List Slot :=
  [scalar .own .v, scalar .own .s] ++ (List.range 16).map fun k => scalar .own (.ell k)

/-- The Witness list of RDIV and of DIVP, with `quot` the name of the quotient (rules R192, R194). -/
def divisionSlots (p : Params) (op : Op) (quot : Sym) (m1 m2 : Nat) : List Slot :=
  [scalar .own .x, scalar .own .y, scalar .own quot,
   scalarSite .own .r (p.limbs op .r m1 m2), scalar .own .p,
   scalarSite .own .h (p.limbs op .h m1 m2), bareSite .own .gap (p.limbs op .gap m1 m2)]

/-- SQRT's Witness list (rule R222): every site has `m` limbs. -/
def sqrtSlots (m : Nat) : List Slot :=
  [scalarSite .own .x m, scalar .own .y, scalar .own .r,
   scalarSite .own .a1 m, scalarSite .own .a2 m, scalarSite .own .a3 m]

/-- SQRTF's Witness list (rule R223): every site has `m` limbs. -/
def sqrtfSlots (m : Nat) : List Slot :=
  [scalarSite .own .x m, scalar .own .y, scalarSite .own .a1 m, scalarSite .own .a2 m]

/-- ATAN's Witness list (rule R258), stage by stage. -/
def atanSlots (p : Params) (m1 m2 : Nat) : List Slot :=
  let n := fun site => p.limbs .atan site m1 m2
  [signedSite .own .x (m1 + m2), scalar .own .s, scalar .own .a, scalar .own .gt1, scalarSite .own .d1 (n .d1),
   scalar .own .t, scalarSite .own .r1 (n .r1), scalar .own .p1, scalarSite .own .h1 (n .h1),
   bareSite .own .gap1 (n .gap1),
   scalar .own .gt2, scalarSite .own .d2 (n .d2), scalar .own .num, scalar .own .den,
   scalar .own .u, scalarSite .own .r2 (n .r2), scalar .own .p2, scalarSite .own .h2 (n .h2),
   bareSite .own .gap2 (n .gap2), scalar .own .v,
   scalar .own .pt, scalarSite .own .r5 (n .r5), bareSite .own .gap5 (n .gap5),
   scalar .own .w, scalar .own .w2, scalar .own .res]

/-- REM's Witness list (rule R291), for the command and for the sub-gadget of rule R322: `|y|`, `|z|` and `g` in
`m` limbs, `a` in `2m`. -/
def remSlots (g : Gadget) (m : Nat) : List Slot :=
  [scalar g .x, scalar g .xs, scalar g .bigX, signedSite g .y m, scalar g .sy,
   signedSite g .z m, scalar g .sa, scalarSite g .a (2 * m), scalarSite g .g m]

/-- The part of the Witness list that SIN, COS and TAN share (rules R320, R321, R323): the angle, its limbs and
their table entries, the raw sums, and with `m1 = 2` the REM sub-gadget (rule R322). -/
def angleSlots (m1 m2 : Nat) : List Slot :=
  [scalar .own .x, scalar .own .s]
  ++ ((List.range (angleLimbs m2)).map fun j => scalar .own (.theta j))
  ++ ((List.range (angleLimbs m2)).map fun j => scalar .own (.sj j))
  ++ ((List.range (angleLimbs m2)).map fun j => scalar .own (.cj j))
  ++ [scalar .own .sab, scalar .own .cab, scalar .own .sr, scalar .own .cr]
  ++ (if m1 = 2 then remSlots .rem (m1 + m2) else [])

/-- The Witness list of SIN and of COS (rules R320, R321). -/
def rescaleSlots (p : Params) (op : Op) (m1 m2 : Nat) : List Slot :=
  angleSlots m1 m2 ++
  [scalar .own .q, scalarSite .own .r (p.limbs op .r m1 m2), bareSite .own .gap (p.limbs op .gap m1 m2),
   scalar .own .res]

/-- TAN's Witness list (rule R323). -/
def tanSlots (p : Params) (m1 m2 : Nat) : List Slot :=
  let n := fun site => p.limbs .tan site m1 m2
  angleSlots m1 m2 ++
  [scalar .own .sigma, bareSite .own .c (n .c), scalar .own .q, scalarSite .own .r (n .r), scalar .own .p,
   scalarSite .own .h (n .h), bareSite .own .gap (n .gap), scalar .own .res]

/-- EXPR's Witness list (rule R362), for the command and for LOG's sub-gadgets, with the external exponential's
witness. -/
def exprSlots (p : Params) (g : Gadget) (m1 m2 : Nat) : List Slot :=
  [scalar g .x, scalar g .y, scalar g .lt, scalar g .gt, scalar g .inside,
   scalarSite g .dlo (p.limbs .expr .dlo m1 m2), scalarSite g .dhi (p.limbs .expr .dhi m1 m2), scalar g .e]
  ++ (List.range (p.expWitCount m1 m2)).map fun i => scalar g (.ext i)

/-- LOG's Witness list (rule R363). -/
def logSlots (p : Params) (m1 m2 : Nat) : List Slot :=
  [scalar .own .x, scalar .own .y, scalar .own .ym1, scalar .own .e1, scalar .own .e0,
   scalarSite .own .g1 (p.limbs .log .g1 m1 m2), scalarSite .own .g2 (p.limbs .log .g2 m1 m2)]
  ++ exprSlots p .expY m1 m2 ++ exprSlots p .expYm1 m1 m2

/-- The Witness list of each command. NOP and CONFIG have none (rules R140, R141). -/
def slots (p : Params) (op : Op) (m1 m2 : Nat) : List Slot :=
  match op with
  | .nop => []
  | .config => []
  | .range16 => [scalar .own .v, scalar .own .flag]
  | .decomp => decompSlots
  | .rdiv => divisionSlots p .rdiv .q m1 m2
  | .divp => divisionSlots p .divp .z m1 m2
  | .sqrt => sqrtSlots (m1 + m2)
  | .sqrtf => sqrtfSlots (m1 + m2)
  | .atan => atanSlots p m1 m2
  | .rem => remSlots .own (m1 + m2)
  | .tlut => [scalar .own .k, scalar .own .tS, scalar .own .tC]
  | .sin => rescaleSlots p .sin m1 m2
  | .cos => rescaleSlots p .cos m1 m2
  | .tan => tanSlots p m1 m2
  | .expr => exprSlots p .own m1 m2
  | .log => logSlots p m1 m2

/-- The names of a slot: its own cell, then its limbs from the least significant. -/
def Slot.names (s : Slot) : List Name :=
  (if s.cell then [⟨s.key, .whole⟩] else []) ++ (List.range s.limbs).map fun k => ⟨s.key, .limb k⟩

/-- The names of a command's Witness list. -/
def witnessNames (p : Params) (op : Op) (m1 m2 : Nat) : List Name := (slots p op m1 m2).flatMap Slot.names

/-- `D = δ^(L−1)`, the rescale divisor of SIN and COS (46_trig.md, opening; rule R315). -/
def rescaleD (m2 : Nat) : Int := pow2 (16 * m2 * m2)

/-- The constants of the REM sub-gadget, present when `m1 = 2` (rule R322). -/
def reductionConstants (p : Params) (m1 m2 : Nat) : List (Key × Int) :=
  if m1 = 2 then [(⟨.own, .kTwoPiY⟩, p.twoPiY m2), (⟨.own, .kXScaler⟩, p.xScaler m2)] else []

/-- EXPR's Constants list (rule R362). -/
def clipConstants (p : Params) (g : Gadget) (m1 m2 : Nat) : List (Key × Int) :=
  [(⟨g, .kExpLo⟩, p.expLo m1 m2), (⟨g, .kExpHi⟩, p.expHi m1 m2),
   (⟨g, .kExpMin⟩, p.expMin m1 m2), (⟨g, .kExpMax⟩, p.expMax m1 m2)]

/-- The Constants list of each command with the value of each constant; written when B = 1 (rule R75). -/
def constants (p : Params) (op : Op) (m1 m2 : Nat) : List (Key × Int) :=
  match op with
  | .nop => []
  | .config => []
  | .range16 => []
  | .decomp => []
  | .rdiv => []
  | .divp => [(⟨.own, .kDelta⟩, delta m2)]
  | .sqrt => [(⟨.own, .kDelta⟩, delta m2)]
  | .sqrtf => [(⟨.own, .kDelta⟩, delta m2)]
  | .atan =>
    [(⟨.own, .kDelta⟩, delta m2), (⟨.own, .kDelta2⟩, delta m2 ^ 2), (⟨.own, .kFifteenDelta4⟩, 15 * delta m2 ^ 4),
     (⟨.own, .kAtanK⟩, p.atanK m2), (⟨.own, .kPi6⟩, p.pi6 m2), (⟨.own, .kPi2⟩, p.pi2 m2)]
  | .rem => []
  | .tlut => []
  | .sin => (⟨.own, .kD⟩, rescaleD m2) :: reductionConstants p m1 m2
  | .cos => (⟨.own, .kD⟩, rescaleD m2) :: reductionConstants p m1 m2
  | .tan => (⟨.own, .kDelta⟩, delta m2) :: reductionConstants p m1 m2
  | .expr => clipConstants p .own m1 m2
  | .log => clipConstants p .expY m1 m2 ++ clipConstants p .expYm1 m1 m2

/-- The names of a command's Constants list. -/
def constantNames (p : Params) (op : Op) (m1 m2 : Nat) : List Name :=
  (constants p op m1 m2).map fun c => ⟨c.1, .whole⟩

/-- One row if enough columns are available, else two (rules R222, R223, R291, R363). -/
def collapse (p : Params) (op : Op) (m1 m2 nc : Nat) : Nat := if p.oneRowCols op m1 m2 ≤ nc then 1 else 2

/-- `ROWS(op, m1, m2, NCOLS)` (rule R7). LOG's own gate has one or two rows and its sub-gadgets' come on top
(DEDUCED: log entry 21). -/
def rows (p : Params) (op : Op) (m1 m2 nc : Nat) : Nat :=
  match op with
  | .nop => 0
  | .config => 0
  | .range16 => p.rowsOpen .range16 m1 m2 nc
  | .decomp => p.rowsOpen .decomp m1 m2 nc
  | .rdiv => p.rowsOpen .rdiv m1 m2 nc
  | .divp => p.rowsOpen .divp m1 m2 nc
  | .sqrt => collapse p .sqrt m1 m2 nc
  | .sqrtf => collapse p .sqrtf m1 m2 nc
  | .atan => 6
  | .rem => collapse p .rem m1 m2 nc
  | .tlut => p.rowsOpen .tlut m1 m2 nc
  | .sin => p.rowsOpen .sin m1 m2 nc
  | .cos => p.rowsOpen .cos m1 m2 nc
  | .tan => p.rowsOpen .tan m1 m2 nc
  | .expr => p.rowsOpen .expr m1 m2 nc
  | .log => collapse p .log m1 m2 nc + p.rowsOpen .log m1 m2 nc

/-- The cell a name gets in a region that starts at row `start` (rules R71, R72). -/
def cellOf (p : Params) (op : Op) (m1 m2 nc start : Nat) (n : Name) : CellAddr :=
  let o := p.layout op m1 m2 nc n
  { o with row := start + o.row }

/-- The region of a command: the cells of every name LAYOUT gives its op, with the constant cells if it builds
(rules R71, R72, 40_control.md rule R143 step 8). It does not depend on the operands (DEDUCED: log entry 6). How
30_encoding.md rule R102's "B changes … no fault condition" is read beside step 8: DEDUCED, log entry 20. -/
def region (p : Params) (op : Op) (m1 m2 nc start : Nat) (build : Bool) : List CellAddr :=
  (witnessNames p op m1 m2 ++ (if build then constantNames p op m1 m2 else [])).map
    (cellOf p op m1 m2 nc start)

end Sys2Proof.Machine
end

