-- ==== Sys2Proof/Config.lean ====
section
/-! DEFINITION. What an implementation fixes. `Params.Valid` states the requirement of every OPEN parameter
(00_scope.md rule R7, 93_implementation_defined.md section 1); `Config.machine` is the implementation's own choice,
an OPAQUE constant without a body: nothing about it can be evaluated or proved but that it meets the requirements
(log entry 1).

`Params.reference` is one choice that meets them (the test-vector defaults of 95_test_vectors.md where they are
numbers; as CHECK_TAN_M2 the `m2 = 1` gate of 46_trig.md rule R323, which rule R324 says meets the requirement). It shows that the requirements can be met together and lets tests compute; it is no property of the
hardware (rule R7). -/

namespace Sys2Proof

open Machine

/-- The identity of the modelled hardware; no numbered release of the library is assumed (00_scope.md rule R2). -/
def Config.identity : String := "FFEU/zkllvm-blueprint#sub001"

/-- `m1` and `m2` are 1 or 2 (rule R7). -/
abbrev Legal (m : Nat) : Prop := m = 1 ∨ m = 2

/-- The four commands whose own gate collapses from two rows to one (rule R7). -/
def Op.collapses : Op → Bool
  | .sqrt => true
  | .sqrtf => true
  | .rem => true
  | .log => true
  | .nop => false
  | .config => false
  | .range16 => false
  | .decomp => false
  | .rdiv => false
  | .divp => false
  | .atan => false
  | .tlut => false
  | .sin => false
  | .cos => false
  | .tan => false
  | .expr => false

/-- LAYOUT's requirements for one command and configuration (20_memory.md rule R71): witness names in witness
columns below NCOLS, constant names in constant columns, row offsets below ROWS, no two names at one cell. The column
classes and the NCONST bound are DEDUCED: log entry 17. -/
structure LayoutFits (p : Params) (op : Op) (m1 m2 nc : Nat) : Prop where
  witness : ∀ n ∈ witnessNames p op m1 m2,
    (p.layout op m1 m2 nc n).cls = .witness ∧ (p.layout op m1 m2 nc n).col < nc
      ∧ (p.layout op m1 m2 nc n).row < rows p op m1 m2 nc
  constant : ∀ n ∈ constantNames p op m1 m2,
    (p.layout op m1 m2 nc n).cls = .constant ∧ (p.layout op m1 m2 nc n).col < p.nconst
      ∧ (p.layout op m1 m2 nc n).row < rows p op m1 m2 nc
  injective : ((witnessNames p op m1 m2 ++ constantNames p op m1 m2).map (p.layout op m1 m2 nc)).Nodup

/-- `n` limbs hold every value of `[0, top]` (40_control.md rule R146). -/
abbrev Holds (n : Nat) (top : Int) : Prop := top < pow2 (16 * n)

/-- LIMBS's requirement: each site holds the bound its rule derives (rule R146, D35). The bounds, per rule:
R192 and R194 `r, y − r − 1, h < y < B`; R251 `d1 < B`; R252 `r1, a − r1 − 1, h1 < a < B`; R253 `d2 ≤ δ`;
R254 `r2, den − r2 − 1 < den < 2δ²` and `h2 = den div 2 < δ²`; R255 `r5, 15δ⁴ − r5 − 1 < 15δ⁴`;
R320 and R321 `r, D − r − 1 < D`; R323 `c = |Cr|` within rule R314's bound and the rest below `c`;
R362 `dlo, dhi < 2B + |EXP_LO| + |EXP_HI|`; R363 `g1 = e1 − x ≤ B − 2` from `e1 < B` and `x > 0`,
`g2 = x − e0 − 1 ≤ 2B − 3` from `x < B` and `e0 > −B`. DEDUCED: log entry 8. -/
structure LimbsFit (p : Params) (m1 m2 : Nat) : Prop where
  rdiv : ∀ site ∈ [Sym.r, .gap, .h], Holds (p.limbs .rdiv site m1 m2) (bound m1 m2 - 1)
  divp : ∀ site ∈ [Sym.r, .gap, .h], Holds (p.limbs .divp site m1 m2) (bound m1 m2 - 1)
  atan1 : ∀ site ∈ [Sym.d1, .r1, .gap1, .h1], Holds (p.limbs .atan site m1 m2) (bound m1 m2 - 1)
  atan3 : Holds (p.limbs .atan .d2 m1 m2) (delta m2)
  atan4 : ∀ site ∈ [Sym.r2, .gap2], Holds (p.limbs .atan site m1 m2) (2 * delta m2 ^ 2 - 1)
  atan4Half : Holds (p.limbs .atan .h2 m1 m2) (delta m2 ^ 2 - 1)
  atan5 : ∀ site ∈ [Sym.r5, .gap5], Holds (p.limbs .atan site m1 m2) (15 * delta m2 ^ 4 - 1)
  sin : ∀ site ∈ [Sym.r, .gap], Holds (p.limbs .sin site m1 m2) (rescaleD m2 - 1)
  cos : ∀ site ∈ [Sym.r, .gap], Holds (p.limbs .cos site m1 m2) (rescaleD m2 - 1)
  tan : ∀ site ∈ [Sym.c, .r, .h, .gap], Holds (p.limbs .tan site m1 m2) (2 * (m2 : Int) * delta m2 * rescaleD m2)
  expr : ∀ site ∈ [Sym.dlo, .dhi], Holds (p.limbs .expr site m1 m2)
    (2 * bound m1 m2 + mag (p.expLo m1 m2) + mag (p.expHi m1 m2) - 1)
  logAbove : Holds (p.limbs .log .g1 m1 m2) (bound m1 m2 - 2)
  logBelow : Holds (p.limbs .log .g2 m1 m2) (2 * bound m1 m2 - 3)

/-- The requirements of every OPEN parameter at one legal pair `m1, m2`. -/
structure Params.ValidAt (p : Params) (m1 m2 : Nat) : Prop where
  /-- MINCOLS is at most 255 (93 section 1). -/
  minCols : ∀ op, p.minCols op m1 m2 ≤ 255
  /-- ATAN needs up to 15 columns (rule R258). -/
  minColsAtan : p.minCols .atan m1 m2 ≤ 15
  /-- ONEROW_COLS is at least MINCOLS (93 section 1). -/
  oneRow : ∀ op, op.collapses = true → p.minCols op m1 m2 ≤ p.oneRowCols op m1 m2
  /-- An OPEN row count is at least 1 (93 section 1). -/
  rowsOpen : ∀ op nc, 1 ≤ p.rowsOpen op m1 m2 nc
  /-- LAYOUT, wherever enough columns were supplied (rule R71). -/
  layout : ∀ op nc, p.minCols op m1 m2 ≤ nc → nc ≤ 255 → LayoutFits p op m1 m2 nc
  /-- LIMBS (rule R146). -/
  limbs : LimbsFit p m1 m2
  /-- "integers near `π/2·δ`, `π/6·δ`" (93 section 1), read as the open intervals `(δ, 2δ)` and `(0, δ)`.
  DEDUCED: log entry 9. -/
  pi2 : delta m2 < p.pi2 m2 ∧ p.pi2 m2 < 2 * delta m2
  pi6 : 0 < p.pi6 m2 ∧ p.pi6 m2 < delta m2
  /-- `0 < ATAN_K < δ` (93 section 1). -/
  atanK : 0 < p.atanK m2 ∧ p.atanK m2 < delta m2
  /-- `|S|, |C| ≤ δ` (46_trig.md rule R310). -/
  trigTab : ∀ j k, j ≤ m2 → k < 65536 → mag (p.trigTab m2 j k).1 ≤ delta m2 ∧ mag (p.trigTab m2 j k).2 ≤ delta m2
  /-- `0 < TWO_PI_Y < 2^(16·L)` (rule R322). -/
  twoPiY : 0 < p.twoPiY m2 ∧ p.twoPiY m2 < pow2 (16 * angleLimbs m2)
  /-- `1 ≤ X_SCALER < B` (rule R322); the scaler is used with `m1 = 2` only. -/
  xScaler : m1 = 2 → 1 ≤ p.xScaler m2 ∧ p.xScaler m2 < bound m1 m2
  /-- `EXP_LO ≤ EXP_HI` (47_exp_log.md rule R361). -/
  window : p.expLo m1 m2 ≤ p.expHi m1 m2
  /-- `|EXP_MIN|, |EXP_MAX| < B` (rule R361). -/
  clamps : mag (p.expMin m1 m2) < bound m1 m2 ∧ mag (p.expMax m1 m2) < bound m1 m2

/-- The requirements of every OPEN parameter (rule R7, 93 section 1). -/
structure Params.Valid (p : Params) : Prop where
  /-- `P` is an odd prime above `2^172`; a prime above 2 is odd. -/
  prime : p.P.Prime
  large : 2 ^ 172 < p.P
  traceRows : 6 ≤ p.traceRows
  each : ∀ m1 m2, Legal m1 → Legal m2 → p.ValidAt m1 m2
  /-- `CHECK_ATAN_ROW4` accepts exactly the witnesses of 44_atan.md rule R259. DEDUCED: log entry 13. -/
  atanRow4 : ∀ num den u r2 p2 h2 gt2 t v,
    p.checkAtanRow4 num den u r2 p2 h2 gt2 t v = true ↔
      2 * num + den - p2 = 2 * u * den + 2 * r2 ∧ 0 ≤ r2 ∧ r2 < den ∧ den = 2 * h2 + p2 ∧ (p2 = 0 ∨ p2 = 1)
        ∧ v = gt2 * u + (1 - gt2) * t
  /-- `CHECK_TAN_M2` accepts no witness but those of 46_trig.md rule R324. -/
  tanM2Sound : ∀ Sr Cr σ c q r pp h s res, p.checkTanM2 Sr Cr σ c q r pp h s res = true →
    Cr = σ * c ∧ (σ = -1 ∨ σ = 1) ∧ 0 < c ∧ q = rnd (σ * delta 2 * Sr) c ∧ res = s * q
  /-- `CHECK_TAN_M2` accepts every witness of rule R324 whose `r`, `p`, `h` are those of the division; what it says of
  another `r`, `p` or `h` is its own (rule R324 does not name them, and the `m2 = 1` gate of rule R323 rejects them).
  DEDUCED: log entry 13. -/
  tanM2Complete : ∀ Sr σ c s, (σ = -1 ∨ σ = 1) → 0 < c →
    let d := rdm (σ * delta 2 * Sr) c
    p.checkTanM2 Sr (σ * c) σ c d.q d.r d.p (half c) s (s * d.q) = true

/-- The prime `2^521 − 1`. -/
def referencePrime : Nat :=
  6864797660130609714981900799081393217269435300143305409394463459185543183397656052122559640661454554977296311391480858037121987999716643812574028291115057151

/-- The reference choice without its layout: `P = 2^521 − 1`, 32 rows, the constants of 44_atan.md rule R250, the
table entries and exponential values that 95_test_vectors.md L2.6–L2.8 uses, the window VP1 for `m1 = m2 = 1`. -/
def Params.referenceBase : Params where
  P := referencePrime
  traceRows := 32
  nconst := 16
  npub := 0
  rowsOpen := fun _ _ _ _ => 6
  minCols := fun _ _ _ => 15
  oneRowCols := fun _ _ _ => 64
  layout := fun _ _ _ _ _ => ⟨.witness, 0, 0⟩
  limbs := fun op site m1 m2 =>
    match op with
    | .atan =>
      match site with
      | .d2 => m2 + 1
      | .r2 => 2 * m2 + 1
      | .gap2 => 2 * m2 + 1
      | .h2 => 2 * m2
      | .r5 => 4 * m2 + 1
      | .gap5 => 4 * m2 + 1
      | _ => m1 + m2
    | .sin => m2 * m2
    | .cos => m2 * m2
    | .tan => m2 * m2 + m2 + 1
    | .expr => m1 + m2 + 1
    | .log => if site = .g2 then m1 + m2 + 1 else m1 + m2
    | _ => m1 + m2
  pi2 := fun m2 => if m2 = 1 then 102944 else 6746518852
  pi6 := fun m2 => if m2 = 1 then 34315 else 2248839617
  atanK := fun m2 => if m2 = 1 then 37837 else 2479700525
  trigTab := fun m2 j k =>
    if m2 = 1 then
      if j = 1 ∧ k = 1 then (55147, 35409)
      else if j = 1 ∧ k = 3 then (9248, -64880)
      else if j = 0 ∧ k = 1 then (1, 65536)
      else if j = 0 ∧ k = 65535 then (55146, 35410)
      else (0, 65536)
    else if j = 2 ∧ k = 1 then (3614090360, 2320580734)
    else (0, 4294967296)
  twoPiY := fun m2 => if m2 = 1 then 411775 else 26986075409
  xScaler := fun _ => 1
  expFn := fun m1 m2 x =>
    if m1 = 1 ∧ m2 = 1 then
      if x = 0 then 65536 else if x = 1 then 65537 else if x = -1 then 65535 else if x = 65536 then 178145
      else if x = 65535 then 178143 else if x = -65536 then 24109 else if x = 720896 then 3923911751 else 1
    else 1
  expWitCount := fun _ _ => 0
  expWit := fun _ _ _ _ => 0
  expc := fun _ _ _ _ => true
  expLo := fun m1 m2 => if m1 = 1 ∧ m2 = 1 then -720896 else 0
  expHi := fun m1 m2 => if m1 = 1 ∧ m2 = 1 then 720896 else 0
  expMin := fun _ _ => 0
  expMax := fun m1 m2 => bound m1 m2 - 1
  checkAtanRow4 := fun num den u r2 p2 h2 gt2 t v =>
    decide (2 * num + den - p2 = 2 * u * den + 2 * r2 ∧ 0 ≤ r2 ∧ r2 < den ∧ den = 2 * h2 + p2 ∧ (p2 = 0 ∨ p2 = 1)
      ∧ v = gt2 * u + (1 - gt2) * t)
  checkTanM2 := fun Sr Cr σ c q r pp h s res =>
    decide (Cr = σ * c ∧ (σ = -1 ∨ σ = 1) ∧ 2 * (σ * delta 2 * Sr) + c - pp = 2 * q * c + 2 * r ∧ 0 ≤ r ∧ r < c
      ∧ (pp = 0 ∨ pp = 1) ∧ c = 2 * h + pp ∧ 0 ≤ h ∧ res = s * q)

/-- The reference layout: witness names row by row in the order of the Witness list, constants in the first row of
the constant columns. -/
def Params.referenceLayout (op : Op) (m1 m2 nc : Nat) (n : Name) : CellAddr :=
  let i := (witnessNames Params.referenceBase op m1 m2).idxOf n
  if i < (witnessNames Params.referenceBase op m1 m2).length then ⟨.witness, i % nc, i / nc⟩
  else ⟨.constant, (constantNames Params.referenceBase op m1 m2).idxOf n, 0⟩

/-- One choice of the OPEN parameters that meets every requirement (`Params.reference_valid` in Laws/Config.lean). -/
def Params.reference : Params := { Params.referenceBase with layout := Params.referenceLayout }

/-- A configuration: any choice of the OPEN parameters that meets the requirements. The reference choice has a
constructor of its own only so that the type is plainly inhabited. -/
inductive Config where
  | reference
  | chosen (p : Params) (h : p.Valid)
deriving Inhabited

/-- The parameters of a configuration. -/
def Config.params : Config → Params
  | .reference => Params.reference
  | .chosen p _ => p

/-- The configuration of this machine: left open by the spec, so no body, and every claim about the machine holds
for every configuration that meets the requirements. -/
opaque Config.machine : Config

/-- The OPEN parameters of this machine. -/
def Config.own : Params := Config.machine.params

end Sys2Proof
end

