-- ==== Sys2Proof/WellFormed.lean ====
section
/-! DEFINITION. Which terms of `Instr` have an encoding: each field lies in the range its bits can hold
(30_encoding.md rule R103). A well-formed CONFIG may still ask for `m1 = 0` or `3` and a well-formed TLUT for
`J > m2`: those are legal encodings that the command itself rejects (rule R105). -/

namespace Sys2Proof

/-- The field ranges of rule R103: DECOMP's `n` is 1 … 16, TLUT's `J` has 2 bits, CONFIG's CM1 and CM2 have
2 bits each and NCOLS has 8. -/
def Instr.wf : Instr → Bool
  | .nop => true
  | .config cm1 cm2 ncols => decide (cm1 < 4) && decide (cm2 < 4) && decide (ncols < 256)
  | .range16 _ => true
  | .decomp _ n _ => decide (1 ≤ n) && decide (n ≤ 16)
  | .rdiv _ => true
  | .divp _ => true
  | .sqrt _ => true
  | .sqrtf _ => true
  | .atan _ => true
  | .rem _ => true
  | .tlut _ j => decide (j < 4)
  | .sin _ => true
  | .cos _ => true
  | .tan _ => true
  | .expr _ => true
  | .log _ => true

end Sys2Proof
end

