-- ==== Sys2Proof/Decode.lean ====
section
/-! DEFINITION. The decoding procedure of 30_encoding.md rule R105, total on every 32-bit word, and the encoder
of rules R101 and R103 beside it. -/

namespace Sys2Proof

/-- Bits `lo + len - 1 … lo` of a command word as an unsigned integer, `w[hi:lo]` of 00_scope.md rule R12. No
field is sign-extended. -/
def Word.bits (w : Word) (lo len : Nat) : Nat := w.toNat / 2 ^ lo % 2 ^ len

/-- The OP field, bits 4:0 (rule R101). -/
def Word.opField (w : Word) : Nat := w.bits 0 5

/-- The ARG field, bits 15:8 (rule R101). -/
def Word.argField (w : Word) : Nat := w.bits 8 8

/-- The B field, bit 5 (rule R102). -/
def Word.buildField (w : Word) : Bool := w.bits 5 1 == 1

/-- Why a word is illegal, named by the test of rule R105 it fails. -/
inductive Reject where
  /-- OP is 0x10 … 0x1F, a reserved opcode. -/
  | reservedOpcode
  /-- Bits 7:6 or 31:20 are not 0. -/
  | reservedBits
  /-- CM1 or CM2 is not 0 on a command other than CONFIG. -/
  | configBits
  /-- B = 1 on NOP or CONFIG. -/
  | buildBit
  /-- A must-be-0 bit of ARG is set. -/
  | argBits
deriving DecidableEq, Repr

/-- `instr` if the ARG bits its format keeps at 0 are 0 (the last step of rule R105). -/
def argZero (mustBeZero : Nat) (instr : Instr) : Except Reject Instr :=
  if mustBeZero = 0 then .ok instr else .error .argBits

/-- The fields of an accepted word, by its opcode (rules R103, R104). The reserved-bit tests of rule R105 have
been made. -/
def decodeFields (w : Word) : Except Reject Instr :=
  match w.opField with
  | 0x00 => argZero w.argField .nop
  | 0x01 => .ok (.config (w.bits 16 2) (w.bits 18 2) w.argField)
  | 0x02 => argZero w.argField (.range16 w.buildField)
  | 0x03 => argZero (w.bits 13 3) (.decomp w.buildField (w.bits 8 4 + 1) (w.bits 12 1 == 1))
  | 0x04 => argZero w.argField (.rdiv w.buildField)
  | 0x05 => argZero w.argField (.divp w.buildField)
  | 0x06 => argZero w.argField (.sqrt w.buildField)
  | 0x07 => argZero w.argField (.sqrtf w.buildField)
  | 0x08 => argZero w.argField (.atan w.buildField)
  | 0x09 => argZero w.argField (.rem w.buildField)
  | 0x0A => argZero (w.bits 10 6) (.tlut w.buildField (w.bits 8 2))
  | 0x0B => argZero w.argField (.sin w.buildField)
  | 0x0C => argZero w.argField (.cos w.buildField)
  | 0x0D => argZero w.argField (.tan w.buildField)
  | 0x0E => argZero w.argField (.expr w.buildField)
  | 0x0F => argZero w.argField (.log w.buildField)
  | _ => .error .reservedOpcode

/-- The decoding procedure of rule R105. Every rejected word is illegal (rule R106); which test it failed is
kept as the name of the rejection. -/
def decode (w : Word) : Except Reject Instr :=
  if 0x10 ≤ w.opField then .error .reservedOpcode
  else if w.bits 6 2 ≠ 0 ∨ w.bits 20 12 ≠ 0 then .error .reservedBits
  else if w.opField ≠ 0x01 ∧ w.bits 16 4 ≠ 0 then .error .configBits
  else if w.opField ≤ 0x01 ∧ w.bits 5 1 ≠ 0 then .error .buildBit
  else decodeFields w

/-- OP of a command (rule R104). -/
def Op.code : Op → Nat
  | .nop => 0x00
  | .config => 0x01
  | .range16 => 0x02
  | .decomp => 0x03
  | .rdiv => 0x04
  | .divp => 0x05
  | .sqrt => 0x06
  | .sqrtf => 0x07
  | .atan => 0x08
  | .rem => 0x09
  | .tlut => 0x0A
  | .sin => 0x0B
  | .cos => 0x0C
  | .tan => 0x0D
  | .expr => 0x0E
  | .log => 0x0F

/-- A one-bit field. -/
def bit (b : Bool) : Nat := if b then 1 else 0

/-- The op-specific part of a command word: ARG in bits 15:8, CM1 in 17:16, CM2 in 19:18 (rules R101, R103). -/
def Instr.argBits : Instr → Nat
  | .nop => 0
  | .config cm1 cm2 ncols => ncols * 2 ^ 8 + cm1 * 2 ^ 16 + cm2 * 2 ^ 18
  | .range16 _ => 0
  | .decomp _ n u => (n - 1) * 2 ^ 8 + bit u * 2 ^ 12
  | .rdiv _ => 0
  | .divp _ => 0
  | .sqrt _ => 0
  | .sqrtf _ => 0
  | .atan _ => 0
  | .rem _ => 0
  | .tlut _ j => j * 2 ^ 8
  | .sin _ => 0
  | .cos _ => 0
  | .tan _ => 0
  | .expr _ => 0
  | .log _ => 0

/-- The one command word of a command (rules R101, R103, R107; R120 gives the same sums). -/
def encode (i : Instr) : Word :=
  BitVec.ofNat 32 (i.op.code + bit i.build * 2 ^ 5 + i.argBits)

/-- The host's view of the decoder: the command read from the `nbits` low bits of `w`, every higher bit 0. -/
def decodeTableWord (nbits w : Nat) : Option Instr :=
  match decode (BitVec.ofNat 32 (w % 2 ^ min nbits 32)) with
  | .ok i => some i
  | .error _ => none

end Sys2Proof
end

