-- ==== Sys2Proof/Machine/State.lean ====
section
/-! DEFINITION. The architectural state (10_state.md rules R32–R48), the reasons a step can stop, and the state
after reset (70_reset_and_hazards.md rule R440). `Ffeu` is the unit's state record, with exactly the fields of rule
R48; `State` is the unit with the host agent of rule R30. -/

namespace Sys2Proof.Machine

/-- One assigned cell of the trace (rule R44). -/
abbrev TraceEntry := CellAddr × Nat

/-- One CSLOG record `(w, ROW, m1, m2, NCOLS)` (rule R46). -/
structure CsRecord where
  w : Word
  row : Word
  m1 : Nat
  m2 : Nat
  nc : Nat
deriving DecidableEq, Repr

/-- The three operand registers (rule R37). -/
inductive FReg where
  | opa | opb | opc
deriving DecidableEq, Repr

/-- One line of the host program (30_encoding.md rules R120, R122; R31), or a reset of the unit (rule R441). -/
inductive HostEvent where
  /-- `wr <reg>, <int>`; address 0x00 is CMD, so this is also every command line. -/
  | write (addr : Nat) (value : Int)
  /-- `rd <reg>`. -/
  | read (addr : Nat)
  /-- A host read of a trace cell (20_memory.md rule R76). -/
  | readCell (a : CellAddr)
  /-- A host write of a trace cell, for which no path exists (rule R76). -/
  | writeCell (a : CellAddr) (value : Int)
  /-- The pseudo-instruction `fx <F-reg>, num/den` (rule R122). -/
  | fx (reg : FReg) (num : Int) (den : Nat)
  /-- The pseudo-instruction `cp <F-reg>, <reg>` (rule R122). -/
  | cp (reg : FReg) (addr : Nat)
  /-- The pseudo-instruction `wait` (rule R122). -/
  | wait
  /-- A reset, an event of the environment and not a command (rule R441). -/
  | reset
deriving DecidableEq, Repr

/-- A value the host observed by a read: a u32 word or a field element (rules R32, R81). -/
inductive HostValue where
  | word (w : Word)
  | elem (v : Nat)
deriving DecidableEq, Repr

/-- The bank of lookup tables: RANGE_TABLE, TRIG16 and TRIG32 (rules R41, R42). Their contents are functions of the
configuration and the same from reset onward (rule R43), so the bank holds nothing that a step could change
(DESIGN CHOICE: log entry 3); `hasRange` and `trig` read it. -/
structure LookupBank where
deriving DecidableEq, Repr

/-- A range lookup: the element is in RANGE_TABLE (rule R41, 41_decomp_range.md rule R163). -/
def LookupBank.hasRange (_bank : LookupBank) (v : Nat) : Bool := decide (v < 65536)

/-- Entry `k` of table `j`: of TRIG16 with `m2 = 1`, of TRIG32 with `m2 = 2` (rule R42). -/
def LookupBank.trig (_bank : LookupBank) (p : Params) (m2 j k : Nat) : Int × Int := p.trigTab m2 j k

/-- The state record of the unit: the registers of rule R32, TRACE (rule R44), CSLOG (rule R46) and the lookup tables
(rules R41, R42), and no other field (rule R48). -/
structure Ffeu where
  /-- STATUS, 0x01 (rule R34). -/
  status : Word
  /-- CFG, 0x02 (rule R35). -/
  cfg : Word
  /-- ROW, 0x03 (rule R36). -/
  row : Word
  /-- OPA, 0x04 (rule R37); `none` is `⊥`. -/
  opa : Option Nat
  /-- OPB, 0x05. -/
  opb : Option Nat
  /-- OPC, 0x06. -/
  opc : Option Nat
  /-- RESN, 0x07 (rule R38). -/
  resn : Word
  /-- FCMD, 0x08 (rule R39). -/
  fcmd : Word
  /-- TREQ, 0x09 (rule R40). -/
  treq : Word
  /-- CCNT, 0x0A (rule R39). -/
  ccnt : Word
  /-- RES0 … RES16, 0x10 … 0x20 (rule R38); `none` is `⊥`. -/
  res : Vector (Option Nat) 17
  /-- TRACE: the assigned cells, in the canonical form of `Trace.wf` (Ops.lean). -/
  trace : List TraceEntry
  /-- CSLOG, oldest record first (rule R46). -/
  cslog : List CsRecord
  /-- The lookup tables (rules R41–R43). -/
  tables : LookupBank
deriving DecidableEq, Repr

/-- The whole system of rule R30: the unit, and two fields of the MODEL's own that stand for the host agent, its
program and what it has observed (log entry 2). -/
structure State extends Ffeu where
  /-- MODEL field: the rest of the host program, next line first (rule R31). -/
  host : List HostEvent
  /-- MODEL field: the values host reads have returned, oldest first (rule R120). -/
  observed : List HostValue
deriving DecidableEq, Repr

/-- Why a run stops although the unit itself goes on: the host read something that has no value. Raised by host
reads only; no command raises one. Safe: the spec gives the read no value (00_scope.md rule R14).
DEDUCED: log entry 4. -/
inductive Fault where
  /-- A host read of an operand or result register that holds `⊥` (rule R14: "which a model treats as a fault of the
  host program, not as zero"). Raised by `rd`. Safe. -/
  | hostReadUnassigned (addr : Nat)
  /-- A host read of an unassigned trace cell (20_memory.md rule R76). Raised by a cell read. Safe. -/
  | hostReadUnassignedCell (a : CellAddr)
deriving DecidableEq, Repr

/-- Host actions that the spec has a model refuse, and the mark of an instruction without a meaning. No command
raises one. -/
inductive Refusal where
  /-- No arm of `exec` answers this: every command has its meaning. Safe. -/
  | notModelled (mnemonic : String)
  /-- A host read of an address rule R32 does not list. Raised by `rd`, `cp`. Safe. -/
  | hostReadUnmapped (addr : Nat)
  /-- A host read of CMD (rule R32). Raised by `rd`, `cp`. Safe. -/
  | hostReadCmd
  /-- A host write to a register marked R in rule R32. Raised by `wr`. Safe. -/
  | hostWriteReadOnly (addr : Nat)
  /-- A host write to an address rule R32 does not list; no rule says what becomes of it. Raised by `wr`. Safe.
  DESIGN CHOICE: log entry 23. -/
  | hostWriteUnmapped (addr : Nat)
  /-- A host read of a cell outside the grid of rule R70. Raised by a cell read. Safe. DEDUCED: log entry 5. -/
  | hostCellOutside (a : CellAddr)
  /-- A host write of a trace cell: no such path exists (rule R76). Safe. -/
  | hostCellWrite (a : CellAddr)
  /-- `fx` with no CFG in effect, so no `δ` (rule R122). Raised by the assembler's view of `fx`. Safe.
  DESIGN CHOICE: log entry 14. -/
  | fxWithoutConfig
  /-- `fx` with a denominator of 0, which is no real number. Safe. DESIGN CHOICE: log entry 14. -/
  | fxNotReal
  /-- `cp` of a register that holds `⊥` ("refused if the value read is none", rule R122). Safe. -/
  | cpNoValue (addr : Nat)
deriving DecidableEq, Repr

/-- The unit after reset (rule R440): every register 0 or `⊥`, TRACE unassigned, CSLOG empty, the tables as ever. -/
def Ffeu.reset : Ffeu where
  status := 0
  cfg := 0
  row := 0
  opa := none
  opb := none
  opc := none
  resn := 0
  fcmd := 0
  treq := 0
  ccnt := 0
  res := Vector.replicate 17 none
  trace := []
  cslog := []
  tables := {}

/-- The system after reset. The host program is empty: a program is placed from outside (log entry 2). -/
def State.reset : State where
  toFfeu := Ffeu.reset
  host := []
  observed := []

end Sys2Proof.Machine
end

