-- ==== Sys2Proof/Machine/Flags.lean ====
section
/-! DEFINITION. The fields of STATUS, CFG and TREQ (10_state.md rules R34, R35, R40), the fault codes
(60_exceptions.md rule R400), and the flags that commands compute (rule R45). There is no architected flags
register: a flag is a value of one command. -/

namespace Sys2Proof.Machine

/-- The faults of rule R400. -/
inductive FaultCode where
  /-- 1: the word fails decoding, or TLUT with `J > m2`. -/
  | illegal
  /-- 2: CONFIG with `m1` or `m2` not in {1, 2}; a compute command while CFG.VALID = 0. -/
  | cfgInvalid
  /-- 3: NCOLS below MINCOLS. -/
  | cfgColumns
  /-- 4: an operand register the command reads is `⊥`. -/
  | unset
  /-- 5: an operand, a result or an internal site out of range. -/
  | range
  /-- 6: a divisor outside the command's domain. -/
  | divisor
  /-- 7: a value below the command's domain. -/
  | negative
  /-- 8: LOG has no bracket. -/
  | noSolution
  /-- 9: the region runs past the last trace row. -/
  | traceBounds
  /-- 10: a region cell is already assigned. -/
  | traceOverlap
deriving DecidableEq, Repr

/-- The code a fault records in STATUS.CODE (rule R400). -/
def FaultCode.code : FaultCode → Nat
  | .illegal => 1
  | .cfgInvalid => 2
  | .cfgColumns => 3
  | .unset => 4
  | .range => 5
  | .divisor => 6
  | .negative => 7
  | .noSolution => 8
  | .traceBounds => 9
  | .traceOverlap => 10

/-- STATUS after a fault: `CODE + 256` (60_exceptions.md rule R401). -/
def statusOf (c : FaultCode) : Word := BitVec.ofNat 32 (256 + c.code)

/-- STATUS.CODE, bits 7:0 (rule R34). -/
def State.code (s : State) : Nat := s.status.toNat % 2 ^ 8

/-- STATUS.ABORT, bit 8 (rule R34). -/
def State.abort (s : State) : Bool := s.status.toNat / 2 ^ 8 % 2 == 1

/-- CFG.M1, bits 1:0 (rule R35). -/
def State.m1 (s : State) : Nat := s.cfg.toNat % 2 ^ 2

/-- CFG.M2, bits 3:2 (rule R35). -/
def State.m2 (s : State) : Nat := s.cfg.toNat / 2 ^ 2 % 2 ^ 2

/-- CFG.NCOLS, bits 15:8 (rule R35). -/
def State.ncols (s : State) : Nat := s.cfg.toNat / 2 ^ 8 % 2 ^ 8

/-- CFG.VALID, bit 16 (rule R35). -/
def State.cfgValid (s : State) : Bool := s.cfg.toNat / 2 ^ 16 % 2 == 1

/-- CFG as CONFIG writes it: M1 = a, M2 = b, NCOLS = c, VALID = 1 (40_control.md rule R141). -/
def cfgWord (a b c : Nat) : Word := BitVec.ofNat 32 (65536 + 256 * c + 4 * b + a)

/-- TREQ.RANGE, bit 0: set by every command whose Constraints use RANGE_TABLE (rule R40). -/
def usesRange : Op → Bool
  | .nop => false
  | .config => false
  | .range16 => true
  | .decomp => true
  | .rdiv => true
  | .divp => true
  | .sqrt => true
  | .sqrtf => true
  | .atan => true
  | .rem => true
  | .tlut => false
  | .sin => true
  | .cos => true
  | .tan => true
  | .expr => true
  | .log => true

/-- TLUT, SIN, COS and TAN use the trig tables (rule R40). -/
def usesTrig : Op → Bool
  | .nop => false
  | .config => false
  | .range16 => false
  | .decomp => false
  | .rdiv => false
  | .divp => false
  | .sqrt => false
  | .sqrtf => false
  | .atan => false
  | .rem => false
  | .tlut => true
  | .sin => true
  | .cos => true
  | .tan => true
  | .expr => false
  | .log => false

/-- EXPR and LOG use the external exponential's tables (rule R40). -/
def usesExp : Op → Bool
  | .nop => false
  | .config => false
  | .range16 => false
  | .decomp => false
  | .rdiv => false
  | .divp => false
  | .sqrt => false
  | .sqrtf => false
  | .atan => false
  | .rem => false
  | .tlut => false
  | .sin => false
  | .cos => false
  | .tan => false
  | .expr => true
  | .log => true

/-- The TREQ bits a command sets when it builds: RANGE bit 0, TRIG16 bit 1 (`m2 = 1`), TRIG32 bit 2 (`m2 = 2`),
EXPTAB bit 3 (rule R40). -/
def treqBits (op : Op) (m2 : Nat) : Word :=
  (if usesRange op then 1#32 else 0#32)
  ||| (if usesTrig op && m2 == 1 then 2#32 else 0#32)
  ||| (if usesTrig op && m2 == 2 then 4#32 else 0#32)
  ||| (if usesExp op then 8#32 else 0#32)

/-- A one-bit flag value of a command. -/
def flag (c : Bool) : Int := if c then 1 else 0

/-- RANGE16's flag: membership of RANGE_TABLE (41_decomp_range.md rule R163; 10_state.md rule R41). -/
def rangeFlag (bank : LookupBank) (v : Nat) : Int := flag (bank.hasRange v)

/-- ATAN's `gt1`: `|x| > 1.0`, strict (44_atan.md rule R251). -/
def gt1Flag (m2 : Nat) (a : Int) : Int := flag (decide (a > delta m2))

/-- ATAN's `gt2`: `t > ATAN_K`, strict (rule R253). -/
def gt2Flag (K t : Int) : Int := flag (decide (t > K))

/-- The clip's `lt`: `x < EXP_LO`, strict (47_exp_log.md rule R361). -/
def ltFlag (lo x : Int) : Int := flag (decide (x < lo))

/-- The clip's `gt`: `x > EXP_HI`, strict (rule R361). -/
def gtFlag (hi x : Int) : Int := flag (decide (x > hi))

end Sys2Proof.Machine
end

