-- ==== Sys2Proof/Machine/Ops.lean ====
section
/-! DEFINITION. The shared operations: the trace, the host's register map, taking a fault, and the frame that every
compute command runs in (40_control.md rule R143). -/

namespace Sys2Proof.Machine

/-! ## The trace (20_memory.md rules R70–R76) -/

/-- The place of a column class in the order of the trace list. -/
def classIndex : ColClass → Nat
  | .witness => 0
  | .constant => 1
  | .input => 2

/-- The order of the trace list: by class, then column, then row. -/
def cellBefore (a b : CellAddr) : Bool :=
  decide (classIndex a.cls < classIndex b.cls)
  || (classIndex a.cls == classIndex b.cls
      && (decide (a.col < b.col) || (a.col == b.col && decide (a.row < b.row))))

/-- The canonical form: addresses strictly rising. An unlisted cell is unassigned (rule R44), so no entry says what
an unlisted cell reads as (DESIGN CHOICE: log entry 19). -/
def Trace.wf : List TraceEntry → Bool
  | [] => true
  | [_] => true
  | a :: b :: rest => cellBefore a.1 b.1 && Trace.wf (b :: rest)

/-- `MemRead`: the element of a cell, `none` if it is unassigned (rules R13, R44). -/
def Trace.read : List TraceEntry → CellAddr → Option Nat
  | [], _ => none
  | e :: rest, a => if e.1 = a then some e.2 else Trace.read rest a

/-- `MemWrite`: assign a cell (rule R13), keeping the canonical form. -/
def Trace.write : List TraceEntry → CellAddr → Nat → List TraceEntry
  | [], a, v => [(a, v)]
  | e :: rest, a, v =>
    if e.1 = a then (a, v) :: rest
    else if cellBefore a e.1 then (a, v) :: e :: rest
    else e :: Trace.write rest a v

/-- Assign several cells, in order. -/
def Trace.writeAll (t : List TraceEntry) : List TraceEntry → List TraceEntry
  | [] => t
  | e :: rest => Trace.writeAll (Trace.write t e.1 e.2) rest

/-- Some cell of the list is assigned (rule R74). -/
def Trace.overlaps (t : List TraceEntry) (cells : List CellAddr) : Bool :=
  cells.any fun a => (Trace.read t a).isSome

/-- The cell exists in the grid of rule R70. -/
def inGrid (p : Params) (a : CellAddr) : Bool :=
  decide (a.row < p.traceRows) &&
  match a.cls with
  | .witness => decide (a.col < 255)
  | .constant => decide (a.col < p.nconst)
  | .input => decide (a.col < p.npub)

/-! ## Taking a fault (60_exceptions.md rules R401, R402) -/

/-- A command with word `w` raises `Fault(c)`: STATUS and FCMD record it and nothing else is written. There is no
vector, no saved program counter and no mode (rule R401), and no return but reset (rule R405). -/
def State.raiseFault (s : State) (w : Word) (c : FaultCode) : State :=
  { s with status := statusOf c, fcmd := w }

/-- While STATUS.ABORT = 1 every CMD write is ignored (rule R405); otherwise the command answers `t`. -/
def State.unlessAborted (s : State) (t : State) : State := if s.abort then s else t

/-- Reset puts the unit into the state of 70_reset_and_hazards.md rule R440, whatever it was before. The host's own
program and observations are no state of the unit and stay (DESIGN CHOICE: log entry 15). -/
def State.resetUnit (s : State) : State := { s with toFfeu := Ffeu.reset }

/-! ## The frame of a compute command (rule R143) -/

/-- The instance a command runs in: the parameters, what step 2 of rule R143 reads from CFG, and the lookup tables
(10_state.md rules R41, R42). -/
structure Env where
  p : Params
  m1 : Nat
  m2 : Nat
  nc : Nat
  tables : LookupBank

/-- Step 2 of rule R143: `m1`, `m2` and NCOLS from CFG; and the tables. -/
def State.env (s : State) (p : Params) : Env := ⟨p, s.m1, s.m2, s.ncols, s.tables⟩

/-- The scale `δ` of the instance (rule R8). -/
def Env.delta (e : Env) : Int := Machine.delta e.m2

/-- The representable bound `B` of the instance (rule R8). -/
def Env.bound (e : Env) : Int := Machine.bound e.m1 e.m2

/-- What a body yields: its Results list, and the integer its pseudocode gives each name of its Witness list
(rule R142). -/
structure BodyOut where
  results : List Int
  values : List (Key × Int)
deriving DecidableEq, Repr

/-- `if … : raise Fault(c)`. -/
def raiseIf (cond : Bool) (c : FaultCode) : Except FaultCode Unit := if cond then .error c else .ok ()

/-- The value a body gave a name. -/
def valueOf (values : List (Key × Int)) (key : Key) : Option Int := values.lookup key

/-- A decomposition site holds its value: `|e| < 2^(16n)`, and `e ≥ 0` where the site is unsigned (rule R146). -/
def siteHolds (n : Nat) (signed : Bool) (e : Int) : Bool :=
  decide (mag e < pow2 (16 * n)) && (signed || decide (0 ≤ e))

/-- No site of the slot faults (rule R146). A name without a value in this command has no site. -/
def Slot.fits (values : List (Key × Int)) (s : Slot) : Bool :=
  match valueOf values s.key with
  | none => true
  | some v => s.limbs == 0 || siteHolds s.limbs s.signed v

/-- The cells of a slot with their integers: the value's own cell and its limb cells. The padding limbs are not
written (41_decomp_range.md rule R161). -/
def Slot.cells (values : List (Key × Int)) (s : Slot) : List (Name × Int) :=
  match valueOf values s.key with
  | none => []
  | some v =>
    (if s.cell then [(⟨s.key, .whole⟩, v)] else [])
    ++ (List.range s.limbs).map fun k => (⟨s.key, .limb k⟩, (limb v k : Int))

/-- The Witness list of a command with its integers (rule R75). -/
def witnessOf (e : Env) (op : Op) (values : List (Key × Int)) : List (Name × Int) :=
  (slots e.p op e.m1 e.m2).flatMap (Slot.cells values)

/-- The Constants list of a command with its integers (rule R75). -/
def constantsOf (e : Env) (op : Op) : List (Name × Int) :=
  (constants e.p op e.m1 e.m2).map fun c => (⟨c.1, .whole⟩, c.2)

/-- The trace writes of a command: every Witness name and, if it builds, every Constants name (rule R75). -/
def cellWrites (e : Env) (i : Instr) (start : Nat) (values : List (Key × Int)) : List TraceEntry :=
  (witnessOf e i.op values ++ (if i.build then constantsOf e i.op else [])).map fun nv =>
    (cellOf e.p i.op e.m1 e.m2 e.nc start nv.1, toF e.p.P nv.2)

/-- RES0 … RES16 after `k` results: the results as field elements, then `⊥` (10_state.md rule R38). -/
def loadResults (P : Nat) (results : List Int) : Vector (Option Nat) 17 :=
  Vector.ofFn fun k : Fin 17 => (results[k.val]?).map (toF P)

/-- The CSLOG record of a command (10_state.md rule R46). -/
def recordOf (e : Env) (i : Instr) (s : State) : CsRecord := ⟨encode i, s.row, e.m1, e.m2, e.nc⟩

/-- A command that completed without a fault counts in CCNT, modulo 2^32 (rule R39). -/
def State.count (s : State) : State := { s with ccnt := s.ccnt + 1 }

/-- Step 9 of rule R143, all at once: results, trace cells, CCNT, and with B = 1 the CSLOG record and the TREQ bits
(30_encoding.md rule R102). -/
def commit (e : Env) (i : Instr) (s : State) (out : BodyOut) : State :=
  { s with
    res := loadResults e.p.P out.results
    resn := BitVec.ofNat 32 out.results.length
    trace := Trace.writeAll s.trace (cellWrites e i s.row.toNat out.values)
    cslog := if i.build then s.cslog ++ [recordOf e i s] else s.cslog
    treq := if i.build then s.treq ||| treqBits i.op e.m2 else s.treq
    ccnt := s.ccnt + 1 }

/-- Step 3 of rule R143: TLUT's limb position must be at most `m2`. -/
def badLimbPosition (i : Instr) (m2 : Nat) : Bool :=
  match i with
  | .tlut _ j => decide (m2 < j)
  | .nop => false
  | .config _ _ _ => false
  | .range16 _ => false
  | .decomp _ _ _ => false
  | .rdiv _ => false
  | .divp _ => false
  | .sqrt _ => false
  | .sqrtf _ => false
  | .atan _ => false
  | .rem _ => false
  | .sin _ => false
  | .cos _ => false
  | .tan _ => false
  | .expr _ => false
  | .log _ => false

/-- Steps 2–4 of rule R143. -/
def constructionChecks (e : Env) (i : Instr) (s : State) : Except FaultCode Unit := do
  raiseIf (!s.cfgValid) .cfgInvalid
  raiseIf (badLimbPosition i e.m2) .illegal
  raiseIf (decide (e.nc < e.p.minCols i.op e.m1 e.m2)) .cfgColumns

/-- Steps 7 and 8 of rule R143. -/
def regionChecks (e : Env) (i : Instr) (s : State) : Except FaultCode Unit := do
  raiseIf (decide (e.p.traceRows < s.row.toNat + rows e.p i.op e.m1 e.m2 e.nc)) .traceBounds
  raiseIf (Trace.overlaps s.trace (region e.p i.op e.m1 e.m2 e.nc s.row.toNat i.build)) .traceOverlap

/-- Steps 2–9 of rule R143: the first step that raises a fault ends the command with that fault. The body makes
step 5 (its operands, in the order OPA, OPB, OPC) and step 6; its internal sites are checked after it (rule R146;
DEDUCED: log entry 12). -/
def frame (p : Params) (i : Instr) (s : State) (body : Env → Except FaultCode BodyOut) : Except FaultCode State := do
  constructionChecks (s.env p) i s
  let out ← body (s.env p)
  raiseIf (!(slots p i.op s.m1 s.m2).all (Slot.fits out.values)) .range
  regionChecks (s.env p) i s
  return commit (s.env p) i s out

/-- Perform a compute command (10_state.md rule R33): ignored under ABORT, else the frame, a fault being taken by
`raiseFault`. -/
def perform (p : Params) (i : Instr) (s : State) (body : Env → Except FaultCode BodyOut) : State :=
  s.unlessAborted
    (match frame p i s body with
     | .ok t => t
     | .error c => s.raiseFault (encode i) c)

/-! ## The host's register map (rule R32) -/

/-- The registers of rule R32. -/
inductive Reg where
  | cmd | status | cfg | row | opa | opb | opc | resn | fcmd | treq | ccnt
  | res (k : Fin 17)
deriving DecidableEq, Repr

/-- The register at a word address, if rule R32 lists it. -/
def Reg.ofAddr (addr : Nat) : Option Reg :=
  match addr with
  | 0x00 => some .cmd
  | 0x01 => some .status
  | 0x02 => some .cfg
  | 0x03 => some .row
  | 0x04 => some .opa
  | 0x05 => some .opb
  | 0x06 => some .opc
  | 0x07 => some .resn
  | 0x08 => some .fcmd
  | 0x09 => some .treq
  | 0x0A => some .ccnt
  | n => if h : 0x10 ≤ n ∧ n ≤ 0x20 then some (.res ⟨n - 0x10, by omega⟩) else none

/-- The address of an operand register (rule R32). -/
def FReg.addr : FReg → Nat
  | .opa => 0x04
  | .opb => 0x05
  | .opc => 0x06

/-- What a host read of a register other than CMD returns; `none` where it holds `⊥`, and for CMD, which holds
nothing (rules R14, R33). -/
def State.readReg (s : State) : Reg → Option HostValue
  | .cmd => none
  | .status => some (.word s.status)
  | .cfg => some (.word s.cfg)
  | .row => some (.word s.row)
  | .opa => s.opa.map .elem
  | .opb => s.opb.map .elem
  | .opc => s.opc.map .elem
  | .resn => some (.word s.resn)
  | .fcmd => some (.word s.fcmd)
  | .treq => some (.word s.treq)
  | .ccnt => some (.word s.ccnt)
  | .res k => s.res[k].map .elem

/-- The integer a read value stands for, as `cp` writes it (30_encoding.md rule R122). -/
def HostValue.toInt : HostValue → Int
  | .word w => (w.toNat : Int)
  | .elem v => (v : Int)

end Sys2Proof.Machine
end

