-- ==== Sys2Proof/Machine/Operands.lean ====
section
/-! DEFINITION. The operand forms of 30_encoding.md rule R110: every operand is a register, read raw or as a
fixed-point value. -/

namespace Sys2Proof.Machine

/-- Step 5 of 40_control.md rule R143: an operand register that holds `⊥` raises UNSET (00_scope.md rule R14). -/
def operand (r : Option Nat) : Except FaultCode Nat :=
  match r with
  | some v => .ok v
  | none => .error .unset

/-- `x <- fxop(OPx)` (rule R144): the signed value, RANGE if `|x| ≥ B`. -/
def fxop (e : Env) (v : Nat) : Except FaultCode Int := do
  raiseIf (decide (e.bound ≤ mag (sval e.p.P v))) .range
  return sval e.p.P v

/-- `check_result(z)` (rule R145): RANGE if `|z| ≥ B`. -/
def checkResult (e : Env) (z : Int) : Except FaultCode Unit := raiseIf (decide (e.bound ≤ mag z)) .range

/-- What `DEC` returns: the sign and the padded limb list (41_decomp_range.md rule R160). -/
structure Dec where
  sign : Int
  limbs : List Int
deriving DecidableEq, Repr

/-- `DEC(v, n, u)` (rule R160): RANGE if `|v| ≥ 2^(16n)`, then NEGATIVE if unsigned and `v < 0`. -/
def dec (v : Int) (n : Nat) (u : Bool) : Except FaultCode Dec := do
  raiseIf (decide (pow2 (16 * n) ≤ mag v)) .range
  raiseIf (u && decide (v < 0)) .negative
  return ⟨sgn v, limbList n v⟩

/-- A named value of the command itself. -/
def own (name : Sym) (v : Int) : Key × Int := (⟨.own, name⟩, v)

end Sys2Proof.Machine
end

