-- ==== Sys2Proof/Machine/Atan.lean ====
section
/-! DEFINITION. ATAN (44_atan.md): the six stages of rules R251–R256 and the command of rule R258. -/

namespace Sys2Proof.Machine

/-- Stage 1 (rule R251): magnitude, sign and `gt1`. -/
structure AtanStage1 where
  s : Int
  a : Int
  gt1 : Int
  d1 : Int
deriving DecidableEq, Repr

/-- Stage 1 (rule R251). -/
def atanStage1 (m2 : Nat) (x : Int) : AtanStage1 :=
  let a := mag x
  let gt1 := gt1Flag m2 a
  { s := sgn x, a := a, gt1 := gt1, d1 := if gt1 = 1 then a - delta m2 - 1 else delta m2 - a }

/-- Stage 2 (rule R252): the reciprocal, or the value itself with the division's cells at 0. -/
structure AtanStage2 where
  t : Int
  r1 : Int
  p1 : Int
  h1 : Int
  gap1 : Int
deriving DecidableEq, Repr

/-- Stage 2 (rule R252). With `gt1 = 0` no division is performed and its cells hold 0, the limbs of `a − r1 − 1` among
them (DEDUCED: log entry 10). -/
def atanStage2 (m2 : Nat) (c : AtanStage1) : AtanStage2 :=
  if c.gt1 = 1 then
    let d := rdm (delta m2 ^ 2) c.a
    { t := d.q, r1 := d.r, p1 := d.p, h1 := half c.a, gap1 := c.a - d.r - 1 }
  else { t := c.a, r1 := 0, p1 := 0, h1 := 0, gap1 := 0 }

/-- Stage 3 (rule R253): the second comparison and the staged fraction. -/
structure AtanStage3 where
  gt2 : Int
  d2 : Int
  num : Int
  den : Int
deriving DecidableEq, Repr

/-- Stage 3 (rule R253). -/
def atanStage3 (m2 : Nat) (K t : Int) : AtanStage3 :=
  let gt2 := gt2Flag K t
  { gt2 := gt2
    d2 := if gt2 = 1 then t - K - 1 else K - t
    num := (t - K) * delta m2 ^ 2
    den := delta m2 ^ 2 + t * K }

/-- Stage 4 (rule R254): the division, always performed, and the select. -/
structure AtanStage4 where
  u : Int
  r2 : Int
  p2 : Int
  h2 : Int
  gap2 : Int
  v : Int
deriving DecidableEq, Repr

/-- Stage 4 (rule R254). -/
def atanStage4 (c : AtanStage3) (t : Int) : AtanStage4 :=
  let d := rdm c.num c.den
  { u := d.q, r2 := d.r, p2 := d.p, h2 := half c.den, gap2 := c.den - d.r - 1, v := if c.gt2 = 1 then d.q else t }

/-- The divisor `15·δ⁴` of stage 5 (rule R255). -/
def fifteenDelta4 (m2 : Nat) : Int := 15 * delta m2 ^ 4

/-- The dividend `n5 = 15·v·δ⁴ − 5·v³·δ² + 3·v⁵` of stage 5 (rule R255). -/
def taylorNumerator (m2 : Nat) (v : Int) : Int :=
  15 * v * delta m2 ^ 4 - 5 * v ^ 3 * delta m2 ^ 2 + 3 * v ^ 5

/-- Stage 5 (rule R255): the Taylor polynomial with one rounding. -/
structure AtanStage5 where
  pt : Int
  r5 : Int
  gap5 : Int
deriving DecidableEq, Repr

/-- Stage 5 (rule R255). -/
def atanStage5 (m2 : Nat) (v : Int) : AtanStage5 :=
  let d := rdm (taylorNumerator m2 v) (fifteenDelta4 m2)
  { pt := d.q, r5 := d.r, gap5 := fifteenDelta4 m2 - d.r - 1 }

/-- Stage 6 (rule R256): combine. -/
structure AtanStage6 where
  w : Int
  w2 : Int
  res : Int
deriving DecidableEq, Repr

/-- Stage 6 (rule R256). -/
def atanStage6 (pi2 pi6 : Int) (c : AtanStage1) (gt2 pt : Int) : AtanStage6 :=
  let w := pt + gt2 * pi6
  let w2 := if c.gt1 = 1 then pi2 - w else w
  { w := w, w2 := w2, res := c.s * w2 }

/-- All six stages of one ATAN. -/
structure AtanRun where
  s1 : AtanStage1
  s2 : AtanStage2
  s3 : AtanStage3
  s4 : AtanStage4
  s5 : AtanStage5
  s6 : AtanStage6
deriving DecidableEq, Repr

/-- Stages 1–6 for the operand `x` (rules R251–R256). -/
def atanRun (e : Env) (x : Int) : AtanRun :=
  let s1 := atanStage1 e.m2 x
  let s2 := atanStage2 e.m2 s1
  let s3 := atanStage3 e.m2 (e.p.atanK e.m2) s2.t
  let s4 := atanStage4 s3 s2.t
  let s5 := atanStage5 e.m2 s4.v
  { s1 := s1, s2 := s2, s3 := s3, s4 := s4, s5 := s5
    s6 := atanStage6 (e.p.pi2 e.m2) (e.p.pi6 e.m2) s1 s3.gt2 s5.pt }

/-- ATAN's witness (rule R258). -/
def atanValues (x : Int) (c : AtanRun) : List (Key × Int) :=
  [own .x x, own .s c.s1.s, own .a c.s1.a, own .gt1 c.s1.gt1, own .d1 c.s1.d1,
   own .t c.s2.t, own .r1 c.s2.r1, own .p1 c.s2.p1, own .h1 c.s2.h1, own .gap1 c.s2.gap1,
   own .gt2 c.s3.gt2, own .d2 c.s3.d2, own .num c.s3.num, own .den c.s3.den,
   own .u c.s4.u, own .r2 c.s4.r2, own .p2 c.s4.p2, own .h2 c.s4.h2, own .gap2 c.s4.gap2, own .v c.s4.v,
   own .pt c.s5.pt, own .r5 c.s5.r5, own .gap5 c.s5.gap5,
   own .w c.s6.w, own .w2 c.s6.w2, own .res c.s6.res]

/-- ATAN's body (rule R258). -/
def atanBody (e : Env) (a : Nat) : Except FaultCode BodyOut := do
  let x ← fxop e a
  let c := atanRun e x
  checkResult e c.s6.res
  return { results := [c.s6.res, c.s1.gt1, c.s3.gt2], values := atanValues x c }

/-- ATAN in any configuration. -/
def atanOn (p : Params) (b : Bool) (s : State) : State :=
  perform p (.atan b) s fun e => do
    let x ← operand s.opa
    atanBody e x

/-- ATAN (rule R258). -/
def execAtan (b : Bool) (s : State) : Host.Outcome State Fault Refusal := .next (atanOn Config.own b s)

end Sys2Proof.Machine
end

