-- ==== Sys2Proof/Machine/Control.lean ====
section
/-! DEFINITION. NOP and CONFIG (40_control.md rules R140, R141). Neither needs a parameter of the machine. -/

namespace Sys2Proof.Machine

/-- NOP (rule R140): counts in CCNT, no other effect; ignored under ABORT. -/
def execNop (s : State) : Host.Outcome State Fault Refusal := .next (s.unlessAborted s.count)

/-- CONFIG's requested limb counts are legal (rule R141). -/
def configLegal (cm1 cm2 : Nat) : Bool := (cm1 == 1 || cm1 == 2) && (cm2 == 1 || cm2 == 2)

/-- The state after a CONFIG with legal limb counts (rule R141): CFG and CCNT are written. -/
def State.configured (s : State) (cm1 cm2 ncols : Nat) : State :=
  { s with cfg := cfgWord cm1 cm2 ncols, ccnt := s.ccnt + 1 }

/-- CONFIG (rule R141): CFG_INVALID if `m1` or `m2` is not 1 or 2, else CFG and CCNT are written. -/
def execConfig (cm1 cm2 ncols : Nat) (s : State) : Host.Outcome State Fault Refusal :=
  .next (s.unlessAborted
    (if configLegal cm1 cm2 then s.configured cm1 cm2 ncols
     else s.raiseFault (encode (.config cm1 cm2 ncols)) .cfgInvalid))

end Sys2Proof.Machine
end

