-- ==== Sys2Proof/Machine/Decomp.lean ====
section
/-! DEFINITION. RANGE16 and DECOMP (41_decomp_range.md rules R164, R165). -/

namespace Sys2Proof.Machine

/-- RANGE16's body (rule R164): the raw element, no range check. -/
def range16Body (e : Env) (v : Nat) : Except FaultCode BodyOut :=
  .ok { results := [rangeFlag e.tables v], values := [own .v v, own .flag (rangeFlag e.tables v)] }

/-- RANGE16 in any configuration. -/
def range16On (p : Params) (b : Bool) (s : State) : State :=
  perform p (.range16 b) s fun e => do
    let v ← operand s.opa
    range16Body e v

/-- RANGE16 (rule R164). -/
def execRange16 (b : Bool) (s : State) : Host.Outcome State Fault Refusal := .next (range16On Config.own b s)

/-- The witness of DECOMP (rule R165): `v`, `s` if signed, and the `n` limbs without padding. -/
def decompValues (v : Int) (n : Nat) (u : Bool) : List (Key × Int) :=
  own .v v :: (if u then [] else [own .s (sgn v)])
  ++ (List.range n).map fun k => own (.ell k) (limb v k)

/-- DECOMP's body (rule R165): no `B`-range check, the budget is `n` limbs. -/
def decompBody (e : Env) (n : Nat) (u : Bool) (a : Nat) : Except FaultCode BodyOut := do
  let v := sval e.p.P a
  let d ← dec v n u
  return { results := d.sign :: d.limbs, values := decompValues v n u }

/-- DECOMP in any configuration. -/
def decompOn (p : Params) (b : Bool) (n : Nat) (u : Bool) (s : State) : State :=
  perform p (.decomp b n u) s fun e => do
    let a ← operand s.opa
    decompBody e n u a

/-- DECOMP (rule R165). -/
def execDecomp (b : Bool) (n : Nat) (u : Bool) (s : State) : Host.Outcome State Fault Refusal :=
  .next (decompOn Config.own b n u s)

end Sys2Proof.Machine
end

