-- ==== Sys2Proof/Machine/Division.lean ====
section
/-! DEFINITION. RDIV and DIVP (42_rounding_division.md rules R192, R194). -/

namespace Sys2Proof.Machine

/-- The witness of a rounding division of `x` by `y` (rules R192, R194): the operands, the quotient under the name
`quot`, and `r`, `p`, `h` with the site value `y − r − 1`. -/
def divisionValues (quot : Sym) (x y : Int) (d : Rdm) : List (Key × Int) :=
  [own .x x, own .y y, own quot d.q, own .r d.r, own .p d.p, own .h (half y), own .gap (y - d.r - 1)]

/-- RDIV's body (rule R192). -/
def rdivBody (e : Env) (a b : Nat) : Except FaultCode BodyOut := do
  let x ← fxop e a
  let y ← fxop e b
  raiseIf (decide (y ≤ 0)) .divisor
  let d := rdm x y
  checkResult e d.q
  return { results := [d.q, d.r], values := divisionValues .q x y d }

/-- RDIV in any configuration. -/
def rdivOn (p : Params) (b : Bool) (s : State) : State :=
  perform p (.rdiv b) s fun e => do
    let x ← operand s.opa
    let y ← operand s.opb
    rdivBody e x y

/-- RDIV (rule R192). -/
def execRdiv (b : Bool) (s : State) : Host.Outcome State Fault Refusal := .next (rdivOn Config.own b s)

/-- DIVP's body (rule R194): the rounding division of `x·δ` by `y`. -/
def divpBody (e : Env) (a b : Nat) : Except FaultCode BodyOut := do
  let x ← fxop e a
  let y ← fxop e b
  raiseIf (decide (y ≤ 0)) .divisor
  let z := dbp e.m2 x y
  checkResult e z
  return { results := [z], values := divisionValues .z x y (rdm (x * e.delta) y) }

/-- DIVP in any configuration. -/
def divpOn (p : Params) (b : Bool) (s : State) : State :=
  perform p (.divp b) s fun e => do
    let x ← operand s.opa
    let y ← operand s.opb
    divpBody e x y

/-- DIVP (rule R194). -/
def execDivp (b : Bool) (s : State) : Host.Outcome State Fault Refusal := .next (divpOn Config.own b s)

end Sys2Proof.Machine
end

