-- ==== Sys2Proof/Machine/ExpLog.lean ====
section
/-! DEFINITION. EXPR and LOG (47_exp_log.md rules R360–R363). -/

namespace Sys2Proof.Machine

/-- What `CLIP` returns (rule R361). -/
structure Clip where
  V : Int
  lt : Int
  gt : Int
  inside : Int
deriving DecidableEq, Repr

/-- `CLIP(x)` (rule R361): `EXP_FN` inside the window, a fixed value outside. -/
def clip (e : Env) (x : Int) : Clip :=
  let lt := ltFlag (e.p.expLo e.m1 e.m2) x
  let gt := gtFlag (e.p.expHi e.m1 e.m2) x
  let inside := 1 - lt - gt
  { V := if inside = 1 then e.p.expFn e.m1 e.m2 x else lt * e.p.expMin e.m1 e.m2 + gt * e.p.expMax e.m1 e.m2
    lt := lt, gt := gt, inside := inside }

/-- The value of the cell `e` (rule R362): `EXP_FN(x)` inside the window, else 0. -/
def expCell (e : Env) (x : Int) : Int := if (clip e x).inside = 1 then e.p.expFn e.m1 e.m2 x else 0

/-- EXPR's witness (rule R362), for the command and for LOG's sub-gadgets; the external exponential's part exists
only inside the window (DEDUCED: log entry 11). -/
def exprValues (e : Env) (gd : Gadget) (x : Int) : List (Key × Int) :=
  let c := clip e x
  let lo := e.p.expLo e.m1 e.m2
  let hi := e.p.expHi e.m1 e.m2
  [(⟨gd, .x⟩, x), (⟨gd, .y⟩, c.V), (⟨gd, .lt⟩, c.lt), (⟨gd, .gt⟩, c.gt), (⟨gd, .inside⟩, c.inside),
   (⟨gd, .dlo⟩, c.lt * (lo - x - 1) + (1 - c.lt) * (x - lo)),
   (⟨gd, .dhi⟩, c.gt * (x - hi - 1) + (1 - c.gt) * (hi - x)),
   (⟨gd, .e⟩, expCell e x)]
  ++ (if c.inside = 1 then
        (List.range (e.p.expWitCount e.m1 e.m2)).map fun i => (⟨gd, .ext i⟩, e.p.expWit e.m1 e.m2 x i)
      else [])

/-- EXPR's body (rule R362). -/
def exprBody (e : Env) (a : Nat) : Except FaultCode BodyOut := do
  let x ← fxop e a
  let c := clip e x
  checkResult e c.V
  return { results := [c.V, c.lt, c.gt], values := exprValues e .own x }

/-- EXPR in any configuration. -/
def exprOn (p : Params) (b : Bool) (s : State) : State :=
  perform p (.expr b) s fun e => do
    let x ← operand s.opa
    exprBody e x

/-- EXPR (rule R362). -/
def execExpr (b : Bool) (s : State) : Host.Outcome State Fault Refusal := .next (exprOn Config.own b s)

/-- `y` reaches `x`: `CLIP(y).V ≥ x` (rule R363). -/
def reaches (e : Env) (x y : Int) : Bool := decide (x ≤ (clip e y).V)

/-- The least of the `n` integers from `lo` upward that satisfies `good`. -/
def leastFrom (good : Int → Bool) (lo : Int) : Nat → Option Int
  | 0 => none
  | n + 1 => if good lo then some lo else leastFrom good (lo + 1) n

/-- The least integer of `[lo, hi]` that satisfies `good`. -/
def leastIn (good : Int → Bool) (lo hi : Int) : Option Int := leastFrom good lo (hi - lo + 1).toNat

/-- `min Y` of rule R363, `Y = { y : −B + 2 ≤ y ≤ B − 1 and CLIP(y).V ≥ x }`, `none` if `Y` is empty. Below and
above the clip window `CLIP.V` is constant, so one candidate stands for each side and only the window is scanned
(`logLeast_spec` in Laws/ExpLog.lean: this is the least element of `Y`). -/
def logLeast (e : Env) (x : Int) : Option Int :=
  let lo := -e.bound + 2
  let hi := e.bound - 1
  let wlo := max lo (e.p.expLo e.m1 e.m2)
  let whi := min hi (e.p.expHi e.m1 e.m2)
  let above := max lo (e.p.expHi e.m1 e.m2 + 1)
  if decide (lo < e.p.expLo e.m1 e.m2) && reaches e x lo then some lo
  else
    match leastIn (reaches e x) wlo whi with
    | some y => some y
    | none => if decide (above ≤ hi) && reaches e x above then some above else none

/-- LOG's witness (rule R363): its own values and its two EXPR sub-gadgets'. -/
def logValues (e : Env) (x y : Int) : List (Key × Int) :=
  let e1 := (clip e y).V
  let e0 := (clip e (y - 1)).V
  [own .x x, own .y y, own .ym1 (y - 1), own .e1 e1, own .e0 e0, own .g1 (e1 - x), own .g2 (x - e0 - 1)]
  ++ exprValues e .expY y ++ exprValues e .expYm1 (y - 1)

/-- LOG's body after `min Y` was found (rule R363). -/
def logAt (e : Env) (x y : Int) : Except FaultCode BodyOut := do
  raiseIf (reaches e x (y - 1)) .noSolution
  checkResult e (clip e y).V
  checkResult e (clip e (y - 1)).V
  return { results := [y], values := logValues e x y }

/-- LOG's body (rule R363). -/
def logBody (e : Env) (a : Nat) : Except FaultCode BodyOut := do
  let x ← fxop e a
  raiseIf (decide (x ≤ 0)) .negative
  match logLeast e x with
  | none => .error .noSolution
  | some y => logAt e x y

/-- LOG in any configuration. -/
def logOn (p : Params) (b : Bool) (s : State) : State :=
  perform p (.log b) s fun e => do
    let x ← operand s.opa
    logBody e x

/-- LOG (rule R363). -/
def execLog (b : Bool) (s : State) : Host.Outcome State Fault Refusal := .next (logOn Config.own b s)

end Sys2Proof.Machine
end

