-- ==== Sys2Proof/Machine/Rem.lean ====
section
/-! DEFINITION. REM (45_rem.md rules R290, R291), and the witness it shares with the angle reduction of 46_trig.md
rule R322. -/

namespace Sys2Proof.Machine

/-- REM's witness (rule R291), for the command and for the sub-gadget. -/
def remValues (gd : Gadget) (x y xs : Int) : List (Key × Int) :=
  let c := rm x y xs
  [(⟨gd, .x⟩, x), (⟨gd, .xs⟩, xs), (⟨gd, .bigX⟩, c.X), (⟨gd, .y⟩, y), (⟨gd, .sy⟩, c.sy), (⟨gd, .z⟩, c.z),
   (⟨gd, .sa⟩, c.sa), (⟨gd, .a⟩, c.a), (⟨gd, .g⟩, mag y - mag c.z - 1)]

/-- REM's body (rule R291): the quotient has no range check. -/
def remBody (e : Env) (a b c : Nat) : Except FaultCode BodyOut := do
  let x ← fxop e a
  let y ← fxop e b
  let xs ← fxop e c
  raiseIf (decide (y = 0)) .divisor
  raiseIf (decide (xs < 1)) .negative
  return { results := [(rm x y xs).z, (rm x y xs).q], values := remValues .own x y xs }

/-- REM in any configuration. -/
def remOn (p : Params) (b : Bool) (s : State) : State :=
  perform p (.rem b) s fun e => do
    let x ← operand s.opa
    let y ← operand s.opb
    let xs ← operand s.opc
    remBody e x y xs

/-- REM (rule R291). -/
def execRem (b : Bool) (s : State) : Host.Outcome State Fault Refusal := .next (remOn Config.own b s)

end Sys2Proof.Machine
end

