-- ==== Sys2Proof/Machine/Sqrt.lean ====
section
/-! DEFINITION. SQRT and SQRTF (43_sqrt.md rules R222, R223). -/

namespace Sys2Proof.Machine

/-- `a3` (rule R222): the side of the half-way point that `r` claims. -/
def roundingSide (c : Sq) : Int :=
  if c.r = 1 then c.N - c.f * c.f - c.f - 1 else c.f - (c.N - c.f * c.f)

/-- SQRT's witness (rule R222). -/
def sqrtValues (x : Int) (c : Sq) : List (Key × Int) :=
  [own .x x, own .y c.y, own .r c.r, own .a1 (c.N - c.f * c.f), own .a2 ((c.f + 1) * (c.f + 1) - c.N - 1),
   own .a3 (roundingSide c)]

/-- SQRT's body (rule R222). -/
def sqrtBody (e : Env) (a : Nat) : Except FaultCode BodyOut := do
  let x ← fxop e a
  raiseIf (decide (x < 0)) .negative
  let c := sq e.m2 x
  return { results := [c.y, c.r], values := sqrtValues x c }

/-- SQRT in any configuration. -/
def sqrtOn (p : Params) (b : Bool) (s : State) : State :=
  perform p (.sqrt b) s fun e => do
    let x ← operand s.opa
    sqrtBody e x

/-- SQRT (rule R222). -/
def execSqrt (b : Bool) (s : State) : Host.Outcome State Fault Refusal := .next (sqrtOn Config.own b s)

/-- SQRTF's witness (rule R223): `y = f`. -/
def sqrtfValues (x : Int) (c : Sq) : List (Key × Int) :=
  [own .x x, own .y c.f, own .a1 (c.N - c.f * c.f), own .a2 ((c.f + 1) * (c.f + 1) - c.N - 1)]

/-- SQRTF's body (rule R223). -/
def sqrtfBody (e : Env) (a : Nat) : Except FaultCode BodyOut := do
  let x ← fxop e a
  raiseIf (decide (x < 0)) .negative
  let c := sq e.m2 x
  return { results := [c.f], values := sqrtfValues x c }

/-- SQRTF in any configuration. -/
def sqrtfOn (p : Params) (b : Bool) (s : State) : State :=
  perform p (.sqrtf b) s fun e => do
    let x ← operand s.opa
    sqrtfBody e x

/-- SQRTF (rule R223). -/
def execSqrtf (b : Bool) (s : State) : Host.Outcome State Fault Refusal := .next (sqrtfOn Config.own b s)

end Sys2Proof.Machine
end

