-- ==== Sys2Proof/Machine/Trig.lean ====
section
/-! DEFINITION. TLUT, SIN, COS and TAN (46_trig.md rules R310–R323). -/

namespace Sys2Proof.Machine

/-- A trig lookup `TL(j, k)` (rule R311), for `k` in `[0, 65536)`. -/
def trigLookup (e : Env) (j k : Nat) : Int × Int := e.tables.trig e.p e.m2 j k

/-- TLUT's body (rule R312): the raw element; RANGE if it is no 16-bit value. -/
def tlutBody (e : Env) (j : Nat) (k : Nat) : Except FaultCode BodyOut := do
  raiseIf (decide (65536 ≤ k)) .range
  return { results := [(trigLookup e j k).1, (trigLookup e j k).2]
           values := [own .k k, own .tS (trigLookup e j k).1, own .tC (trigLookup e j k).2] }

/-- TLUT in any configuration. -/
def tlutOn (p : Params) (b : Bool) (j : Nat) (s : State) : State :=
  perform p (.tlut b j) s fun e => do
    let k ← operand s.opa
    tlutBody e j k

/-- TLUT (rule R312). -/
def execTlut (b : Bool) (j : Nat) (s : State) : Host.Outcome State Fault Refusal := .next (tlutOn Config.own b j s)

/-- The sign and the non-negative angle of `ANG(x)` (rule R313). -/
structure Angle where
  s : Int
  g : Int
deriving DecidableEq, Repr

/-- `ANG(x)` (rule R313): with `m1 = 1` sign and magnitude, with `m1 = 2` the reduction modulo `TWO_PI_Y`. -/
def ang (e : Env) (x : Int) : Angle :=
  if e.m1 = 1 then { s := sgn x, g := mag x }
  else { s := 1, g := (rm x (e.p.twoPiY e.m2) (e.p.xScaler e.m2)).z }

/-- The angle limb `θ_j = (g div 2^(16j)) mod 2^16` (rule R313). -/
def theta (c : Angle) (j : Nat) : Nat := limb c.g j

/-- The sine entry `S_j` of an angle (rule R314). -/
def sinEntry (e : Env) (c : Angle) (j : Nat) : Int := (trigLookup e j (theta c j)).1

/-- The cosine entry `C_j` of an angle (rule R314). -/
def cosEntry (e : Env) (c : Angle) (j : Nat) : Int := (trigLookup e j (theta c j)).2

/-- The raw angle sums of `SCR(θ)` (rule R314). -/
structure RawSums where
  sab : Int
  cab : Int
  sr : Int
  cr : Int
deriving DecidableEq, Repr

/-- `SCR(θ)` (rule R314): two limbs with `m2 = 1`, three with `m2 = 2`. -/
def scr (e : Env) (c : Angle) : RawSums :=
  let sab := sinEntry e c 0 * cosEntry e c 1 + cosEntry e c 0 * sinEntry e c 1
  let cab := cosEntry e c 0 * cosEntry e c 1 - sinEntry e c 0 * sinEntry e c 1
  if e.m2 = 1 then { sab := sab, cab := cab, sr := sab, cr := cab }
  else
    { sab := sab, cab := cab
      sr := cosEntry e c 2 * sab + sinEntry e c 2 * cab
      cr := cosEntry e c 2 * cab - sinEntry e c 2 * sab }

/-- The witness that SIN, COS and TAN share (rules R320, R321, R323), with the REM sub-gadget's for `m1 = 2`
(rule R322). -/
def angleValues (e : Env) (x : Int) : List (Key × Int) :=
  let c := ang e x
  let sums := scr e c
  [own .x x, own .s c.s]
  ++ ((List.range (angleLimbs e.m2)).map fun j => own (.theta j) (theta c j))
  ++ ((List.range (angleLimbs e.m2)).map fun j => own (.sj j) (sinEntry e c j))
  ++ ((List.range (angleLimbs e.m2)).map fun j => own (.cj j) (cosEntry e c j))
  ++ [own .sab sums.sab, own .cab sums.cab, own .sr sums.sr, own .cr sums.cr]
  ++ (if e.m1 = 2 then remValues .rem x (e.p.twoPiY e.m2) (e.p.xScaler e.m2) else [])

/-- The witness of the rescale by `D` (rules R315, R320). -/
def rescaleValues (m2 : Nat) (d : Rdm) (res : Int) : List (Key × Int) :=
  [own .q d.q, own .r d.r, own .gap (rescaleD m2 - d.r - 1), own .res res]

/-- SIN's body (rule R320). -/
def sinBody (e : Env) (a : Nat) : Except FaultCode BodyOut := do
  let x ← fxop e a
  let c := ang e x
  let d := rdm (scr e c).sr (rescaleD e.m2)
  let res := c.s * d.q
  checkResult e res
  return { results := [res], values := angleValues e x ++ rescaleValues e.m2 d res }

/-- SIN in any configuration. -/
def sinOn (p : Params) (b : Bool) (s : State) : State :=
  perform p (.sin b) s fun e => do
    let x ← operand s.opa
    sinBody e x

/-- SIN (rule R320). -/
def execSin (b : Bool) (s : State) : Host.Outcome State Fault Refusal := .next (sinOn Config.own b s)

/-- COS's body (rule R321): the sign is not applied. -/
def cosBody (e : Env) (a : Nat) : Except FaultCode BodyOut := do
  let x ← fxop e a
  let d := rdm (scr e (ang e x)).cr (rescaleD e.m2)
  return { results := [d.q], values := angleValues e x ++ rescaleValues e.m2 d d.q }

/-- COS in any configuration. -/
def cosOn (p : Params) (b : Bool) (s : State) : State :=
  perform p (.cos b) s fun e => do
    let x ← operand s.opa
    cosBody e x

/-- COS (rule R321). -/
def execCos (b : Bool) (s : State) : Host.Outcome State Fault Refusal := .next (cosOn Config.own b s)

/-- TAN's division witness (rule R323): `c` has limbs and no cell of its own. -/
def tanValues (σ c : Int) (d : Rdm) (res : Int) : List (Key × Int) :=
  [own .sigma σ, own .c c, own .q d.q, own .r d.r, own .p d.p, own .h (half c), own .gap (c - d.r - 1), own .res res]

/-- TAN's body (rule R323): the signed division of the raw sums. -/
def tanBody (e : Env) (a : Nat) : Except FaultCode BodyOut := do
  let x ← fxop e a
  let g := ang e x
  let sums := scr e g
  raiseIf (decide (sums.cr = 0)) .divisor
  let σ := sgn sums.cr
  let c := mag sums.cr
  let d := rdm (σ * e.delta * sums.sr) c
  let res := g.s * d.q
  checkResult e res
  return { results := [res], values := angleValues e x ++ tanValues σ c d res }

/-- TAN in any configuration. -/
def tanOn (p : Params) (b : Bool) (s : State) : State :=
  perform p (.tan b) s fun e => do
    let x ← operand s.opa
    tanBody e x

/-- TAN (rule R323). -/
def execTan (b : Bool) (s : State) : Host.Outcome State Fault Refusal := .next (tanOn Config.own b s)

end Sys2Proof.Machine
end

