-- ==== Sys2Proof/Machine/Dispatch.lean ====
section
/-! DEFINITION. One arm per command (30_encoding.md rule R104). -/

namespace Sys2Proof.Machine

def exec (i : Instr) (s : State) : Host.Outcome State Fault Refusal :=
  match i with
  | .nop => Sys2Proof.Machine.execNop s
  | .config cm1 cm2 ncols => Sys2Proof.Machine.execConfig cm1 cm2 ncols s
  | .range16 b => Sys2Proof.Machine.execRange16 b s
  | .decomp b n u => Sys2Proof.Machine.execDecomp b n u s
  | .rdiv b => Sys2Proof.Machine.execRdiv b s
  | .divp b => Sys2Proof.Machine.execDivp b s
  | .sqrt b => Sys2Proof.Machine.execSqrt b s
  | .sqrtf b => Sys2Proof.Machine.execSqrtf b s
  | .atan b => Sys2Proof.Machine.execAtan b s
  | .rem b => Sys2Proof.Machine.execRem b s
  | .tlut b j => Sys2Proof.Machine.execTlut b j s
  | .sin b => Sys2Proof.Machine.execSin b s
  | .cos b => Sys2Proof.Machine.execCos b s
  | .tan b => Sys2Proof.Machine.execTan b s
  | .expr b => Sys2Proof.Machine.execExpr b s
  | .log b => Sys2Proof.Machine.execLog b s

end Sys2Proof.Machine
end

