-- ==== Sys2Proof/Machine/Host.lean ====
section
/-! DEFINITION. The host's actions on the unit (10_state.md rules R30–R37; 30_encoding.md rules R120, R122): writes,
reads, and the CMD write that performs a command. -/

namespace Sys2Proof.Machine

/-- The stored word of a host write of an integer to a u32 register: modulo 2^32 (rule R120). -/
def wordOf (value : Int) : Word := BitVec.ofInt 32 value

/-- A CMD write of the word `w` (rule R33): ignored under ABORT, ILLEGAL if it does not decode (30_encoding.md
rule R106), else the command. -/
def performWord (w : Word) (s : State) : Host.Outcome State Fault Refusal :=
  match decode w with
  | .ok i => exec i s
  | .error _ => .next (s.unlessAborted (s.raiseFault w .illegal))

/-- The state with an operand register assigned. -/
def State.setF (s : State) (reg : FReg) (v : Nat) : State :=
  match reg with
  | .opa => { s with opa := some v }
  | .opb => { s with opb := some v }
  | .opc => { s with opc := some v }

/-- `wr <reg>, <int>` to the register at `addr` (rule R120): F registers store `toF`, ROW stores modulo 2^32, CMD
performs. A write to a register marked R is refused (rule R32). Rule R32 and 93_implementation_defined.md section 2 name
only READS of an unlisted address; that a write to one is refused is the model's (DESIGN CHOICE: log entry 23). -/
def hostWrite (p : Params) (addr : Nat) (value : Int) (s : State) : Host.Outcome State Fault Refusal :=
  match Reg.ofAddr addr with
  | none => .refused (.hostWriteUnmapped addr)
  | some .cmd => performWord (wordOf value) s
  | some .row => .next { s with row := wordOf value }
  | some .opa => .next (s.setF .opa (toF p.P value))
  | some .opb => .next (s.setF .opb (toF p.P value))
  | some .opc => .next (s.setF .opc (toF p.P value))
  | some .status => .refused (.hostWriteReadOnly addr)
  | some .cfg => .refused (.hostWriteReadOnly addr)
  | some .resn => .refused (.hostWriteReadOnly addr)
  | some .fcmd => .refused (.hostWriteReadOnly addr)
  | some .treq => .refused (.hostWriteReadOnly addr)
  | some .ccnt => .refused (.hostWriteReadOnly addr)
  | some (.res _) => .refused (.hostWriteReadOnly addr)

/-- The host observes a value. A read has no side effect on the unit (20_memory.md rule R81). -/
def State.observe (s : State) (v : HostValue) : State := { s with observed := s.observed ++ [v] }

/-- `rd <reg>` (rule R120). -/
def hostRead (addr : Nat) (s : State) : Host.Outcome State Fault Refusal :=
  match Reg.ofAddr addr with
  | none => .refused (.hostReadUnmapped addr)
  | some .cmd => .refused .hostReadCmd
  | some r =>
    match s.readReg r with
    | some v => .next (s.observe v)
    | none => .fault (.hostReadUnassigned addr)

/-- A host read of a trace cell (20_memory.md rule R76). Refusing a cell outside the grid is DEDUCED: log entry 5. -/
def hostReadCell (p : Params) (a : CellAddr) (s : State) : Host.Outcome State Fault Refusal :=
  if inGrid p a then
    match Trace.read s.trace a with
    | some v => .next (s.observe (.elem v))
    | none => .fault (.hostReadUnassignedCell a)
  else .refused (.hostCellOutside a)

/-- The integer `fx` writes: `NEAREST(num/den · δ)` (00_scope.md rule R11, 30_encoding.md rule R122). -/
def fxInt (m2 : Nat) (num : Int) (den : Nat) : Int := rnd (num * delta m2) den

/-- `fx <F-reg>, num/den` (rule R122): `wr` of that integer, with `δ` from the CFG in effect. -/
def hostFx (p : Params) (reg : FReg) (num : Int) (den : Nat) (s : State) : Host.Outcome State Fault Refusal :=
  if den = 0 then .refused .fxNotReal
  else if s.cfgValid then hostWrite p reg.addr (fxInt s.m2 num den) s
  else .refused .fxWithoutConfig

/-- `cp <F-reg>, <reg>` (rule R122): `rd`, then `wr` of the value read; refused if there is none. -/
def hostCp (p : Params) (reg : FReg) (addr : Nat) (s : State) : Host.Outcome State Fault Refusal :=
  match Reg.ofAddr addr with
  | none => .refused (.hostReadUnmapped addr)
  | some .cmd => .refused .hostReadCmd
  | some r =>
    match s.readReg r with
    | some v => hostWrite p reg.addr v.toInt (s.observe v)
    | none => .refused (.cpNoValue addr)

/-- One line of the host program, or a reset (rules R31, R120, R122, R441). -/
def hostEvent (p : Params) (h : HostEvent) (s : State) : Host.Outcome State Fault Refusal :=
  match h with
  | .write addr value => hostWrite p addr value s
  | .read addr => hostRead addr s
  | .readCell a => hostReadCell p a s
  | .writeCell a _ => .refused (.hostCellWrite a)
  | .fx reg num den => hostFx p reg num den s
  | .cp reg addr => hostCp p reg addr s
  | .wait => .next s
  | .reset => .next s.resetUnit

end Sys2Proof.Machine
end

