-- ==== Sys2Proof/Machine/Step.lean ====
section
/-! DEFINITION. One step: the next line of the host program (10_state.md rules R30, R31). There is no program
counter and nothing is fetched: the unit performs a command each time the host writes CMD. That the host's program is a
field of the state is the model's (DESIGN CHOICE: log entry 2). -/

namespace Sys2Proof.Machine

/-- The state with its host program advanced past the next line. -/
def State.afterLine (s : State) (rest : List HostEvent) : State := { s with host := rest }

/-- One step in any configuration. With no line left the unit is idle and keeps all state (60_exceptions.md
rule R414, 70_reset_and_hazards.md rule R443). -/
def stepOn (p : Params) (s : State) : Host.Outcome State Fault Refusal :=
  match s.host with
  | [] => .next s
  | h :: rest => hostEvent p h (s.afterLine rest)

/-- One step of this machine. -/
def step (s : State) : Host.Outcome State Fault Refusal := stepOn Config.own s

/-- `s` with a CMD write of the command word `w` (its `nbits` low bits) as the next line of the host program. -/
def State.withFetchWord (s : State) (nbits w : Nat) : State :=
  { s with host := .write 0 ((w % 2 ^ min nbits 32 : Nat) : Int) :: s.host }

end Sys2Proof.Machine
end

