-- ==== Sys2Proof/Machine/Constraints.lean ====
section
/-! DEFINITION. The constraints a command registers when it builds (10_state.md rule R46): the "Constraints"
paragraph of each command rule, as a predicate over an assignment of the command's names. Identities hold in F,
that is modulo `P`; a lookup asks that the field element is in its table. How the identities read the cells is
DEDUCED: log entry 16.

Nothing here changes the machine's state: a CSLOG record stands for these predicates (`registered`), and the unit
neither checks nor reads them. -/

namespace Sys2Proof.Machine

/-- An assignment of a command's names, each element by any representative. -/
abbrev Assignment := Name → Int

/-- The value cell of a name. -/
def Assignment.val (w : Assignment) (g : Gadget) (name : Sym) : Int := w ⟨⟨g, name⟩, .whole⟩

/-- A limb cell of a name. -/
def Assignment.lim (w : Assignment) (g : Gadget) (name : Sym) (k : Nat) : Int := w ⟨⟨g, name⟩, .limb k⟩

/-- Equality in F. -/
def FEq (P : Nat) (a b : Int) : Prop := toF P a = toF P b

/-- A range lookup succeeds (rules R41, R163). -/
def InRange (P : Nat) (v : Int) : Prop := toF P v < 65536

/-- A value is 0 or 1 in F. -/
def IsBit (P : Nat) (v : Int) : Prop := FEq P (v * (v - 1)) 0

/-- A value is −1 or 1 in F (C-DEC-2, rule R161). -/
def IsSign (P : Nat) (s : Int) : Prop := FEq P ((s - 1) * (s + 1)) 0

/-- The unsigned decomposition of `v` into the limbs `l 0 … l (n−1)`: C-DEC-1 with `s = 1`, and C-DEC-3. -/
def DecUnsigned (P n : Nat) (l : Nat → Int) (v : Int) : Prop :=
  FEq P v (limbSum l n) ∧ ∀ k, k < n → InRange P (l k)

/-- The signed decomposition: C-DEC-1, C-DEC-2, C-DEC-3 (rule R161). -/
def DecSigned (P n : Nat) (l : Nat → Int) (s v : Int) : Prop :=
  FEq P v (s * limbSum l n) ∧ IsSign P s ∧ ∀ k, k < n → InRange P (l k)

/-- The trig lookup gate `(k, S, C) ∈ TRIG_j` (46_trig.md rule R311). -/
def TrigGate (p : Params) (m2 j : Nat) (k S C : Int) : Prop :=
  ∃ i : Nat, i < 65536 ∧ FEq p.P k i ∧ FEq p.P S (p.trigTab m2 j i).1 ∧ FEq p.P C (p.trigTab m2 j i).2

/-- The signed value of an assigned element, as the OPEN predicates read it. -/
def signedOf (P : Nat) (v : Int) : Int := sval P (toF P v)

/-- RANGE16 (rule R164). -/
def range16Gates (p : Params) (w : Assignment) : Prop :=
  IsBit p.P (w.val .own .flag) ∧ (FEq p.P (w.val .own .flag) 1 → InRange p.P (w.val .own .v))

/-- DECOMP (rule R165). -/
def decompGates (p : Params) (n : Nat) (u : Bool) (w : Assignment) : Prop :=
  if u then DecUnsigned p.P n (fun k => w.val .own (.ell k)) (w.val .own .v)
  else DecSigned p.P n (fun k => w.val .own (.ell k)) (w.val .own .s) (w.val .own .v)

/-- C-RD-1 … C-RD-4 (rule R192) for the dividend `x` and the quotient named `quot`; `n` gives the site budgets. -/
def divisionGates (p : Params) (n : Sym → Nat) (quot : Sym) (x : Int) (w : Assignment) : Prop :=
  let y := w.val .own .y
  let q := w.val .own quot
  let r := w.val .own .r
  let pp := w.val .own .p
  let h := w.val .own .h
  FEq p.P (2 * x + y - pp) (2 * q * y + 2 * r)
  ∧ DecUnsigned p.P (n .r) (w.lim .own .r) r
  ∧ DecUnsigned p.P (n .gap) (w.lim .own .gap) (y - r - 1)
  ∧ IsBit p.P pp ∧ FEq p.P y (2 * h + pp) ∧ DecUnsigned p.P (n .h) (w.lim .own .h) h

/-- SQRT: C-SQ-1 … C-SQ-5 and the three decompositions (rule R222). -/
def sqrtGates (p : Params) (m1 m2 : Nat) (w : Assignment) : Prop :=
  let x := w.val .own .x
  let r := w.val .own .r
  let f := w.val .own .y - r
  let N := x * delta m2
  IsBit p.P r
  ∧ FEq p.P (w.val .own .a1) (N - f * f)
  ∧ FEq p.P (w.val .own .a2) ((f + 1) * (f + 1) - N - 1)
  ∧ FEq p.P (w.val .own .a3) (r * (N - f * f - f - 1) + (1 - r) * (f - N + f * f))
  ∧ DecUnsigned p.P (m1 + m2) (w.lim .own .x) x
  ∧ DecUnsigned p.P (m1 + m2) (w.lim .own .a1) (w.val .own .a1)
  ∧ DecUnsigned p.P (m1 + m2) (w.lim .own .a2) (w.val .own .a2)
  ∧ DecUnsigned p.P (m1 + m2) (w.lim .own .a3) (w.val .own .a3)

/-- SQRTF: C-SF-1 … C-SF-3 and the two decompositions (rule R223). -/
def sqrtfGates (p : Params) (m1 m2 : Nat) (w : Assignment) : Prop :=
  let x := w.val .own .x
  let y := w.val .own .y
  FEq p.P (w.val .own .a1) (x * delta m2 - y * y)
  ∧ FEq p.P (w.val .own .a2) ((y + 1) * (y + 1) - x * delta m2 - 1)
  ∧ DecUnsigned p.P (m1 + m2) (w.lim .own .x) x
  ∧ DecUnsigned p.P (m1 + m2) (w.lim .own .a1) (w.val .own .a1)
  ∧ DecUnsigned p.P (m1 + m2) (w.lim .own .a2) (w.val .own .a2)

/-- ATAN's gate G1 (rule R258, stage 1). -/
def atanG1 (p : Params) (m1 m2 : Nat) (w : Assignment) : Prop :=
  let a := w.val .own .a
  let g := w.val .own .gt1
  DecSigned p.P (m1 + m2) (w.lim .own .x) (w.val .own .s) (w.val .own .x)
  ∧ IsBit p.P g
  ∧ FEq p.P (w.val .own .d1) (g * (a - delta m2 - 1) + (1 - g) * (delta m2 - a))
  ∧ DecUnsigned p.P (p.limbs .atan .d1 m1 m2) (w.lim .own .d1) (w.val .own .d1)

/-- ATAN's gate G2 (rule R258, stage 2); its decompositions are selected by `gt1`. -/
def atanG2 (p : Params) (m1 m2 : Nat) (w : Assignment) : Prop :=
  let a := w.val .own .a
  let g := w.val .own .gt1
  let t := w.val .own .t
  let r := w.val .own .r1
  let pp := w.val .own .p1
  let h := w.val .own .h1
  FEq p.P (g * (2 * delta m2 ^ 2 + a - pp - 2 * t * a - 2 * r)) 0
  ∧ FEq p.P (g * (a - 2 * h - pp)) 0
  ∧ IsBit p.P pp
  ∧ FEq p.P ((1 - g) * (t - a)) 0
  ∧ (FEq p.P g 1 →
      DecUnsigned p.P (p.limbs .atan .r1 m1 m2) (w.lim .own .r1) r
      ∧ DecUnsigned p.P (p.limbs .atan .gap1 m1 m2) (w.lim .own .gap1) (a - r - 1)
      ∧ DecUnsigned p.P (p.limbs .atan .h1 m1 m2) (w.lim .own .h1) h)

/-- ATAN's gate G3 (rule R258, stage 3). -/
def atanG3 (p : Params) (m1 m2 : Nat) (w : Assignment) : Prop :=
  let g := w.val .own .gt2
  let t := w.val .own .t
  let K := p.atanK m2
  IsBit p.P g
  ∧ FEq p.P (w.val .own .d2) (g * (t - K - 1) + (1 - g) * (K - t))
  ∧ DecUnsigned p.P (p.limbs .atan .d2 m1 m2) (w.lim .own .d2) (w.val .own .d2)
  ∧ FEq p.P (w.val .own .num) ((t - K) * delta m2 ^ 2)
  ∧ FEq p.P (w.val .own .den) (delta m2 ^ 2 + t * K)

/-- ATAN's gate G4 (rule R258, stage 4): the OPEN predicate of rule R259 on the signed values of the cells. -/
def atanG4 (p : Params) (w : Assignment) : Prop :=
  let v := fun name => signedOf p.P (w.val .own name)
  p.checkAtanRow4 (v .num) (v .den) (v .u) (v .r2) (v .p2) (v .h2) (v .gt2) (v .t) (v .v) = true

/-- ATAN's gate G5 (rule R258, stage 5). -/
def atanG5 (p : Params) (m1 m2 : Nat) (w : Assignment) : Prop :=
  let r := w.val .own .r5
  FEq p.P (2 * taylorNumerator m2 (w.val .own .v) + fifteenDelta4 m2)
    (2 * w.val .own .pt * fifteenDelta4 m2 + 2 * r)
  ∧ DecUnsigned p.P (p.limbs .atan .r5 m1 m2) (w.lim .own .r5) r
  ∧ DecUnsigned p.P (p.limbs .atan .gap5 m1 m2) (w.lim .own .gap5) (fifteenDelta4 m2 - r - 1)

/-- ATAN's gate G6 (rule R258, stage 6). -/
def atanG6 (p : Params) (m2 : Nat) (w : Assignment) : Prop :=
  let g := w.val .own .gt1
  FEq p.P (w.val .own .w) (w.val .own .pt + w.val .own .gt2 * p.pi6 m2)
  ∧ FEq p.P (w.val .own .w2) (g * (p.pi2 m2 - w.val .own .w) + (1 - g) * w.val .own .w)
  ∧ FEq p.P (w.val .own .res) (w.val .own .s * w.val .own .w2)

/-- ATAN's six gates (rule R258). -/
def atanGates (p : Params) (m1 m2 : Nat) (w : Assignment) : Prop :=
  atanG1 p m1 m2 w ∧ atanG2 p m1 m2 w ∧ atanG3 p m1 m2 w ∧ atanG4 p w ∧ atanG5 p m1 m2 w ∧ atanG6 p m2 w

/-- REM: C-RM-1 … C-RM-6 (rule R291) with the divisor `y` and the pre-scale `xs`, which are the cells of the command
and the constants of rule R322 in the sub-gadget. -/
def remGates (p : Params) (gd : Gadget) (m : Nat) (y xs : Int) (w : Assignment) : Prop :=
  let sy := w.val gd .sy
  FEq p.P (w.val gd .bigX) (w.val gd .x * xs)
  ∧ FEq p.P (w.val gd .bigX) (w.val gd .sa * w.val gd .a * y + w.val gd .z)
  ∧ DecSigned p.P m (w.lim gd .y) sy y
  ∧ (FEq p.P (w.val gd .z) (sy * limbSum (w.lim gd .z) m) ∧ ∀ k, k < m → InRange p.P (w.lim gd .z k))
  ∧ DecUnsigned p.P (2 * m) (w.lim gd .a) (w.val gd .a)
  ∧ IsSign p.P (w.val gd .sa)
  ∧ FEq p.P (w.val gd .g) (limbSum (w.lim gd .y) m - limbSum (w.lim gd .z) m - 1)
  ∧ DecUnsigned p.P m (w.lim gd .g) (w.val gd .g)

/-- TLUT (rule R312). -/
def tlutGates (p : Params) (m2 j : Nat) (w : Assignment) : Prop :=
  TrigGate p m2 j (w.val .own .k) (w.val .own .tS) (w.val .own .tC)

/-- C-TR-1 with `m1 = 1` (rule R320). -/
def angleDirect (p : Params) (m2 : Nat) (w : Assignment) : Prop :=
  FEq p.P (w.val .own .x) (w.val .own .s * limbSum (fun j => w.val .own (.theta j)) (angleLimbs m2))
  ∧ IsSign p.P (w.val .own .s)

/-- C-TR-1 with `m1 = 2` (rules R320, R322): the REM sub-gadget on a copy of `x`, and the copied limbs. The rules name
the sub-gadget's dividend, divisor and pre-scale; that identities tie its cells `x`, `y`, `xs` to the command's `x` and
to the constants TWO_PI_Y, X_SCALER is the model's reading (DEDUCED: log entry 16). -/
def angleReduced (p : Params) (m1 m2 : Nat) (w : Assignment) : Prop :=
  FEq p.P (w.val .rem .x) (w.val .own .x)
  ∧ FEq p.P (w.val .rem .y) (p.twoPiY m2) ∧ FEq p.P (w.val .rem .xs) (p.xScaler m2)
  ∧ remGates p .rem (m1 + m2) (p.twoPiY m2) (p.xScaler m2) w
  ∧ (∀ j, j < angleLimbs m2 → FEq p.P (w.val .own (.theta j)) (w.lim .rem .z j))
  ∧ FEq p.P (w.val .own .s) 1

/-- C-TR-1 … C-TR-3 (rule R320), shared by SIN, COS and TAN. -/
def angleGates (p : Params) (m1 m2 : Nat) (w : Assignment) : Prop :=
  let S := fun j => w.val .own (.sj j)
  let C := fun j => w.val .own (.cj j)
  let sab := w.val .own .sab
  let cab := w.val .own .cab
  (if m1 = 1 then angleDirect p m2 w else angleReduced p m1 m2 w)
  ∧ (∀ j, j < angleLimbs m2 → TrigGate p m2 j (w.val .own (.theta j)) (S j) (C j))
  ∧ FEq p.P sab (S 0 * C 1 + C 0 * S 1)
  ∧ FEq p.P cab (C 0 * C 1 - S 0 * S 1)
  ∧ FEq p.P (w.val .own .sr) (if m2 = 1 then sab else C 2 * sab + S 2 * cab)
  ∧ FEq p.P (w.val .own .cr) (if m2 = 1 then cab else C 2 * cab - S 2 * sab)

/-- C-TR-4 for the raw sum `n` (rules R320, R321): the rescale by `D`, whose parity bit is the constant 0. -/
def rescaleGates (p : Params) (op : Op) (m1 m2 : Nat) (n : Int) (w : Assignment) : Prop :=
  let r := w.val .own .r
  FEq p.P (2 * n + rescaleD m2) (2 * w.val .own .q * rescaleD m2 + 2 * r)
  ∧ DecUnsigned p.P (p.limbs op .r m1 m2) (w.lim .own .r) r
  ∧ DecUnsigned p.P (p.limbs op .gap m1 m2) (w.lim .own .gap) (rescaleD m2 - r - 1)

/-- SIN: C-TR-1 … C-TR-5 (rule R320). -/
def sinGates (p : Params) (m1 m2 : Nat) (w : Assignment) : Prop :=
  angleGates p m1 m2 w ∧ rescaleGates p .sin m1 m2 (w.val .own .sr) w
  ∧ FEq p.P (w.val .own .res) (w.val .own .s * w.val .own .q)

/-- COS (rule R321). -/
def cosGates (p : Params) (m1 m2 : Nat) (w : Assignment) : Prop :=
  angleGates p m1 m2 w ∧ rescaleGates p .cos m1 m2 (w.val .own .cr) w
  ∧ FEq p.P (w.val .own .res) (w.val .own .q)

/-- TAN's division gate for `m2 = 1` (rule R323); `c` is the value of its limbs. -/
def tanDivisionGate (p : Params) (m1 m2 : Nat) (w : Assignment) : Prop :=
  let n := fun name => p.limbs .tan name m1 m2
  let c := limbSum (w.lim .own .c) (n .c)
  let r := w.val .own .r
  let pp := w.val .own .p
  let h := w.val .own .h
  DecUnsigned p.P (n .c) (w.lim .own .c) c
  ∧ FEq p.P (w.val .own .cr) (w.val .own .sigma * c) ∧ IsSign p.P (w.val .own .sigma)
  ∧ FEq p.P (2 * w.val .own .sigma * delta m2 * w.val .own .sr + c - pp) (2 * w.val .own .q * c + 2 * r)
  ∧ DecUnsigned p.P (n .r) (w.lim .own .r) r
  ∧ DecUnsigned p.P (n .gap) (w.lim .own .gap) (c - r - 1)
  ∧ IsBit p.P pp ∧ FEq p.P c (2 * h + pp) ∧ DecUnsigned p.P (n .h) (w.lim .own .h) h
  ∧ FEq p.P (w.val .own .res) (w.val .own .s * w.val .own .q)

/-- TAN's division gate for `m2 = 2`: the OPEN predicate of rule R324 on the signed values of the cells. -/
def tanCheckGate (p : Params) (m1 m2 : Nat) (w : Assignment) : Prop :=
  let v := fun name => signedOf p.P (w.val .own name)
  let c := signedOf p.P (limbSum (w.lim .own .c) (p.limbs .tan .c m1 m2))
  p.checkTanM2 (v .sr) (v .cr) (v .sigma) c (v .q) (v .r) (v .p) (v .h) (v .s) (v .res) = true

/-- TAN (rule R323). -/
def tanGates (p : Params) (m1 m2 : Nat) (w : Assignment) : Prop :=
  angleGates p m1 m2 w ∧ (if m2 = 1 then tanDivisionGate p m1 m2 w else tanCheckGate p m1 m2 w)

/-- EXPR: C-EX-1 … C-EX-4 (rule R362), for the command and for LOG's sub-gadgets. -/
def exprGates (p : Params) (gd : Gadget) (m1 m2 : Nat) (w : Assignment) : Prop :=
  let x := w.val gd .x
  let lt := w.val gd .lt
  let gt := w.val gd .gt
  let inside := w.val gd .inside
  let lo := p.expLo m1 m2
  let hi := p.expHi m1 m2
  IsBit p.P lt ∧ IsBit p.P gt ∧ FEq p.P inside (1 - lt - gt)
  ∧ FEq p.P (w.val gd .dlo) (lt * (lo - x - 1) + (1 - lt) * (x - lo))
  ∧ DecUnsigned p.P (p.limbs .expr .dlo m1 m2) (w.lim gd .dlo) (w.val gd .dlo)
  ∧ FEq p.P (w.val gd .dhi) (gt * (x - hi - 1) + (1 - gt) * (hi - x))
  ∧ DecUnsigned p.P (p.limbs .expr .dhi m1 m2) (w.lim gd .dhi) (w.val gd .dhi)
  ∧ FEq p.P (inside * (w.val gd .y - w.val gd .e)
      + (1 - inside) * (lt * p.expMin m1 m2 + gt * p.expMax m1 m2 - w.val gd .y)) 0
  ∧ (FEq p.P inside 1 → p.expc m1 m2 (signedOf p.P x) (signedOf p.P (w.val gd .e)) = true)

/-- LOG: C-LG-1 … C-LG-3 (rule R363). The rule leaves open whether an identity ties the witness cell `y − 1` to `y`;
the identity `ym1 = y − 1` is the model's choice, by the cell's name (DEDUCED: log entry 16). -/
def logGates (p : Params) (m1 m2 : Nat) (w : Assignment) : Prop :=
  exprGates p .expY m1 m2 w ∧ exprGates p .expYm1 m1 m2 w
  ∧ FEq p.P (w.val .expY .x) (w.val .own .y)
  ∧ FEq p.P (w.val .expYm1 .x) (w.val .own .ym1) ∧ FEq p.P (w.val .own .ym1) (w.val .own .y - 1)
  ∧ FEq p.P (w.val .own .e1) (w.val .expY .y) ∧ FEq p.P (w.val .own .e0) (w.val .expYm1 .y)
  ∧ FEq p.P (w.val .own .g1) (w.val .own .e1 - w.val .own .x)
  ∧ DecUnsigned p.P (p.limbs .log .g1 m1 m2) (w.lim .own .g1) (w.val .own .g1)
  ∧ FEq p.P (w.val .own .g2) (w.val .own .x - w.val .own .e0 - 1)
  ∧ DecUnsigned p.P (p.limbs .log .g2 m1 m2) (w.lim .own .g2) (w.val .own .g2)

/-- The constraints of a command (the Constraints paragraph of its rule). NOP and CONFIG have none. -/
def gates (p : Params) (i : Instr) (m1 m2 : Nat) (w : Assignment) : Prop :=
  match i with
  | .nop => True
  | .config _ _ _ => True
  | .range16 _ => range16Gates p w
  | .decomp _ n u => decompGates p n u w
  | .rdiv _ => divisionGates p (fun name => p.limbs .rdiv name m1 m2) .q (w.val .own .x) w
  | .divp _ => divisionGates p (fun name => p.limbs .divp name m1 m2) .z (w.val .own .x * delta m2) w
  | .sqrt _ => sqrtGates p m1 m2 w
  | .sqrtf _ => sqrtfGates p m1 m2 w
  | .atan _ => atanGates p m1 m2 w
  | .rem _ => remGates p .own (m1 + m2) (w.val .own .y) (w.val .own .xs) w
  | .tlut _ j => tlutGates p m2 j w
  | .sin _ => sinGates p m1 m2 w
  | .cos _ => cosGates p m1 m2 w
  | .tan _ => tanGates p m1 m2 w
  | .expr _ => exprGates p .own m1 m2 w
  | .log _ => logGates p m1 m2 w

/-- What a CSLOG record registers (rule R46): the constraints of its command. A record's word always decodes
(`State.Inv`). -/
def registered (p : Params) (c : CsRecord) (w : Assignment) : Prop :=
  match decode c.w with
  | .ok i => gates p i c.m1 c.m2 w
  | .error _ => False

/-- The rows on which a record enables its selectors: ROW … ROW + ROWS − 1 (rule R46). -/
def selectedRows (p : Params) (c : CsRecord) : List Nat :=
  match decode c.w with
  | .ok i => (List.range (rows p i.op c.m1 c.m2 c.nc)).map fun o => c.row.toNat + o
  | .error _ => []

/-- An assignment agrees with the trace on the cells of a record's region: every assigned cell gives its name. -/
def agrees (p : Params) (t : List TraceEntry) (i : Instr) (c : CsRecord) (w : Assignment) : Prop :=
  ∀ n v, Trace.read t (cellOf p i.op c.m1 c.m2 c.nc c.row.toNat n) = some v → n ∈ witnessNames p i.op c.m1 c.m2 →
    w n = (v : Int)

end Sys2Proof.Machine
end

