-- ==== Sys2Proof/Safety.lean ====
section
/-! DEFINITION. What claims about the machine speak of: the invariant of its state, when a compute command is ready
to run, what a completed command has done, and which fault a command raises first. -/

namespace Sys2Proof.Machine

/-! ## The invariant -/

/-- STATUS holds a legal value (10_state.md rule R34). -/
def StatusLegal (s : State) : Prop := s.status = 0 ∨ ∃ c, s.status = statusOf c

/-- CFG holds its reset value or what a CONFIG wrote (rule R35). -/
def CfgLegal (s : State) : Prop :=
  s.cfg = 0 ∨ ∃ a b c, Legal a ∧ Legal b ∧ c < 256 ∧ s.cfg = cfgWord a b c

/-- A CSLOG record is one that a compute command with B = 1 appended (rule R46). -/
def RecordLegal (p : Params) (r : CsRecord) : Prop :=
  ∃ i, decode r.w = .ok i ∧ i.op.isCompute = true ∧ i.build = true ∧ Legal r.m1 ∧ Legal r.m2 ∧ r.nc < 256
    ∧ p.minCols i.op r.m1 r.m2 ≤ r.nc ∧ r.row.toNat + rows p i.op r.m1 r.m2 r.nc ≤ p.traceRows

/-- A register holds `⊥` or a canonical field element (00_scope.md rule R10). -/
def IsElem (p : Params) (r : Option Nat) : Prop := ∀ v, r = some v → v < p.P

/-- The invariant: the reserved fields read as 0 and the coded fields hold legal values (rules R34, R35, R40), FCMD
is 0 until a fault (rule R39), exactly RES0 … RES(RESN − 1) are assigned (rule R38), every element is canonical, the
trace is in canonical form inside the grid (rules R44, R70), and every CSLOG record is one that a command can append
(rule R46). -/
structure State.Inv (p : Params) (s : State) : Prop where
  status : StatusLegal s
  fcmd : s.abort = false → s.fcmd = 0
  cfg : CfgLegal s
  treq : s.treq.toNat < 16
  resn : s.resn.toNat ≤ 17
  resAssigned : ∀ k : Fin 17, s.res[k].isSome = true ↔ k.val < s.resn.toNat
  resElem : ∀ k : Fin 17, IsElem p s.res[k]
  operands : IsElem p s.opa ∧ IsElem p s.opb ∧ IsElem p s.opc
  traceForm : Trace.wf s.trace = true
  traceCells : ∀ e ∈ s.trace, inGrid p e.1 = true ∧ e.2 < p.P
  cslog : ∀ r ∈ s.cslog, RecordLegal p r

/-! ## Compute commands -/

/-- What a compute command does in any configuration; `exec` is this at `Config.own`. NOP and CONFIG are no compute
commands and stand here only to make the function total. -/
def runs (p : Params) (i : Instr) (s : State) : State :=
  match i with
  | .nop => s
  | .config _ _ _ => s
  | .range16 b => range16On p b s
  | .decomp b n u => decompOn p b n u s
  | .rdiv b => rdivOn p b s
  | .divp b => divpOn p b s
  | .sqrt b => sqrtOn p b s
  | .sqrtf b => sqrtfOn p b s
  | .atan b => atanOn p b s
  | .rem b => remOn p b s
  | .tlut b j => tlutOn p b j s
  | .sin b => sinOn p b s
  | .cos b => cosOn p b s
  | .tan b => tanOn p b s
  | .expr b => exprOn p b s
  | .log b => logOn p b s

/-- An operand register (10_state.md rule R37). -/
def State.freg (s : State) : FReg → Option Nat
  | .opa => s.opa
  | .opb => s.opb
  | .opc => s.opc

/-- The signed value of an operand register (00_scope.md rule R10); 0 stands for `⊥`, which no command computes on. -/
def State.operandValue (p : Params) (s : State) (r : FReg) : Int := sval p.P ((s.freg r).getD 0)

/-- The operand registers a command reads (30_encoding.md rule R110). -/
def operandsRead : Instr → List FReg
  | .nop => []
  | .config _ _ _ => []
  | .range16 _ => [.opa]
  | .decomp _ _ _ => [.opa]
  | .rdiv _ => [.opa, .opb]
  | .divp _ => [.opa, .opb]
  | .sqrt _ => [.opa]
  | .sqrtf _ => [.opa]
  | .atan _ => [.opa]
  | .rem _ => [.opa, .opb, .opc]
  | .tlut _ _ => [.opa]
  | .sin _ => [.opa]
  | .cos _ => [.opa]
  | .tan _ => [.opa]
  | .expr _ => [.opa]
  | .log _ => [.opa]

/-- The conditions of steps 1–4, 7 and 8 of 40_control.md rule R143 under which a compute command runs its body and
commits: not aborted, configured, enough columns, the region inside the trace and free. -/
structure FrameReady (p : Params) (i : Instr) (s : State) : Prop where
  running : s.abort = false
  configured : s.cfgValid = true
  m1 : Legal s.m1
  m2 : Legal s.m2
  position : badLimbPosition i s.m2 = false
  columns : p.minCols i.op s.m1 s.m2 ≤ s.ncols
  bounds : s.row.toNat + rows p i.op s.m1 s.m2 s.ncols ≤ p.traceRows
  free : Trace.overlaps s.trace (region p i.op s.m1 s.m2 s.ncols s.row.toNat i.build) = false

/-- An operand register holds an element whose signed value is the representable integer `x` (rule R144). -/
def HoldsFixed (p : Params) (s : State) (r : Option Nat) (x : Int) : Prop :=
  ∃ v, r = some v ∧ sval p.P v = x ∧ mag x < bound s.m1 s.m2

/-- The registers that no compute command writes (10_state.md rules R34–R37, R39), and the two host fields. -/
structure Untouched (s t : State) : Prop where
  status : t.status = s.status
  cfg : t.cfg = s.cfg
  row : t.row = s.row
  opa : t.opa = s.opa
  opb : t.opb = s.opb
  opc : t.opc = s.opc
  fcmd : t.fcmd = s.fcmd
  host : t.host = s.host
  observed : t.observed = s.observed

/-! ## What the host can read -/

/-- A host read of the register at `addr` has the value `v` (10_state.md rule R32): the stored word of a u32 register,
or the element an F register holds. -/
def State.HoldsAt (s : State) (addr : Nat) (v : HostValue) : Prop :=
  (addr, v) ∈ [(0x01, HostValue.word s.status), (0x02, .word s.cfg), (0x03, .word s.row), (0x07, .word s.resn),
    (0x08, .word s.fcmd), (0x09, .word s.treq), (0x0A, .word s.ccnt)]
  ∨ (∃ x, v = .elem x ∧
      (addr = 0x04 ∧ s.opa = some x ∨ addr = 0x05 ∧ s.opb = some x ∨ addr = 0x06 ∧ s.opc = some x))
  ∨ ∃ (k : Fin 17) (x : Nat), v = .elem x ∧ addr = 0x10 + k.val ∧ s.res[k] = some x

/-- The register at `addr` holds `⊥` (rules R14, R37, R38). -/
def State.HoldsNone (s : State) (addr : Nat) : Prop :=
  addr = 0x04 ∧ s.opa = none ∨ addr = 0x05 ∧ s.opb = none ∨ addr = 0x06 ∧ s.opc = none
  ∨ ∃ k : Fin 17, addr = 0x10 + k.val ∧ s.res[k] = none

/-- Rule R32 lists no register at `addr`. -/
def Unlisted (addr : Nat) : Prop := 0x0A < addr ∧ addr < 0x10 ∨ 0x20 < addr

/-- The cell is none of the grid of 20_memory.md rule R70. -/
def OutsideGrid (p : Params) (a : CellAddr) : Prop :=
  p.traceRows ≤ a.row ∨ a.cls = .witness ∧ 255 ≤ a.col ∨ a.cls = .constant ∧ p.nconst ≤ a.col
  ∨ a.cls = .input ∧ p.npub ≤ a.col

/-! ## What a completed command has done -/

/-- What a command stores in the trace: each name of its Witness list and, with B = 1, of its Constants list, with
its integer (20_memory.md rule R75). -/
def storedNames (p : Params) (i : Instr) (s : State) (values : List (Key × Int)) : List (Name × Int) :=
  witnessOf (s.env p) i.op values ++ (if i.build then constantsOf (s.env p) i.op else [])

/-- The cell of a name in the region that starts at ROW (rules R71, R72). -/
def nameCell (p : Params) (i : Instr) (s : State) (n : Name) : CellAddr :=
  cellOf p i.op s.m1 s.m2 s.ncols s.row.toNat n

/-- `t` is the state after the command `i` completed in `s` with these results and these witness values (step 9 of
40_control.md rule R143): the results and `⊥` behind them, RESN, CCNT, with B = 1 one CSLOG record and the TREQ bits,
every stored cell at the value of its name, and everything else as before. -/
structure Completed (p : Params) (i : Instr) (s : State) (results : List Int) (values : List (Key × Int)) (t : State) :
    Prop where
  res : ∀ k : Fin 17, t.res[k] = (results[k.val]?).map (toF p.P)
  resn : t.resn = BitVec.ofNat 32 results.length
  ccnt : t.ccnt = s.ccnt + 1
  cslog : t.cslog = if i.build then s.cslog ++ [⟨encode i, s.row, s.m1, s.m2, s.ncols⟩] else s.cslog
  treq : t.treq = if i.build then s.treq ||| treqBits i.op s.m2 else s.treq
  stored : ∀ nv ∈ storedNames p i s values, Trace.read t.trace (nameCell p i s nv.1) = some (toF p.P nv.2)
  elsewhere : ∀ a, (∀ nv ∈ storedNames p i s values, nameCell p i s nv.1 ≠ a) →
    Trace.read t.trace a = Trace.read s.trace a
  untouched : Untouched s t

/-! ## LOG's set -/

/-- `Y` of 47_exp_log.md rule R363: the `y` of `[−B + 2, B − 1]` with `CLIP(y).V ≥ x`. -/
def LogSet (e : Env) (x : Int) : Set Int := {y | -e.bound + 2 ≤ y ∧ y ≤ e.bound - 1 ∧ x ≤ (clip e y).V}

/-! ## The first fault (60_exceptions.md rules R400, R403) -/

/-- A list of conditions with their faults, in the order they are met. -/
abbrev FaultList := List (Prop × FaultCode)

/-- The first condition of the list that holds decides: its fault, or `none` if none holds. -/
def FirstFault : FaultList → Option FaultCode → Prop
  | [], r => r = none
  | (cond, c) :: rest, r => (cond ∧ r = some c) ∨ (¬ cond ∧ FirstFault rest r)

/-- Steps 2–4 of rule R143. -/
def constructionFaults (p : Params) (i : Instr) (s : State) : FaultList :=
  [(s.cfgValid = false, .cfgInvalid), (badLimbPosition i s.m2 = true, .illegal),
   (s.ncols < p.minCols i.op s.m1 s.m2, .cfgColumns)]

/-- Step 5: an operand register the command reads is `⊥`. -/
def unsetFaults (i : Instr) (s : State) : FaultList := [(∃ r ∈ operandsRead i, s.freg r = none, .unset)]

/-- The operand range checks of a command that reads its operands with `fxop` (rule R144). -/
def operandFaults (p : Params) (i : Instr) (s : State) : FaultList :=
  [(∃ r ∈ operandsRead i, bound s.m1 s.m2 ≤ mag (s.operandValue p r), .range)]

/-- LOG's faults after the operand check (47_exp_log.md rule R363). -/
def logFaults (e : Env) (x : Int) : FaultList :=
  [(x ≤ 0, .negative), (LogSet e x = ∅, .noSolution),
   (∃ y, IsLeast (LogSet e x) y ∧ x ≤ (clip e (y - 1)).V, .noSolution),
   (∃ y, IsLeast (LogSet e x) y ∧ (e.bound ≤ mag (clip e y).V ∨ e.bound ≤ mag (clip e (y - 1)).V), .range)]

/-- TAN's faults after the operand check (46_trig.md rule R323). -/
def tanFaults (e : Env) (x : Int) : FaultList :=
  [((scr e (ang e x)).cr = 0, .divisor),
   (e.bound ≤ mag (rnds (e.delta * (scr e (ang e x)).sr) (scr e (ang e x)).cr), .range)]

/-- Step 6: the body's faults, in the order its pseudocode lists them. RDIV's and SIN's `check_result` and the
internal sites never fault (rules R192, R320, R146). -/
def bodyFaults (p : Params) (i : Instr) (s : State) : FaultList :=
  let x := s.operandValue p .opa
  let y := s.operandValue p .opb
  match i with
  | .nop => []
  | .config _ _ _ => []
  | .range16 _ => []
  | .decomp _ n u => [(pow2 (16 * n) ≤ mag x, .range), (u = true ∧ x < 0, .negative)]
  | .rdiv _ => operandFaults p i s ++ [(y ≤ 0, .divisor)]
  | .divp _ =>
    operandFaults p i s ++ [(y ≤ 0, .divisor), (bound s.m1 s.m2 ≤ mag (rnd (x * delta s.m2) y), .range)]
  | .sqrt _ => operandFaults p i s ++ [(x < 0, .negative)]
  | .sqrtf _ => operandFaults p i s ++ [(x < 0, .negative)]
  | .atan _ => operandFaults p i s
  | .rem _ => operandFaults p i s ++ [(y = 0, .divisor), (s.operandValue p .opc < 1, .negative)]
  | .tlut _ _ => [(65536 ≤ (s.freg .opa).getD 0, .range)]
  | .sin _ => operandFaults p i s
  | .cos _ => operandFaults p i s
  | .tan _ => operandFaults p i s ++ tanFaults (s.env p) x
  | .expr _ => operandFaults p i s ++ [(bound s.m1 s.m2 ≤ mag (clip (s.env p) x).V, .range)]
  | .log _ => operandFaults p i s ++ logFaults (s.env p) x

/-- Steps 7 and 8. -/
def regionFaults (p : Params) (i : Instr) (s : State) : FaultList :=
  [(p.traceRows < s.row.toNat + rows p i.op s.m1 s.m2 s.ncols, .traceBounds),
   (Trace.overlaps s.trace (region p i.op s.m1 s.m2 s.ncols s.row.toNat i.build) = true, .traceOverlap)]

/-- Every fault condition of a compute command that decoded, in the order of rule R403. -/
def faultList (p : Params) (i : Instr) (s : State) : FaultList :=
  constructionFaults p i s ++ unsetFaults i s ++ bodyFaults p i s ++ regionFaults p i s

/-! ## The registered constraints -/

/-- The state `t` holds, as its last CSLOG record, one whose constraints every assignment that agrees with the trace
satisfies (rules R46, R162: an honest witness is accepted). -/
def LastRecordHolds (p : Params) (i : Instr) (t : State) : Prop :=
  ∃ r, t.cslog.getLast? = some r ∧ decode r.w = .ok i ∧
    ∀ w : Assignment, agrees p t.trace i r w → registered p r w

end Sys2Proof.Machine
end

