-- ==== Sys2Proof/Certificates/Slice0/Obligations.lean ====
section
/-! DEFINITION. The statements about the machine.

`c : Config` ranges over every choice of the OPEN parameters that meets the spec's requirements. This machine's own
choice is one of them: `exec i s` is `runs Config.own i s`, and `Config.own` is `Config.machine.params` by definition, so a
statement about every `c` says at `c = Config.machine` what `exec` answers. Whether a given command can complete at all
depends, for most commands, on OPEN row counts or tables, so the witnesses of these statements choose `c`. -/

open Sys2Proof Sys2Proof.Machine

/-! ## Encoding (30_encoding.md) -/

/-- Words written out from rules R101, R103, R120 and R141 stand for the commands they spell. -/
def Obligations.SampleWordsDecode : Prop :=
  decode 0x00000000#32 = .ok .nop ∧ decode 0x00050F01#32 = .ok (.config 1 1 15)
  ∧ decode 0x00001323#32 = .ok (.decomp true 4 true) ∧ decode 0x00000026#32 = .ok (.sqrt true)
  ∧ decode 0x0000020A#32 = .ok (.tlut false 2) ∧ decode 0x0000000F#32 = .ok (.log false)

/-- Decoding the word of a well-formed command gives the command back: no field of any encoding is dropped. -/
def Obligations.DecodeOfEncode : Prop := ∀ i : Instr, i.wf = true → decode (encode i) = .ok i

/-- Rule R107: an accepted word is a well-formed command, and each combination of command and field values has exactly
one word. -/
def Obligations.EveryCommandHasOneWord : Prop :=
  (∀ w i, decode w = .ok i → i.wf = true) ∧ ∀ i : Instr, i.wf = true → ∃! w, decode w = .ok i

/-- Rule R106: a word is rejected exactly if its opcode is 0x10 … 0x1F, a reserved bit is set, B = 1 on NOP or CONFIG,
the CM bits are set outside CONFIG, or a must-be-0 bit of ARG is set; and every rejected word raises ILLEGAL. -/
def Obligations.RejectedWordsAreIllegal : Prop :=
  ∀ w : Word,
    ((∃ r, decode w = .error r) ↔
      (0x10 ≤ w.toNat % 32 ∨ w.toNat / 2 ^ 6 % 4 ≠ 0 ∨ w.toNat / 2 ^ 20 ≠ 0
        ∨ (w.toNat % 32 ≠ 1 ∧ w.toNat / 2 ^ 16 % 16 ≠ 0) ∨ (w.toNat % 32 ≤ 1 ∧ w.toNat / 2 ^ 5 % 2 = 1)
        ∨ (w.toNat % 32 = 3 ∧ w.toNat / 2 ^ 13 % 8 ≠ 0) ∨ (w.toNat % 32 = 10 ∧ w.toNat / 2 ^ 10 % 64 ≠ 0)
        ∨ (w.toNat % 32 ≠ 1 ∧ w.toNat % 32 ≠ 3 ∧ w.toNat % 32 ≠ 10 ∧ w.toNat / 2 ^ 8 % 256 ≠ 0)))
    ∧ ∀ s : State, s.abort = false → (∃ r, decode w = .error r) →
        performWord w s = .next { s with status := 0x101#32, fcmd := w }

/-! ## A step, and the host's actions (10_state.md, 20_memory.md, 30_encoding.md) -/

/-- A step whose host line writes CMD runs the decoded command on the state with that line removed (rule R33). There is
no program counter: what the step adds around `exec` is that the line leaves the host program. -/
def Obligations.StepRunsTheDecodedCommand : Prop :=
  ∀ (s : State) (rest : List HostEvent) (value : Int) (i : Instr), s.host = .write 0x00 value :: rest →
    decode (BitVec.ofInt 32 value) = .ok i → step s = exec i { s with host := rest }

/-- A host write of an integer stores its field image in an operand register, or the integer modulo 2^32 in ROW, and
changes nothing else, under ABORT or not (rules R36, R37, R120, R405). -/
def Obligations.HostWritesOperandsAndRow : Prop :=
  ∀ (s : State) (rest : List HostEvent) (value : Int),
    (s.host = .write 0x03 value :: rest →
      step s = .next { s with host := rest, row := BitVec.ofInt 32 value })
    ∧ (s.host = .write 0x04 value :: rest →
      step s = .next { s with host := rest, opa := some (value % (Config.own.P : Int)).toNat })
    ∧ (s.host = .write 0x05 value :: rest →
      step s = .next { s with host := rest, opb := some (value % (Config.own.P : Int)).toNat })
    ∧ (s.host = .write 0x06 value :: rest →
      step s = .next { s with host := rest, opc := some (value % (Config.own.P : Int)).toNat })

/-- A host read of a register that holds a value, or of an assigned trace cell, observes it and has no other effect
(rules R32, R76, R81). -/
def Obligations.HostReadsObserveOnly : Prop :=
  ∀ (s : State) (rest : List HostEvent),
    (∀ addr v, s.host = .read addr :: rest → s.HoldsAt addr v →
      step s = .next { s with host := rest, observed := s.observed ++ [v] })
    ∧ (∀ a v, s.host = .readCell a :: rest → ¬ OutsideGrid Config.own a → Trace.read s.trace a = some v →
      step s = .next { s with host := rest, observed := s.observed ++ [.elem v] })

/-- The host lines that do not go on. Reads of unlisted addresses, reads of CMD and writes of registers marked R are
refused (rule R32), cell writes are refused (rule R76), and `cp` of a register that holds `⊥` is refused (rule R122).
Refusing a write to an unlisted address is the model's choice (log entry 23): rule R32 names only reads of one.
Reads of `⊥` and of unassigned cells have no value (rules R14, R76); that they are a fault of the model rather than
another stop is its reading (log entry 4). Refusing a cell outside the grid is the model's (log entry 5), and so are the
refusals of `fx` without a CFG or with denominator 0, and of `cp` as the read it begins with (log entry 14). -/
def Obligations.HostErrorsStop : Prop :=
  ∀ (s : State) (rest : List HostEvent),
    (∀ addr, s.host = .read addr :: rest → Unlisted addr → step s = .refused (.hostReadUnmapped addr))
    ∧ (∀ addr value, s.host = .write addr value :: rest → Unlisted addr → step s = .refused (.hostWriteUnmapped addr))
    ∧ (s.host = .read 0x00 :: rest → step s = .refused .hostReadCmd)
    ∧ (∀ addr value, s.host = .write addr value :: rest →
        (addr = 0x01 ∨ addr = 0x02 ∨ 0x07 ≤ addr ∧ addr ≤ 0x0A ∨ 0x10 ≤ addr ∧ addr ≤ 0x20) →
        step s = .refused (.hostWriteReadOnly addr))
    ∧ (∀ addr, s.host = .read addr :: rest → s.HoldsNone addr → step s = .fault (.hostReadUnassigned addr))
    ∧ (∀ a, s.host = .readCell a :: rest → ¬ OutsideGrid Config.own a → Trace.read s.trace a = none →
        step s = .fault (.hostReadUnassignedCell a))
    ∧ (∀ a, s.host = .readCell a :: rest → OutsideGrid Config.own a → step s = .refused (.hostCellOutside a))
    ∧ (∀ a value, s.host = .writeCell a value :: rest → step s = .refused (.hostCellWrite a))
    ∧ (∀ r num, s.host = .fx r num 0 :: rest → step s = .refused .fxNotReal)
    ∧ (∀ r num den, s.host = .fx r num den :: rest → 0 < den → s.cfgValid = false →
        step s = .refused .fxWithoutConfig)
    ∧ (∀ r addr, s.host = .cp r addr :: rest → s.HoldsNone addr → step s = .refused (.cpNoValue addr))
    ∧ (∀ r addr, s.host = .cp r addr :: rest → Unlisted addr → step s = .refused (.hostReadUnmapped addr))
    ∧ (∀ r, s.host = .cp r 0x00 :: rest → step s = .refused .hostReadCmd)

/-- The pseudo-instructions of rule R122, for every operand register and every register that can be read, and a host
program with no line left (rule R443). `fx` stores the integer `q` nearest to `num/den · δ`, a half going up; `cp`
observes the register's value and stores it. That `fx` carries a fraction and that each pseudo-instruction is one step
is the model's choice (log entry 14); that a step without a line keeps the state is its choice too (log entry 2). -/
def Obligations.PseudoInstructionsAndIdle : Prop :=
  ∀ (s : State) (rest : List HostEvent),
    (∀ (r : FReg) (num q : Int) (den : Nat), s.host = .fx r num den :: rest → s.cfgValid = true → 0 < den →
      2 * (q * den) ≤ 2 * (num * delta s.m2) + den → 2 * (num * delta s.m2) + den < 2 * (q * den) + 2 * den →
      step s = .next (State.setF { s with host := rest } r (toF Config.own.P q)))
    ∧ (∀ (r : FReg) (addr : Nat) (v : HostValue), s.host = .cp r addr :: rest → s.HoldsAt addr v →
      step s = .next (State.setF { s with host := rest, observed := s.observed ++ [v] } r (toF Config.own.P v.toInt)))
    ∧ (s.host = .wait :: rest → step s = .next { s with host := rest })
    ∧ (s.host = [] → step s = .next s)

/-- Rule R440: a reset puts every register at 0 or `⊥` and leaves the trace unassigned and CSLOG empty, whatever the
state was before; `State.reset` is that state. The two host fields are the model's own and stay (log entry 2). -/
def Obligations.ResetClearsEverything : Prop :=
  (∀ (s : State) (rest : List HostEvent), s.host = .reset :: rest → ∃ t, step s = .next t ∧ t.status = 0 ∧ t.cfg = 0
    ∧ t.row = 0 ∧ t.opa = none ∧ t.opb = none ∧ t.opc = none ∧ t.resn = 0 ∧ (∀ k : Fin 17, t.res[k] = none)
    ∧ t.fcmd = 0 ∧ t.treq = 0 ∧ t.ccnt = 0 ∧ (∀ a, Trace.read t.trace a = none) ∧ t.cslog = []
    ∧ t = { State.reset with host := rest, observed := s.observed })

/-! ## Faults (60_exceptions.md) -/

/-- Rules R401 and R402: whichever word is written to CMD, a command that raises a fault writes `CODE + 256` to STATUS
for a code 1 … 10 and the word to FCMD, and leaves every other register, the trace and CSLOG as they were. -/
def Obligations.FaultsArePrecise : Prop :=
  ∀ (w : Word) (s t : State), s.abort = false → performWord w s = .next t → t.abort = true →
    ∃ code : Nat, 1 ≤ code ∧ code ≤ 10 ∧ t = { s with status := BitVec.ofNat 32 (256 + code), fcmd := w }

/-- Rule R405 and rule R406: under ABORT every CMD write is ignored, host reads and writes still work, and no step but a
reset changes STATUS or FCMD. -/
def Obligations.AbortLocksTheUnit : Prop :=
  ∀ (s : State) (rest : List HostEvent), s.abort = true →
    (∀ value, s.host = .write 0x00 value :: rest → step s = .next { s with host := rest })
    ∧ (∀ value, s.host = .write 0x03 value :: rest →
        step s = .next { s with host := rest, row := BitVec.ofInt 32 value })
    ∧ (∀ (r : FReg) (value : Int), s.host = .write r.addr value :: rest →
        step s = .next (State.setF { s with host := rest } r (toF Config.own.P value)))
    ∧ (∀ addr r v, s.host = .read addr :: rest → Reg.ofAddr addr = some r → s.readReg r = some v →
        step s = .next { s with host := rest, observed := s.observed ++ [v] })
    ∧ (∀ h t, s.host = h :: rest → h ≠ .reset → step s = .next t → t.status = s.status ∧ t.fcmd = s.fcmd)

/-- The order of rule R403 for RANGE16, DECOMP, RDIV, DIVP, SQRT, SQRTF and REM: the first condition of `faultList` that
holds is the fault the command takes; if none holds, the command completes. In particular no internal site faults
(rule R146). The overlap condition rests on the model's reading of a region (log entries 6, 20), and that no site
faults on its reading of the LIMBS bounds (log entry 8). -/
def Obligations.FirstFaultDecidesArithmetic : Prop :=
  ∀ (c : Config) (i : Instr) (s : State) (r : Option FaultCode),
    i.op ∈ [Op.range16, .decomp, .rdiv, .divp, .sqrt, .sqrtf, .rem] → i.wf = true → s.abort = false → CfgLegal s →
    FirstFault (faultList c.params i s) r →
    exec i s = .next (runs Config.own i s) ∧
      match r with
      | some code => runs c.params i s = { s with status := BitVec.ofNat 32 (256 + code.code), fcmd := encode i }
      | none => ∃ results values, Completed c.params i s results values (runs c.params i s)

/-- The order of rule R403 for ATAN, TLUT, SIN, COS and TAN. The overlap condition rests on the model's reading of a
region (log entries 6, 20), that no internal site faults on its reading of the LIMBS bounds (log entry 8), and that
ATAN's result check never faults on its reading of "near" for PI_2 and PI_6 (log entry 9). -/
def Obligations.FirstFaultDecidesTrig : Prop :=
  ∀ (c : Config) (i : Instr) (s : State) (r : Option FaultCode),
    i.op ∈ [Op.atan, .tlut, .sin, .cos, .tan] → s.abort = false → CfgLegal s →
    FirstFault (faultList c.params i s) r →
    exec i s = .next (runs Config.own i s) ∧
      match r with
      | some code => runs c.params i s = { s with status := BitVec.ofNat 32 (256 + code.code), fcmd := encode i }
      | none => ∃ results values, Completed c.params i s results values (runs c.params i s)

/-- The order of rule R403 for EXPR and LOG. The overlap condition rests on the model's reading of a region (log entries
6, 20), and that no internal site faults on its reading of the LIMBS bounds (log entry 8). -/
def Obligations.FirstFaultDecidesExpLog : Prop :=
  ∀ (c : Config) (i : Instr) (s : State) (r : Option FaultCode),
    i.op ∈ [Op.expr, .log] → s.abort = false → CfgLegal s → FirstFault (faultList c.params i s) r →
    exec i s = .next (runs Config.own i s) ∧
      match r with
      | some code => runs c.params i s = { s with status := BitVec.ofNat 32 (256 + code.code), fcmd := encode i }
      | none => ∃ results values, Completed c.params i s results values (runs c.params i s)

/-! ## Completion, result and frame of every command

What these statements say of readiness and of cells rests on the model's readings of a region (log entries 6, 20) and
of the names that have cells (log entry 7). -/

/-- NOP counts in CCNT and changes nothing else (rule R140). -/
def Obligations.NopCompletes : Prop :=
  ∀ s : State, s.abort = false → exec .nop s = .next { s with ccnt := s.ccnt + 1 }

/-- CONFIG writes the fields of CFG and counts in CCNT; with `m1` or `m2` not 1 or 2 it takes CFG_INVALID (rule R141). -/
def Obligations.ConfigCompletes : Prop :=
  ∀ (s : State) (a b n : Nat), s.abort = false → n < 256 →
    (Legal a → Legal b → ∃ t, exec (.config a b n) s = .next t ∧ t.m1 = a ∧ t.m2 = b ∧ t.ncols = n
      ∧ t.cfgValid = true ∧ t = { s with cfg := BitVec.ofNat 32 (65536 + 256 * n + 4 * b + a), ccnt := s.ccnt + 1 })
    ∧ (¬ (Legal a ∧ Legal b) → exec (.config a b n) s =
        .next { s with status := 0x102#32, fcmd := encode (.config a b n) })

/-- RANGE16 answers 1 exactly for the elements 0 … 65535 (rules R163, R164). -/
def Obligations.Range16Completes : Prop :=
  ∀ (c : Config) (b : Bool) (s : State) (v : Nat), FrameReady c.params (.range16 b) s → s.opa = some v →
    let flag : Int := if v ≤ 65535 then 1 else 0
    exec (.range16 b) s = .next (range16On Config.own b s) ∧
      Completed c.params (.range16 b) s [flag] [own .v v, own .flag flag] (range16On c.params b s)

/-- DECOMP answers the sign and the padded limbs of a value that fits its budget (rules R160, R165). -/
def Obligations.DecompCompletes : Prop :=
  ∀ (c : Config) (b : Bool) (n : Nat) (u : Bool) (s : State) (v : Nat) (x : Int),
    FrameReady c.params (.decomp b n u) s → s.opa = some v → sval c.params.P v = x → 1 ≤ n → n ≤ 16 →
    |x| < 2 ^ (16 * n) → (u = true → 0 ≤ x) →
    let sign : Int := if x < 0 then -1 else 1
    let ell := fun k : Nat => |x| / 2 ^ (16 * k) % 2 ^ 16
    exec (.decomp b n u) s = .next (decompOn Config.own b n u s) ∧
      Completed c.params (.decomp b n u) s (sign :: (List.range (4 * ((n + 3) / 4))).map ell)
        (own .v x :: ((if u then [] else [own .s sign]) ++ (List.range n).map fun k => own (.ell k) (ell k)))
        (decompOn c.params b n u s)

/-- RDIV answers the quotient and the remainder of rule R190: `0 ≤ r < y` and `2x + y − p = 2qy + 2r` (rule R192). -/
def Obligations.RdivCompletes : Prop :=
  ∀ (c : Config) (b : Bool) (s : State) (x y q r : Int), FrameReady c.params (.rdiv b) s →
    HoldsFixed c.params s s.opa x → HoldsFixed c.params s s.opb y → 0 < y →
    0 ≤ r → r < y → 2 * x + y - y % 2 = 2 * q * y + 2 * r →
    exec (.rdiv b) s = .next (rdivOn Config.own b s) ∧
      Completed c.params (.rdiv b) s [q, r]
        [own .x x, own .y y, own .q q, own .r r, own .p (y % 2), own .h ((y - y % 2) / 2), own .gap (y - r - 1)]
        (rdivOn c.params b s)

/-- DIVP answers the rounded quotient of `x·δ` by `y` where it is representable (rules R193, R194). -/
def Obligations.DivpCompletes : Prop :=
  ∀ (c : Config) (b : Bool) (s : State) (x y z r : Int), FrameReady c.params (.divp b) s →
    HoldsFixed c.params s s.opa x → HoldsFixed c.params s s.opb y → 0 < y →
    0 ≤ r → r < y → 2 * (x * delta s.m2) + y - y % 2 = 2 * z * y + 2 * r → |z| < bound s.m1 s.m2 →
    exec (.divp b) s = .next (divpOn Config.own b s) ∧
      Completed c.params (.divp b) s [z]
        [own .x x, own .y y, own .z z, own .r r, own .p (y % 2), own .h ((y - y % 2) / 2), own .gap (y - r - 1)]
        (divpOn c.params b s)

/-- SQRT answers the floor root `f` of `N = x·δ`, plus 1 where `N − f² > f`, and that flag (rules R220, R222). -/
def Obligations.SqrtCompletes : Prop :=
  ∀ (c : Config) (b : Bool) (s : State) (x f : Int), FrameReady c.params (.sqrt b) s →
    HoldsFixed c.params s s.opa x → 0 ≤ x → 0 ≤ f →
    f * f ≤ x * delta s.m2 → x * delta s.m2 < (f + 1) * (f + 1) →
    let N := x * delta s.m2
    let r : Int := if N - f * f > f then 1 else 0
    exec (.sqrt b) s = .next (sqrtOn Config.own b s) ∧
      Completed c.params (.sqrt b) s [f + r, r]
        [own .x x, own .y (f + r), own .r r, own .a1 (N - f * f), own .a2 ((f + 1) * (f + 1) - N - 1),
         own .a3 (if r = 1 then N - f * f - f - 1 else f - (N - f * f))]
        (sqrtOn c.params b s)

/-- SQRTF answers the floor root of `x·δ` (rule R223). -/
def Obligations.SqrtfCompletes : Prop :=
  ∀ (c : Config) (b : Bool) (s : State) (x y : Int), FrameReady c.params (.sqrtf b) s →
    HoldsFixed c.params s s.opa x → 0 ≤ x → 0 ≤ y →
    y * y ≤ x * delta s.m2 → x * delta s.m2 < (y + 1) * (y + 1) →
    exec (.sqrtf b) s = .next (sqrtfOn Config.own b s) ∧
      Completed c.params (.sqrtf b) s [y]
        [own .x x, own .y y, own .a1 (x * delta s.m2 - y * y), own .a2 ((y + 1) * (y + 1) - x * delta s.m2 - 1)]
        (sqrtfOn c.params b s)

/-- ATAN completes on every representable operand with the value of rule R257 and its two flags, and stores the values
of its six stages (rules R251–R256, R258). That the limb cells of `a − r1 − 1` hold 0 when `gt1 = 0` (`gap1`) is the
model's reading (log entry 10). -/
def Obligations.AtanCompletes : Prop :=
  ∀ (c : Config) (b : Bool) (s : State) (x : Int), FrameReady c.params (.atan b) s →
    HoldsFixed c.params s s.opa x →
    let δ := delta s.m2
    let K := c.params.atanK s.m2
    let sign : Int := if x < 0 then -1 else 1
    let a := |x|
    let gt1 : Int := if a > δ then 1 else 0
    let t := if gt1 = 1 then (2 * δ ^ 2 + a) / (2 * a) else a
    let gt2 : Int := if t > K then 1 else 0
    let num := (t - K) * δ ^ 2
    let den := δ ^ 2 + t * K
    let u := (2 * num + den) / (2 * den)
    let v := if gt2 = 1 then u else t
    let n5 := 15 * v * δ ^ 4 - 5 * v ^ 3 * δ ^ 2 + 3 * v ^ 5
    let d5 := 15 * δ ^ 4
    let pt := (2 * n5 + d5) / (2 * d5)
    let r1 := if gt1 = 1 then δ ^ 2 + a / 2 - t * a else 0
    let r2 := num + den / 2 - u * den
    let r5 := n5 + d5 / 2 - pt * d5
    let w := pt + gt2 * c.params.pi6 s.m2
    let w2 := if gt1 = 1 then c.params.pi2 s.m2 - w else w
    exec (.atan b) s = .next (atanOn Config.own b s) ∧
      Completed c.params (.atan b) s [sign * w2, gt1, gt2]
        [own .x x, own .s sign, own .a a, own .gt1 gt1, own .d1 (if gt1 = 1 then a - δ - 1 else δ - a),
         own .t t, own .r1 r1, own .p1 (if gt1 = 1 then a % 2 else 0), own .h1 (if gt1 = 1 then a / 2 else 0),
         own .gap1 (if gt1 = 1 then a - r1 - 1 else 0),
         own .gt2 gt2, own .d2 (if gt2 = 1 then t - K - 1 else K - t), own .num num, own .den den,
         own .u u, own .r2 r2, own .p2 (den % 2), own .h2 (den / 2), own .gap2 (den - r2 - 1), own .v v,
         own .pt pt, own .r5 r5, own .gap5 (d5 - r5 - 1), own .w w, own .w2 w2, own .res (sign * w2)]
        (atanOn c.params b s)

/-- REM answers the remainder that has the divisor's sign, and the floor quotient, of `x·xs` by `y` (rules R290, R291). -/
def Obligations.RemCompletes : Prop :=
  ∀ (c : Config) (b : Bool) (s : State) (x y xs q z : Int), FrameReady c.params (.rem b) s →
    HoldsFixed c.params s s.opa x → HoldsFixed c.params s s.opb y → HoldsFixed c.params s s.opc xs →
    y ≠ 0 → 1 ≤ xs → x * xs = q * y + z → (0 < y → 0 ≤ z ∧ z < y) → (y < 0 → y < z ∧ z ≤ 0) →
    exec (.rem b) s = .next (remOn Config.own b s) ∧
      Completed c.params (.rem b) s [z, q]
        [own .x x, own .xs xs, own .bigX (x * xs), own .y y, own .sy (if y < 0 then -1 else 1), own .z z,
         own .sa (if q < 0 then -1 else 1), own .a |q|, own .g (|y| - |z| - 1)]
        (remOn c.params b s)

/-- TLUT answers one table entry (rules R311, R312). -/
def Obligations.TlutCompletes : Prop :=
  ∀ (c : Config) (b : Bool) (j : Nat) (s : State) (k : Nat), FrameReady c.params (.tlut b j) s →
    s.opa = some k → k < 65536 →
    j ≤ s.m2 ∧ exec (.tlut b j) s = .next (tlutOn Config.own b j s) ∧
      Completed c.params (.tlut b j) s [(c.params.trigTab s.m2 j k).1, (c.params.trigTab s.m2 j k).2]
        [own .k k, own .tS (c.params.trigTab s.m2 j k).1, own .tC (c.params.trigTab s.m2 j k).2]
        (tlutOn c.params b j s)

/-- SIN completes on every representable operand (rules R313–R315, R320): the angle `g` and sign, the table entries of
its limbs, the raw sum, one rounding by `δ^m2`, and the sign. -/
def Obligations.SinCompletes : Prop :=
  ∀ (c : Config) (b : Bool) (s : State) (x q r : Int), FrameReady c.params (.sin b) s →
    HoldsFixed c.params s s.opa x →
    let g := if s.m1 = 1 then |x| else x * c.params.xScaler s.m2 % c.params.twoPiY s.m2
    let sign : Int := if s.m1 = 1 ∧ x < 0 then -1 else 1
    let S := fun j : Nat => (c.params.trigTab s.m2 j (g / 2 ^ (16 * j) % 2 ^ 16).toNat).1
    let C := fun j : Nat => (c.params.trigTab s.m2 j (g / 2 ^ (16 * j) % 2 ^ 16).toNat).2
    let sab := S 0 * C 1 + C 0 * S 1
    let cab := C 0 * C 1 - S 0 * S 1
    let Sr := if s.m2 = 1 then sab else C 2 * sab + S 2 * cab
    let D := delta s.m2 ^ s.m2
    0 ≤ r → r < D → 2 * Sr + D = 2 * q * D + 2 * r →
    exec (.sin b) s = .next (sinOn Config.own b s) ∧
      Completed c.params (.sin b) s [sign * q]
        (angleValues (s.env c.params) x ++ [own .q q, own .r r, own .gap (D - r - 1), own .res (sign * q)])
        (sinOn c.params b s)

/-- COS completes on every representable operand; the sign is not applied (rule R321). -/
def Obligations.CosCompletes : Prop :=
  ∀ (c : Config) (b : Bool) (s : State) (x q r : Int), FrameReady c.params (.cos b) s →
    HoldsFixed c.params s s.opa x →
    let g := if s.m1 = 1 then |x| else x * c.params.xScaler s.m2 % c.params.twoPiY s.m2
    let S := fun j : Nat => (c.params.trigTab s.m2 j (g / 2 ^ (16 * j) % 2 ^ 16).toNat).1
    let C := fun j : Nat => (c.params.trigTab s.m2 j (g / 2 ^ (16 * j) % 2 ^ 16).toNat).2
    let sab := S 0 * C 1 + C 0 * S 1
    let cab := C 0 * C 1 - S 0 * S 1
    let Cr := if s.m2 = 1 then cab else C 2 * cab - S 2 * sab
    let D := delta s.m2 ^ s.m2
    0 ≤ r → r < D → 2 * Cr + D = 2 * q * D + 2 * r →
    exec (.cos b) s = .next (cosOn Config.own b s) ∧
      Completed c.params (.cos b) s [q]
        (angleValues (s.env c.params) x ++ [own .q q, own .r r, own .gap (D - r - 1), own .res q])
        (cosOn c.params b s)

/-- TAN completes where the raw cosine is not 0 and the result is representable (rule R323): the signed rounding
division of the raw sums. -/
def Obligations.TanCompletes : Prop :=
  ∀ (c : Config) (b : Bool) (s : State) (x q r : Int), FrameReady c.params (.tan b) s →
    HoldsFixed c.params s s.opa x →
    let g := if s.m1 = 1 then |x| else x * c.params.xScaler s.m2 % c.params.twoPiY s.m2
    let sign : Int := if s.m1 = 1 ∧ x < 0 then -1 else 1
    let S := fun j : Nat => (c.params.trigTab s.m2 j (g / 2 ^ (16 * j) % 2 ^ 16).toNat).1
    let C := fun j : Nat => (c.params.trigTab s.m2 j (g / 2 ^ (16 * j) % 2 ^ 16).toNat).2
    let sab := S 0 * C 1 + C 0 * S 1
    let cab := C 0 * C 1 - S 0 * S 1
    let Sr := if s.m2 = 1 then sab else C 2 * sab + S 2 * cab
    let Cr := if s.m2 = 1 then cab else C 2 * cab - S 2 * sab
    let σ : Int := if Cr < 0 then -1 else 1
    Cr ≠ 0 → 0 ≤ r → r < |Cr| → 2 * (σ * delta s.m2 * Sr) + |Cr| - |Cr| % 2 = 2 * q * |Cr| + 2 * r →
    |q| < bound s.m1 s.m2 →
    exec (.tan b) s = .next (tanOn Config.own b s) ∧
      Completed c.params (.tan b) s [sign * q]
        (angleValues (s.env c.params) x ++
          [own .sigma σ, own .c |Cr|, own .q q, own .r r, own .p (|Cr| % 2), own .h ((|Cr| - |Cr| % 2) / 2),
           own .gap (|Cr| - r - 1), own .res (sign * q)])
        (tanOn c.params b s)

/-- EXPR answers the external exponential inside the clip window and the fixed values outside, with the two flags,
where the value is representable (rules R361, R362). The values and cells of the external exponential's own witness
(`ext i`), which rule R362 does not name, are the model's reading (log entry 11). -/
def Obligations.ExprCompletes : Prop :=
  ∀ (c : Config) (b : Bool) (s : State) (x : Int), FrameReady c.params (.expr b) s → HoldsFixed c.params s s.opa x →
    let lo := c.params.expLo s.m1 s.m2
    let hi := c.params.expHi s.m1 s.m2
    let V := if x < lo then c.params.expMin s.m1 s.m2 else if hi < x then c.params.expMax s.m1 s.m2
      else c.params.expFn s.m1 s.m2 x
    let lt : Int := if x < lo then 1 else 0
    let gt : Int := if hi < x then 1 else 0
    |V| < bound s.m1 s.m2 →
    exec (.expr b) s = .next (exprOn Config.own b s) ∧
      Completed c.params (.expr b) s [V, lt, gt]
        ([own .x x, own .y V, own .lt lt, own .gt gt, own .inside (1 - lt - gt),
          own .dlo (if x < lo then lo - x - 1 else x - lo), own .dhi (if hi < x then x - hi - 1 else hi - x),
          own .e (if lo ≤ x ∧ x ≤ hi then c.params.expFn s.m1 s.m2 x else 0)]
          ++ if lo ≤ x ∧ x ≤ hi then (List.range (c.params.expWitCount s.m1 s.m2)).map fun i =>
              own (.ext i) (c.params.expWit s.m1 s.m2 x i)
            else [])
        (exprOn c.params b s)

/-- LOG answers the least `y` of rule R363's set `Y`, where the bracket is strict and representable. The values and cells
of its sub-gadgets' external witnesses (`ext i` in `exprValues`) are the model's reading (log entry 11), and so are the
sub-gadgets' names and budgets (log entry 21). -/
def Obligations.LogCompletes : Prop :=
  ∀ (c : Config) (b : Bool) (s : State) (x y : Int), FrameReady c.params (.log b) s → HoldsFixed c.params s s.opa x →
    let e := s.env c.params
    0 < x → IsLeast {y | -bound s.m1 s.m2 + 2 ≤ y ∧ y ≤ bound s.m1 s.m2 - 1 ∧ x ≤ (clip e y).V} y →
    (clip e (y - 1)).V < x → |(clip e y).V| < bound s.m1 s.m2 → |(clip e (y - 1)).V| < bound s.m1 s.m2 →
    exec (.log b) s = .next (logOn Config.own b s) ∧
      Completed c.params (.log b) s [y]
        ([own .x x, own .y y, own .ym1 (y - 1), own .e1 (clip e y).V, own .e0 (clip e (y - 1)).V,
          own .g1 ((clip e y).V - x), own .g2 (x - (clip e (y - 1)).V - 1)]
          ++ exprValues e .expY y ++ exprValues e .expYm1 (y - 1))
        (logOn c.params b s)

/-! ## Invariants -/

/-- Every step keeps the invariant. -/
def Obligations.StepKeepsTheInvariant : Prop :=
  ∀ s t : State, s.Inv Config.own → step s = .next t → t.Inv Config.own

/-- The reset state meets the invariant. -/
def Obligations.ResetMeetsTheInvariant : Prop := State.reset.Inv Config.own

/-- No step but a reset changes or clears an assigned cell (rules R74, R75). -/
def Obligations.AssignedCellsPersist : Prop :=
  ∀ (s t : State) (a : CellAddr) (v : Nat), (∀ rest, s.host ≠ .reset :: rest) → step s = .next t →
    Trace.read s.trace a = some v → Trace.read t.trace a = some v

/-- No step but a reset clears a TREQ bit or changes a CSLOG record; a step appends at most one, and only a command
with B = 1 that completes appends one (rules R40, R46, R102). -/
def Obligations.TreqAndCslogOnlyGrow : Prop :=
  ∀ s t : State, (∀ rest, s.host ≠ .reset :: rest) → step s = .next t →
    t.treq ||| s.treq = t.treq ∧
      (t.cslog = s.cslog ∧ t.treq = s.treq ∨
        ∃ value rest i, s.host = .write 0x00 value :: rest ∧ decode (BitVec.ofInt 32 value) = .ok i ∧ i.build = true
          ∧ t.ccnt = s.ccnt + 1 ∧ t.treq = s.treq ||| treqBits i.op s.m2
          ∧ t.cslog = s.cslog ++ [⟨BitVec.ofInt 32 value, s.row, s.m1, s.m2, s.ncols⟩])

/-- No command writes ROW, OPA, OPB or OPC, or the host's fields; only CONFIG writes CFG, and NOP and CONFIG leave the
results (rules R35–R38). -/
def Obligations.CommandsKeepHostRegisters : Prop :=
  ∀ (i : Instr) (s t : State), exec i s = .next t →
    t.row = s.row ∧ t.opa = s.opa ∧ t.opb = s.opb ∧ t.opc = s.opc ∧ t.host = s.host ∧ t.observed = s.observed
    ∧ (t.cfg = s.cfg ∨ ∃ a b n, i = .config a b n)
    ∧ (i.op.isCompute = false → t.res = s.res ∧ t.resn = s.resn ∧ t.trace = s.trace ∧ t.treq = s.treq
        ∧ t.cslog = s.cslog)

/-- CCNT counts exactly the commands that complete, and FCMD and STATUS change exactly on a fault (rules R34, R39). -/
def Obligations.CcntCountsCompletedCommands : Prop :=
  ∀ (i : Instr) (s : State), ∃ t, exec i s = .next t ∧
    (s.abort = true → t = s) ∧
    (s.abort = false → (t.abort = false ∧ t.ccnt = s.ccnt + 1 ∧ t.status = s.status ∧ t.fcmd = s.fcmd)
      ∨ (t.abort = true ∧ t.ccnt = s.ccnt ∧ t.fcmd = encode i))

/-! ## The integer cores -/

/-- Rule R191: the identity and bounds of RDM, its other quotient forms, the half-way case, and division by 1. -/
def Obligations.RoundingDivisionProperties : Prop :=
  ∀ x y : Int, 0 < y →
    (0 ≤ (rdm x y).r ∧ (rdm x y).r < y ∧ (rdm x y).p = y % 2
      ∧ 2 * x + y - (rdm x y).p = 2 * (rdm x y).q * y + 2 * (rdm x y).r)
    ∧ ((rdm x y).q = (x + y / 2) / y ∧ (rdm x y).q = (2 * x + y) / (2 * y))
    ∧ (|2 * x - 2 * (rdm x y).q * y| ≤ y
      ∧ (|2 * x - 2 * (rdm x y).q * y| = y →
          y % 2 = 0 ∧ (∃ k, 2 * x = (2 * k + 1) * y) ∧ 2 * (rdm x y).q * y = 2 * x + y))
    ∧ rdm x 1 = ⟨x, 0, 1⟩

/-- Rule R221: the bracket of the floor root, the nearest root, the source's bracket, and the bounds of the auxiliary
quantities. -/
def Obligations.SquareRootBracket : Prop :=
  ∀ (m1 m2 : Nat) (x : Int), Legal m1 → Legal m2 → 0 ≤ x → x < bound m1 m2 →
    let c := sq m2 x
    c.N = x * delta m2 ∧ c.f * c.f ≤ c.N ∧ c.N < (c.f + 1) * (c.f + 1) ∧ 0 ≤ c.f
    ∧ (c.r = 1 ↔ c.N - c.f * c.f > c.f) ∧ (c.N - c.f * c.f > c.f ↔ (2 * c.f + 1) ^ 2 < 4 * c.N)
    ∧ 4 * c.N ≠ (2 * c.f + 1) ^ 2 ∧ (c.y = 0 ∨ (2 * c.y - 1) ^ 2 ≤ 4 * c.N) ∧ 4 * c.N < (2 * c.y + 1) ^ 2
    ∧ (c.r = 0 ∧ c.y ^ 2 ≤ c.N ∧ c.N < (c.y + 1) ^ 2 ∨ c.r = 1 ∧ (c.y - 1) ^ 2 ≤ c.N ∧ c.N < c.y ^ 2)
    ∧ |c.N - c.y ^ 2| ≤ c.y
    ∧ c.N < bound m1 m2 * delta m2 ∧ c.f < 2 ^ (8 * (m1 + m2 + m2))
    ∧ (2 : Int) ^ (8 * (m1 + m2 + m2)) ≤ bound m1 m2
    ∧ 0 ≤ c.N - c.f * c.f ∧ c.N - c.f * c.f ≤ 2 * c.f
    ∧ 0 ≤ (c.f + 1) * (c.f + 1) - c.N - 1 ∧ (c.f + 1) * (c.f + 1) - c.N - 1 ≤ 2 * c.f
    ∧ 0 ≤ roundingSide c ∧ roundingSide c ≤ 2 * c.f ∧ 2 * c.f < bound m1 m2
    ∧ c.y ≤ c.f + 1 ∧ c.y < bound m1 m2

/-- Rule R162: elements that satisfy C-DEC-1 … C-DEC-3 satisfy the identity over the integers and fit the budget,
wherever `2^(16n) ≤ (P − 1)/2`, which holds for `n ≤ 10`; and DEC's limbs recompose to the value. -/
def Obligations.DecompositionIsSound : Prop :=
  ∀ (c : Config) (n : Nat),
    (n ≤ 10 → 2 ^ (16 * n) ≤ (c.params.P - 1) / 2)
    ∧ (2 ^ (16 * n) ≤ (c.params.P - 1) / 2 → ∀ (l : Nat → Nat) (sign v : Nat),
        (∀ k, k < n → l k < c.params.P) → sign < c.params.P → v < c.params.P →
        DecSigned c.params.P n (fun k => (l k : Int)) sign v →
        sval c.params.P v = sval c.params.P sign * limbSum (fun k => (l k : Int)) n
          ∧ |sval c.params.P v| < 2 ^ (16 * n))
    ∧ ∀ v : Int, |v| < 2 ^ (16 * n) → ∃ d, dec v n false = .ok d
        ∧ v = d.sign * limbSum (fun k => d.limbs.getD k 0) n ∧ ∀ l ∈ d.limbs, 0 ≤ l ∧ l < 2 ^ 16

/-- Rule R257: the value of ATAN in one line, and ATAN is odd. -/
def Obligations.AtanIsOdd : Prop :=
  ∀ (e : Env) (x : Int),
    ((atanRun e x).s6.res = sgn x * ((atanRun e x).s1.gt1 * e.p.pi2 e.m2 + (1 - 2 * (atanRun e x).s1.gt1) *
        (rnd (15 * (atanRun e x).s4.v * e.delta ^ 4 - 5 * (atanRun e x).s4.v ^ 3 * e.delta ^ 2
            + 3 * (atanRun e x).s4.v ^ 5) (15 * e.delta ^ 4) + (atanRun e x).s3.gt2 * e.p.pi6 e.m2)))
    ∧ (x ≠ 0 → (atanRun e (-x)).s6.res = -(atanRun e x).s6.res)

/-- The reductions of ATAN stay in `[0, δ]` and its result is representable (the derived bounds of rules R252, R254 and
R258). The bound on the result rests on the model's reading of "near" for PI_2 and PI_6 (log entry 9). -/
def Obligations.AtanStaysInRange : Prop :=
  ∀ (c : Config) (m1 m2 nc : Nat) (x : Int), Legal m1 → Legal m2 → |x| < bound m1 m2 →
    let e : Env := ⟨c.params, m1, m2, nc, {}⟩
    0 ≤ (atanRun e x).s2.t ∧ (atanRun e x).s2.t ≤ delta m2 ∧ 0 ≤ (atanRun e x).s4.v ∧ (atanRun e x).s4.v ≤ delta m2
    ∧ 0 < (atanRun e x).s3.den ∧ |(atanRun e x).s6.res| ≤ c.params.pi2 m2 + c.params.pi6 m2
    ∧ |(atanRun e x).s6.res| < bound m1 m2

/-- The bounds of rule R314: `|Sr|, |Cr| ≤ 2δ²` for two limbs and `≤ 4δ³` for three. -/
def Obligations.RawSumsAreBounded : Prop :=
  ∀ (c : Config) (m1 m2 nc : Nat) (x : Int), Legal m1 → Legal m2 →
    let e : Env := ⟨c.params, m1, m2, nc, {}⟩
    let B := if m2 = 1 then 2 * delta m2 ^ 2 else 4 * delta m2 ^ 3
    |(scr e (ang e x)).sr| ≤ B ∧ |(scr e (ang e x)).cr| ≤ B

/-- The symmetries of rule R325: with `m1 = 1` COS is even, and SIN and TAN are odd away from 0 (at 0 the sign is +1 and
an OPEN table entry decides); with `m1 = 2` the reduced angle of `−x` is `TWO_PI_Y − g(x)`, or 0. -/
def Obligations.TrigSymmetry : Prop :=
  ∀ (c : Config) (m2 nc a a' : Nat), Legal m2 → sval c.params.P a' = -sval c.params.P a →
    (∀ out, sval c.params.P a ≠ 0 → sinBody ⟨c.params, 1, m2, nc, {}⟩ a = .ok out →
      ∃ out', sinBody ⟨c.params, 1, m2, nc, {}⟩ a' = .ok out' ∧ out'.results = out.results.map fun z => -z)
    ∧ (∀ out, cosBody ⟨c.params, 1, m2, nc, {}⟩ a = .ok out →
      ∃ out', cosBody ⟨c.params, 1, m2, nc, {}⟩ a' = .ok out' ∧ out'.results = out.results)
    ∧ (∀ out, sval c.params.P a ≠ 0 → tanBody ⟨c.params, 1, m2, nc, {}⟩ a = .ok out →
      ∃ out', tanBody ⟨c.params, 1, m2, nc, {}⟩ a' = .ok out' ∧ out'.results = out.results.map fun z => -z)
    ∧ ∀ x : Int, (ang ⟨c.params, 2, m2, nc, {}⟩ (-x)).g =
        if (ang ⟨c.params, 2, m2, nc, {}⟩ x).g = 0 then 0 else c.params.twoPiY m2 - (ang ⟨c.params, 2, m2, nc, {}⟩ x).g

/-- The bracket of rule R364: after a LOG that completed, RES0 is the field image of a representable `y` with
`CLIP(y − 1).V < x ≤ CLIP(y).V`, and no smaller `y'` of rule R363's range `[−B + 2, B − 1]` has `CLIP(y').V ≥ x`. -/
def Obligations.LogBracketsItsOperand : Prop :=
  ∀ (c : Config) (b : Bool) (s : State) (v : Nat), s.abort = false → CfgLegal s → s.opa = some v →
    (logOn c.params b s).ccnt = s.ccnt + 1 →
    let e := s.env c.params
    let x := sval c.params.P v
    ∃ y : Int, (logOn c.params b s).res[0] = some (toF c.params.P y)
      ∧ (clip e (y - 1)).V < x ∧ x ≤ (clip e y).V ∧ |y| < bound s.m1 s.m2
      ∧ ∀ y', -bound s.m1 s.m2 + 2 ≤ y' → y' < y → (clip e y').V < x

/-! ## The registered constraints (10_state.md rule R46 and the Constraints paragraphs)

How the constraints read the cells is the model's reading of the rules (log entry 16). -/

/-- What RANGE16, DECOMP and TLUT write to the trace satisfies the constraints their record registers. How the
constraints read the cells: log entry 16. -/
def Obligations.LookupWitnessAccepted : Prop :=
  ∀ (c : Config) (i : Instr) (s : State) (results : List Int) (values : List (Key × Int)),
    i.op ∈ [Op.range16, .decomp, .tlut] → i.wf = true → i.build = true → FrameReady c.params i s →
    Completed c.params i s results values (runs c.params i s) →
    LastRecordHolds c.params i (runs c.params i s)

/-- What RDIV and DIVP write satisfies C-RD-1 … C-RD-4 (rules R192, R194). How the constraints read the cells: log entry
16. -/
def Obligations.DivisionWitnessAccepted : Prop :=
  ∀ (c : Config) (i : Instr) (s : State) (results : List Int) (values : List (Key × Int)),
    i.op ∈ [Op.rdiv, .divp] → i.build = true → FrameReady c.params i s →
    Completed c.params i s results values (runs c.params i s) →
    LastRecordHolds c.params i (runs c.params i s)

/-- What SQRT and SQRTF write satisfies C-SQ-1 … C-SQ-5 and C-SF-1 … C-SF-3 (rules R222, R223). How the
constraints read the cells: log entry 16. -/
def Obligations.SqrtWitnessAccepted : Prop :=
  ∀ (c : Config) (i : Instr) (s : State) (results : List Int) (values : List (Key × Int)),
    i.op ∈ [Op.sqrt, .sqrtf] → i.build = true → FrameReady c.params i s →
    Completed c.params i s results values (runs c.params i s) →
    LastRecordHolds c.params i (runs c.params i s)

/-- What ATAN writes satisfies its six gates, the OPEN predicate of rule R259 among them (rule R258). That the predicate
accepts exactly rule R259's witnesses: log entry 13; how the constraints read the cells: log entry 16. -/
def Obligations.AtanWitnessAccepted : Prop :=
  ∀ (c : Config) (i : Instr) (s : State) (results : List Int) (values : List (Key × Int)),
    i.op = .atan → i.build = true → FrameReady c.params i s →
    Completed c.params i s results values (runs c.params i s) →
    LastRecordHolds c.params i (runs c.params i s)

/-- What REM writes satisfies C-RM-1 … C-RM-6 (rule R291). How the constraints read the cells: log entry 16. -/
def Obligations.RemWitnessAccepted : Prop :=
  ∀ (c : Config) (i : Instr) (s : State) (results : List Int) (values : List (Key × Int)),
    i.op = .rem → i.build = true → FrameReady c.params i s →
    Completed c.params i s results values (runs c.params i s) →
    LastRecordHolds c.params i (runs c.params i s)

/-- What SIN, COS and TAN write satisfies C-TR-1 … C-TR-5 and the division gate, the REM sub-gadget's constraints and
the OPEN predicate of rule R324 among them (rules R320–R324). What is required of the predicate: log entry 13; how the
constraints read the cells: log entry 16; the sub-gadget's names and budgets: log entry 21. -/
def Obligations.TrigWitnessAccepted : Prop :=
  ∀ (c : Config) (i : Instr) (s : State) (results : List Int) (values : List (Key × Int)),
    i.op ∈ [Op.sin, .cos, .tan] → i.build = true → FrameReady c.params i s →
    Completed c.params i s results values (runs c.params i s) →
    LastRecordHolds c.params i (runs c.params i s)

/-- What EXPR and LOG write satisfies C-EX-1 … C-EX-4 and C-LG-1 … C-LG-3, for an external exponential whose own
constraint EXPC accepts its value inside the window (rules R360, R362, R363). EXPC's shape: log entry 11; how the
constraints read the cells: log entry 16; LOG's sub-gadgets: log entry 21. -/
def Obligations.ExpLogWitnessAccepted : Prop :=
  ∀ (c : Config) (i : Instr) (s : State) (results : List Int) (values : List (Key × Int)),
    i.op ∈ [Op.expr, .log] → i.build = true → FrameReady c.params i s →
    (∀ x, c.params.expLo s.m1 s.m2 ≤ x → x ≤ c.params.expHi s.m1 s.m2 →
      c.params.expc s.m1 s.m2 x (c.params.expFn s.m1 s.m2 x) = true) →
    Completed c.params i s results values (runs c.params i s) →
    LastRecordHolds c.params i (runs c.params i s)

/-- REM's constraints pin its result down: where C-RM-2 holds over the integers (rule R291: `P > 2^(48m + 2)`, and a
dividend below `2^(32m)`), an accepted assignment has `y ≠ 0`, `z` the floor remainder and `s_a·a` the floor quotient. A claim
that constraints exclude assignments is only as good as the model's reading of them, which log entry 16 marks unsafe. -/
def Obligations.RemConstraintsForceTheRemainder : Prop :=
  ∀ (c : Config) (m : Nat) (w : Assignment), 2 ≤ m → m ≤ 4 → 2 ^ (48 * m + 2) < c.params.P →
    remGates c.params .own m (w.val .own .y) (w.val .own .xs) w →
    |signedOf c.params.P (w.val .own .bigX)| < 2 ^ (32 * m) →
    let X := signedOf c.params.P (w.val .own .bigX)
    let y := signedOf c.params.P (w.val .own .y)
    y ≠ 0 ∧ signedOf c.params.P (w.val .own .z) = modF X y
      ∧ signedOf c.params.P (w.val .own .sa) * signedOf c.params.P (w.val .own .a) = divF X y

/-- SQRT's and SQRTF's constraints pin their result down: an accepted assignment whose root is representable has the
rounded, or the floor, root of `x·δ` (rules R221–R223). A claim that constraints exclude assignments is only as good as
the model's reading of them, which log entry 16 marks unsafe. -/
def Obligations.SqrtConstraintsForceTheRoot : Prop :=
  ∀ (c : Config) (m1 m2 : Nat) (w : Assignment), Legal m1 → Legal m2 →
    let x := signedOf c.params.P (w.val .own .x)
    let y := signedOf c.params.P (w.val .own .y)
    |y| < bound m1 m2 →
    (sqrtGates c.params m1 m2 w → 0 ≤ x ∧ y = (sq m2 x).y ∧ signedOf c.params.P (w.val .own .r) = (sq m2 x).r)
    ∧ (sqrtfGates c.params m1 m2 w → 0 ≤ x ∧ y = (sq m2 x).f)

/-! ## The build bit (30_encoding.md rule R102) -/

/-- What the build bit B changes (rule R102): the form with B = 1 takes every fault of the form with B = 0; where the
form with B = 0 completes and the constant cells are free, the form with B = 1 gives the same state with the Constants
written, one CSLOG record and the TREQ bits added; and where one of the constant cells is assigned it takes
TRACE_OVERLAP, because with B = 1 the region has those cells too (40_control.md rule R143 step 8, 20_memory.md rules R71,
R72, R74). That rule R102's "no fault condition" is read with the region of R143 is the model's (log entry 20). -/
def Obligations.BuildBitOnlyAdds : Prop :=
  ∀ (c : Config) (i : Instr) (s : State), i.op.isCompute = true → s.abort = false → CfgLegal s →
    let plain := runs c.params (i.withBuild false) s
    let built := runs c.params (i.withBuild true) s
    let consts := constantsOf (s.env c.params) i.op
    (∀ code : FaultCode,
      plain = { s with status := BitVec.ofNat 32 (256 + code.code), fcmd := encode (i.withBuild false) } →
      built = { s with status := BitVec.ofNat 32 (256 + code.code), fcmd := encode (i.withBuild true) })
    ∧ (plain.abort = false → (∃ nv ∈ consts, Trace.read s.trace (nameCell c.params i s nv.1) ≠ none) →
      built = { s with status := 0x10A#32, fcmd := encode (i.withBuild true) })
    ∧ (plain.abort = false → (∀ nv ∈ consts, Trace.read s.trace (nameCell c.params i s nv.1) = none) →
      built = { plain with
          trace := built.trace
          cslog := s.cslog ++ [⟨encode (i.withBuild true), s.row, s.m1, s.m2, s.ncols⟩]
          treq := s.treq ||| treqBits i.op s.m2 }
        ∧ (∀ nv ∈ consts, Trace.read built.trace (nameCell c.params i s nv.1) = some (toF c.params.P nv.2))
        ∧ ∀ a, (∀ nv ∈ consts, nameCell c.params i s nv.1 ≠ a) → Trace.read built.trace a = Trace.read plain.trace a)
end

