-- ==== Sys2Proof/Laws/Arith.lean ====
section
/-! SUPPORT. One lemma per integer primitive of Machine/Arith.lean: what it computes, in terms of Mathlib's own
integers. -/

namespace Sys2Proof.Machine

@[simp] theorem pow2_zero : pow2 0 = 1 := rfl

theorem pow2_eq (k : Nat) : pow2 k = 2 ^ k := by simp [pow2]

theorem pow2_add (a b : Nat) : pow2 (a + b) = pow2 a * pow2 b := by simp [pow2, pow_add]

theorem pow2_pos (k : Nat) : 0 < pow2 k := by
  rw [pow2_eq]; positivity

theorem pow2_le {a b : Nat} (h : a ≤ b) : pow2 a ≤ pow2 b := by
  rw [pow2_eq, pow2_eq]; exact pow_le_pow_right₀ (by norm_num) h

theorem delta_pos (m2 : Nat) : 0 < delta m2 := pow2_pos _

theorem bound_pos (m1 m2 : Nat) : 0 < bound m1 m2 := pow2_pos _

theorem rescaleD_eq_pow2 (m2 : Nat) : pow2 (16 * m2 * m2) = delta m2 ^ m2 := by
  simp [delta, pow2, ← pow_mul]

@[simp] theorem mag_nonneg (v : Int) : 0 ≤ mag v := by simp [mag]

theorem mag_eq_abs (v : Int) : mag v = |v| := by simp [mag]

theorem mag_of_nonneg {v : Int} (h : 0 ≤ v) : mag v = v := by rw [mag_eq_abs, abs_of_nonneg h]

@[simp] theorem mag_neg (v : Int) : mag (-v) = mag v := by simp [mag]

theorem mag_lt_iff {v b : Int} : mag v < b ↔ -b < v ∧ v < b := by rw [mag_eq_abs, abs_lt]

theorem sgn_mul_mag (v : Int) : sgn v * mag v = v := by
  unfold sgn mag; split <;> omega

theorem sgn_eq (v : Int) : sgn v = 1 ∨ sgn v = -1 := by
  unfold sgn; split <;> simp

/-- For a positive divisor `div` is Lean's own integer division. -/
theorem divF_of_pos (a : Int) {b : Int} (h : 0 < b) : divF a b = a / b := Int.fdiv_eq_ediv_of_nonneg a h.le

/-- What `mod` computes: `a = b·(a div b) + a mod b`, the remainder below the divisor with its sign. -/
theorem divF_modF (a b : Int) : b * divF a b + modF a b = a := by unfold modF; ring

theorem modF_eq_fmod (a b : Int) : modF a b = Int.fmod a b := by
  have := Int.mul_fdiv_add_fmod a b
  unfold modF divF; linarith

theorem modF_of_pos (a : Int) {b : Int} (h : 0 < b) : 0 ≤ modF a b ∧ modF a b < b := by
  rw [modF_eq_fmod]; exact ⟨Int.fmod_nonneg_of_pos a h, Int.fmod_lt_of_pos a h⟩

theorem modF_of_neg (a : Int) {b : Int} (h : b < 0) : b < modF a b ∧ modF a b ≤ 0 := by
  have hp := modF_of_pos (-a) (b := -b) (by omega)
  have e : modF (-a) (-b) = -modF a b := by
    rw [modF_eq_fmod, modF_eq_fmod, Int.neg_fmod_neg]
  rw [e] at hp; omega

theorem modF_two (y : Int) : modF y 2 = y % 2 := by
  rw [modF_eq_fmod, Int.fmod_eq_emod_of_nonneg y (by norm_num)]

theorem half_eq (y : Int) : half y = y / 2 := by
  unfold half; rw [divF_of_pos _ (by norm_num), modF_two]; omega

/-! ### The square root -/

theorem isqrtBits_spec (k n f : Nat) (lo : f * f ≤ n) (hi : n < (f + 2 ^ k) * (f + 2 ^ k)) :
    isqrtBits k n f * isqrtBits k n f ≤ n ∧ n < (isqrtBits k n f + 1) * (isqrtBits k n f + 1) := by
  induction k generalizing f with
  | zero => exact ⟨lo, by simpa [isqrtBits] using hi⟩
  | succ k ih =>
    rw [isqrtBits]
    split
    · next h => exact ih _ h (by rw [pow_succ] at hi; nlinarith)
    · next h => exact ih _ lo (by omega)

/-- `isqrt n` is the floor square root. -/
theorem isqrt_spec (n : Nat) : isqrt n * isqrt n ≤ n ∧ n < (isqrt n + 1) * (isqrt n + 1) := by
  refine isqrtBits_spec _ n 0 (by simp) ?_
  have h1 : n < 2 ^ (n.log2 + 1) := Nat.lt_log2_self
  have h2 : 2 ^ (n.log2 + 1) ≤ 2 ^ ((n.log2 / 2 + 1) + (n.log2 / 2 + 1)) :=
    Nat.pow_le_pow_right (by norm_num) (by omega)
  rw [Nat.zero_add, ← pow_add]
  exact h1.trans_le h2

theorem isqrt_eq_sqrt (n : Nat) : isqrt n = Nat.sqrt n := by
  obtain ⟨h1, h2⟩ := isqrt_spec n
  exact Nat.eq_sqrt.2 ⟨h1, h2⟩

/-! ### Field elements -/

theorem toF_lt {P : Nat} (h : 0 < P) (i : Int) : toF P i < P := by
  have h1 := Int.emod_lt_of_pos i (b := (P : Int)) (by omega)
  have h2 := Int.emod_nonneg i (b := (P : Int)) (by omega)
  unfold toF
  generalize i % (P : Int) = w at *
  omega

theorem toF_cast {P : Nat} (h : 0 < P) (i : Int) : ((toF P i : Nat) : Int) = i % P := by
  have := Int.emod_nonneg i (b := (P : Int)) (by omega)
  unfold toF; omega

theorem toF_of_elem {P v : Nat} (h : v < P) : toF P v = v := by
  unfold toF; rw [Int.emod_eq_of_lt (by omega) (by omega)]; simp

/-- A small integer survives the round trip through F. -/
theorem sval_toF {P : Nat} (odd : P % 2 = 1) {i : Int} (h : 2 * mag i < P) : sval P (toF P i) = i := by
  have hp : (0 : Int) < P := by have := mag_nonneg i; omega
  have e := toF_cast (P := P) (by omega) i
  rcases le_or_gt 0 i with hi | hi
  · rw [mag_of_nonneg hi] at h
    rw [Int.emod_eq_of_lt hi (by omega)] at e
    generalize toF P i = w at *
    unfold sval; split <;> omega
  · have hm : mag i = -i := by rw [mag_eq_abs, abs_of_neg hi]
    have e2 : i % (P : Int) = i + P := by
      rw [← Int.add_emod_right, Int.emod_eq_of_lt (by omega) (by omega)]
    rw [e2] at e
    generalize toF P i = w at *
    unfold sval; split <;> omega

theorem toF_sval {P v : Nat} (h : v < P) : toF P (sval P v) = v := by
  unfold sval; split
  · exact toF_of_elem h
  · unfold toF; rw [Int.sub_emod_right, Int.emod_eq_of_lt (by omega) (by omega)]; simp

/-! ### Limbs -/

theorem limb_lt (v : Int) (k : Nat) : limb v k < 2 ^ 16 := Nat.mod_lt _ (by norm_num)

@[simp] theorem limb_neg (v : Int) (k : Nat) : limb (-v) k = limb v k := by simp [limb]

/-- The limbs of a magnitude below `2^(16n)` sum to it. -/
theorem limbSum_limb (v : Int) (n : Nat) (h : mag v < pow2 (16 * n)) :
    limbSum (fun k => (limb v k : Int)) n = mag v := by
  have key : ∀ n, limbSum (fun k => (limb v k : Int)) n = ((v.natAbs % 2 ^ (16 * n) : Nat) : Int) := by
    intro n
    induction n with
    | zero => simp [limbSum, Nat.mod_one]
    | succ n ih =>
      rw [limbSum, ih]
      have e : 2 ^ (16 * (n + 1)) = 2 ^ (16 * n) * 2 ^ 16 := by rw [← pow_add]; rfl
      rw [e, Nat.mod_mul]
      simp [limb, pow2]; ring
  rw [key, mag]
  congr 1
  apply Nat.mod_eq_of_lt
  simp only [mag, pow2] at h; exact_mod_cast h

@[simp] theorem limbList_length (n : Nat) (v : Int) : (limbList n v).length = padded n := by simp [limbList]

theorem padded_le {n : Nat} (h : n ≤ 16) : padded n ≤ 16 := by unfold padded; omega

theorem le_padded (n : Nat) : n ≤ padded n := by unfold padded; omega

/-! ### Rounding division -/

/-- `RND` is the floor of `n/d + 1/2`. -/
theorem rnd_eq (n : Int) {d : Int} (h : 0 < d) : rnd n d = (2 * n + d) / (2 * d) := by
  unfold rnd; rw [divF_of_pos _ (by omega)]

/-- `RND` is the integer `q` with `2qd ≤ 2n + d < 2(q + 1)d`. -/
theorem rnd_spec (n : Int) {d : Int} (h : 0 < d) :
    2 * (rnd n d * d) ≤ 2 * n + d ∧ 2 * n + d < 2 * (rnd n d * d) + 2 * d := by
  rw [rnd_eq n h]
  have h1 := Int.emod_nonneg (2 * n + d) (b := 2 * d) (by omega)
  have h2 := Int.emod_lt_of_pos (2 * n + d) (b := 2 * d) (by omega)
  have h3 := Int.mul_ediv_add_emod (2 * n + d) (2 * d)
  have h4 : 2 * ((2 * n + d) / (2 * d) * d) = 2 * d * ((2 * n + d) / (2 * d)) := by ring
  omega

theorem rnd_unique {n d q : Int} (h : 0 < d) (lo : 2 * (q * d) ≤ 2 * n + d) (hi : 2 * n + d < 2 * (q * d) + 2 * d) :
    rnd n d = q := by
  rw [rnd_eq n h, Int.ediv_eq_iff_of_pos (by omega)]
  constructor <;> nlinarith

/-- The identity, the remainder bounds and the parity bit of `RDM`. -/
theorem rdm_spec (x : Int) {y : Int} (h : 0 < y) :
    2 * x + y - (rdm x y).p = 2 * ((rdm x y).q * y) + 2 * (rdm x y).r
      ∧ 0 ≤ (rdm x y).r ∧ (rdm x y).r < y ∧ ((rdm x y).p = 0 ∨ (rdm x y).p = 1) ∧ y = 2 * half y + (rdm x y).p := by
  have hs := rnd_spec x h
  have e : (rdm x y).r = x + y / 2 - rnd x y * y := by
    have := half_eq y
    unfold half at this
    simp only [rdm, this]
  have ep : (rdm x y).p = y % 2 := by simp only [rdm, modF_two]
  have eq : (rdm x y).q = rnd x y := rfl
  rw [e, ep, eq, half_eq]
  generalize rnd x y * y = w at *
  refine ⟨?_, ?_, ?_, ?_, ?_⟩ <;> omega

/-- The identity and the remainder bounds of `RM`. -/
theorem rm_spec (x xs : Int) {y : Int} (h : y ≠ 0) :
    x * xs = (rm x y xs).sa * (rm x y xs).a * y + (rm x y xs).z ∧ 0 ≤ (rm x y xs).sy * (rm x y xs).z
      ∧ mag (rm x y xs).z < mag y := by
  have hz : (rm x y xs).z = modF (x * xs) y := by simp only [rm, modF]; ring
  have hq : (rm x y xs).sa * (rm x y xs).a = divF (x * xs) y := sgn_mul_mag _
  have hd := divF_modF (x * xs) y
  refine ⟨by rw [hq, hz]; linarith, ?_, ?_⟩
  all_goals rw [hz]
  all_goals rcases lt_or_gt_of_ne h with hn | hp
  · have := modF_of_neg (x * xs) hn
    simp only [rm, sgn, hn, if_true]; omega
  · have := modF_of_pos (x * xs) hp
    simp only [rm, sgn, not_lt.2 hp.le, if_false]; omega
  · have := modF_of_neg (x * xs) hn
    rw [mag_eq_abs, mag_eq_abs, abs_of_neg hn, abs_of_nonpos this.2]; omega
  · have := modF_of_pos (x * xs) hp
    rw [mag_of_nonneg this.1, mag_of_nonneg hp.le]; exact this.2

end Sys2Proof.Machine
end

