-- ==== Sys2Proof/Laws/Config.lean ====
section
/-! SUPPORT. The reference choice of the OPEN parameters meets every requirement, so every configuration does, this
machine's own included. -/

namespace Sys2Proof

open Machine

/-! ### The reference layout -/

theorem reference_witnessNames (op : Op) (m1 m2 : Nat) :
    witnessNames Params.reference op m1 m2 = witnessNames Params.referenceBase op m1 m2 := by cases op <;> rfl

theorem reference_constantNames (op : Op) (m1 m2 : Nat) :
    constantNames Params.reference op m1 m2 = constantNames Params.referenceBase op m1 m2 := by cases op <;> rfl

/-- What the reference layout needs of a command's names at one legal pair. -/
def referenceNamesFit (op : Op) (m1 m2 : Nat) : Bool :=
  let ws := witnessNames Params.referenceBase op m1 m2
  let cs := constantNames Params.referenceBase op m1 m2
  decide (ws ++ cs).Nodup && decide (cs.length ≤ 16) && decide (ws.length ≤ 15 * rows Params.reference op m1 m2 15)
    && decide (ws.length ≤ 64 * rows Params.reference op m1 m2 64)
    && (decide (cs = []) || decide (1 ≤ rows Params.reference op m1 m2 64))

theorem reference_namesFit (op : Op) (m1 m2 : Nat) (h1 : Legal m1) (h2 : Legal m2) :
    referenceNamesFit op m1 m2 = true := by
  rcases h1 with rfl | rfl <;> rcases h2 with rfl | rfl <;> cases op <;> decide +kernel

/-- The reference row counts depend on NCOLS only through the collapse at 64 columns. -/
theorem reference_rows (op : Op) (m1 m2 nc : Nat) :
    rows Params.reference op m1 m2 nc = rows Params.reference op m1 m2 (if nc < 64 then 15 else 64) := by
  cases op <;> simp only [rows, collapse, Params.reference, Params.referenceBase]
  all_goals by_cases hn : nc < 64 <;> simp [hn, Nat.not_le.2, Nat.le_of_not_lt]

theorem reference_rows_fewer (op : Op) (m1 m2 : Nat) :
    rows Params.reference op m1 m2 64 ≤ rows Params.reference op m1 m2 15 := by
  cases op <;> exact Nat.le_of_ble_eq_true rfl

theorem reference_layout_witness {op : Op} {m1 m2 nc : Nat} {n : Name}
    (h : n ∈ witnessNames Params.referenceBase op m1 m2) :
    Params.reference.layout op m1 m2 nc n =
      ⟨.witness, (witnessNames Params.referenceBase op m1 m2).idxOf n % nc,
        (witnessNames Params.referenceBase op m1 m2).idxOf n / nc⟩ := by
  show Params.referenceLayout op m1 m2 nc n = _
  rw [Params.referenceLayout, if_pos (List.idxOf_lt_length_iff.2 h)]

theorem reference_layout_constant {op : Op} {m1 m2 nc : Nat} {n : Name}
    (h : n ∉ witnessNames Params.referenceBase op m1 m2) :
    Params.reference.layout op m1 m2 nc n =
      ⟨.constant, (constantNames Params.referenceBase op m1 m2).idxOf n, 0⟩ := by
  show Params.referenceLayout op m1 m2 nc n = _
  rw [Params.referenceLayout, if_neg (fun hh => h (List.idxOf_lt_length_iff.1 hh))]

theorem reference_layout (op : Op) (m1 m2 nc : Nat) (h1 : Legal m1) (h2 : Legal m2) (h : 15 ≤ nc) :
    LayoutFits Params.reference op m1 m2 nc := by
  have hf := reference_namesFit op m1 m2 h1 h2
  simp only [referenceNamesFit, Bool.and_eq_true, Bool.or_eq_true, decide_eq_true_eq] at hf
  obtain ⟨⟨⟨⟨nodup, hc⟩, h15⟩, h64⟩, hrow⟩ := hf
  have hlen : (witnessNames Params.referenceBase op m1 m2).length ≤ nc * rows Params.reference op m1 m2 nc := by
    rw [reference_rows op m1 m2 nc]
    split
    · exact h15.trans (Nat.mul_le_mul_right _ h)
    · exact h64.trans (Nat.mul_le_mul_right _ (by omega))
  obtain ⟨wnd, cnd, disj⟩ := List.nodup_append.1 nodup
  refine ⟨?_, ?_, ?_⟩
  · intro n hn
    rw [reference_witnessNames] at hn
    rw [reference_layout_witness hn]
    refine ⟨rfl, Nat.mod_lt _ (by omega), ?_⟩
    exact Nat.div_lt_of_lt_mul ((List.idxOf_lt_length_iff.2 hn).trans_le hlen)
  · intro n hn
    rw [reference_constantNames] at hn
    rw [reference_layout_constant (fun hw => disj n hw n hn rfl)]
    refine ⟨rfl, (List.idxOf_lt_length_iff.2 hn).trans_le hc, ?_⟩
    have : 1 ≤ rows Params.reference op m1 m2 64 := hrow.resolve_left (fun e => by rw [e] at hn; simp at hn)
    rw [reference_rows op m1 m2 nc]
    split
    · exact this.trans (reference_rows_fewer op m1 m2)
    · exact this
  · rw [reference_witnessNames, reference_constantNames]
    refine List.Nodup.map_on ?_ nodup
    intro a ha b hb hab
    rcases List.mem_append.1 ha with ha | ha <;> rcases List.mem_append.1 hb with hb | hb
    · rw [reference_layout_witness ha, reference_layout_witness hb] at hab
      injection hab with _ hcol hrw
      have e : (witnessNames Params.referenceBase op m1 m2).idxOf a =
          (witnessNames Params.referenceBase op m1 m2).idxOf b := by
        rw [← Nat.div_add_mod (List.idxOf a _) nc, ← Nat.div_add_mod (List.idxOf b _) nc, hcol, hrw]
      exact (List.idxOf_inj ha).1 e
    · rw [reference_layout_witness ha, reference_layout_constant (fun hw => disj b hw b hb rfl)] at hab
      cases hab
    · rw [reference_layout_constant (fun hw => disj a hw a ha rfl), reference_layout_witness hb] at hab
      cases hab
    · rw [reference_layout_constant (fun hw => disj a hw a ha rfl),
        reference_layout_constant (fun hw => disj b hw b hb rfl)] at hab
      injection hab with _ hcol _
      exact (List.idxOf_inj ha).1 hcol

/-! ### The other requirements -/

theorem referencePrime_eq : referencePrime = mersenne 521 := by decide +kernel

theorem reference_prime : Params.reference.P.Prime := by
  show Nat.Prime referencePrime
  rw [referencePrime_eq]
  exact lucas_lehmer_sufficiency 521 (by norm_num) (by norm_num)

theorem reference_limbs (m1 m2 : Nat) (h1 : Legal m1) (h2 : Legal m2) : LimbsFit Params.reference m1 m2 := by
  rcases h1 with rfl | rfl <;> rcases h2 with rfl | rfl <;> constructor <;> decide +kernel

theorem reference_trigTab (m2 j k : Nat) (h : Legal m2) :
    mag (Params.reference.trigTab m2 j k).1 ≤ delta m2 ∧ mag (Params.reference.trigTab m2 j k).2 ≤ delta m2 := by
  unfold Params.reference Params.referenceBase
  rcases h with rfl | rfl <;> dsimp only <;> split_ifs <;> first | decide +kernel | contradiction

theorem reference_validAt (m1 m2 : Nat) (h1 : Legal m1) (h2 : Legal m2) : Params.reference.ValidAt m1 m2 where
  minCols _ := show 15 ≤ 255 by norm_num
  minColsAtan := show 15 ≤ 15 from le_rfl
  oneRow _ _ := show 15 ≤ 64 by norm_num
  rowsOpen _ _ := show 1 ≤ 6 by norm_num
  layout op nc lo _ := reference_layout op m1 m2 nc h1 h2 lo
  limbs := reference_limbs m1 m2 h1 h2
  pi2 := by rcases h2 with rfl | rfl <;> decide +kernel
  pi6 := by rcases h2 with rfl | rfl <;> decide +kernel
  atanK := by rcases h2 with rfl | rfl <;> decide +kernel
  trigTab j k _ _ := reference_trigTab m2 j k h2
  twoPiY := by rcases h2 with rfl | rfl <;> decide +kernel
  xScaler _ := by rcases h1 with rfl | rfl <;> rcases h2 with rfl | rfl <;> decide +kernel
  window := by rcases h1 with rfl | rfl <;> rcases h2 with rfl | rfl <;> decide +kernel
  clamps := by rcases h1 with rfl | rfl <;> rcases h2 with rfl | rfl <;> decide +kernel

/-- CHECK_TAN_M2's reference choice, the gate of rule R323, holds of no witness but the division's. -/
theorem reference_tanM2_sound (Sr Cr σ c q r pp h s res : Int)
    (hc : Params.reference.checkTanM2 Sr Cr σ c q r pp h s res = true) :
    Cr = σ * c ∧ (σ = -1 ∨ σ = 1) ∧ 0 < c ∧ q = rnd (σ * delta 2 * Sr) c ∧ res = s * q := by
  obtain ⟨hCr, hσ, hid, r0, rc, hp, -, -, hres⟩ := of_decide_eq_true hc
  have hcpos : 0 < c := r0.trans_lt rc
  have hq : q = rnd (σ * delta 2 * Sr) c := by
    refine (rnd_unique hcpos ?_ ?_).symm <;> rcases hp with rfl | rfl <;> linarith
  exact ⟨hCr, hσ, hcpos, hq, hres⟩

/-- The gate of rule R323 holds of every witness that TAN's division writes. -/
theorem reference_tanM2_complete (Sr σ c s : Int) (hσ : σ = -1 ∨ σ = 1) (hc : 0 < c) :
    Params.reference.checkTanM2 Sr (σ * c) σ c (rdm (σ * delta 2 * Sr) c).q (rdm (σ * delta 2 * Sr) c).r
      (rdm (σ * delta 2 * Sr) c).p (half c) s (s * (rdm (σ * delta 2 * Sr) c).q) = true := by
  obtain ⟨hid, r0, rc, hp, hh⟩ := rdm_spec (σ * delta 2 * Sr) hc
  have h0 : 0 ≤ half c := by rw [half_eq]; omega
  exact decide_eq_true ⟨rfl, hσ, by rw [hid]; ring, r0, rc, hp, hh, h0, rfl⟩

/-- The requirements of rule R7 can be met together. -/
theorem Params.reference_valid : Params.reference.Valid where
  prime := reference_prime
  large := by show 2 ^ 172 < referencePrime; unfold referencePrime; norm_num
  traceRows := show 6 ≤ 32 by norm_num
  each := reference_validAt
  atanRow4 _ _ _ _ _ _ _ _ _ := decide_eq_true_iff
  tanM2Sound := reference_tanM2_sound
  tanM2Complete Sr σ c s := reference_tanM2_complete Sr σ c s

/-- Every configuration meets the requirements. -/
theorem Config.valid : ∀ c : Config, c.params.Valid
  | .reference => Params.reference_valid
  | .chosen _ h => h

/-- This machine's own parameters meet the requirements. -/
theorem Config.own_valid : Config.own.Valid := Config.machine.valid

/-! ### What the requirements give -/

theorem Params.Valid.odd {p : Params} (h : p.Valid) : p.P % 2 = 1 := by
  rcases h.prime.eq_two_or_odd with e | e
  · have := h.large; rw [e] at this; norm_num at this
  · exact e

theorem Params.Valid.pos {p : Params} (h : p.Valid) : 0 < p.P := h.prime.pos

/-- The modulus exceeds twice every representable bound. -/
theorem Params.Valid.bound_lt {p : Params} (h : p.Valid) {m1 m2 : Nat} (h1 : Legal m1) (h2 : Legal m2) :
    2 * bound m1 m2 < p.P := by
  have hl : (2 : Int) ^ 172 < p.P := by exact_mod_cast h.large
  have hb : bound m1 m2 ≤ pow2 64 := pow2_le (by rcases h1 with rfl | rfl <;> rcases h2 with rfl | rfl <;> decide)
  have : 2 * pow2 64 < (2 : Int) ^ 172 := by decide +kernel
  omega

/-- A representable integer survives the round trip through F. -/
theorem Params.Valid.sval_toF {p : Params} (h : p.Valid) {m1 m2 : Nat} (h1 : Legal m1) (h2 : Legal m2) {i : Int}
    (hi : mag i < bound m1 m2) : sval p.P (toF p.P i) = i :=
  Machine.sval_toF h.odd (by have := h.bound_lt h1 h2; omega)

end Sys2Proof
end

