-- ==== Sys2Proof/Laws/State.lean ====
section
/-! SUPPORT. One lemma per field per named update of the state: what the update leaves in that field. -/

namespace Sys2Proof.Machine

/-! ### The lookup tables -/

/-- No update changes the tables: there is one bank (10_state.md rule R43). -/
theorem LookupBank.eq (a b : LookupBank) : a = b := rfl

@[simp] theorem LookupBank.hasRange_eq (bank : LookupBank) (v : Nat) : bank.hasRange v = decide (v < 65536) := rfl
@[simp] theorem LookupBank.trig_eq (bank : LookupBank) (p : Params) (m2 j k : Nat) :
    bank.trig p m2 j k = p.trigTab m2 j k := rfl

/-! ### `raiseFault`: taking a fault (rule R401) -/

@[simp] theorem raiseFault_status (s : State) (w : Word) (c : FaultCode) : (s.raiseFault w c).status = statusOf c := rfl
@[simp] theorem raiseFault_cfg (s : State) (w : Word) (c : FaultCode) : (s.raiseFault w c).cfg = s.cfg := rfl
@[simp] theorem raiseFault_row (s : State) (w : Word) (c : FaultCode) : (s.raiseFault w c).row = s.row := rfl
@[simp] theorem raiseFault_opa (s : State) (w : Word) (c : FaultCode) : (s.raiseFault w c).opa = s.opa := rfl
@[simp] theorem raiseFault_opb (s : State) (w : Word) (c : FaultCode) : (s.raiseFault w c).opb = s.opb := rfl
@[simp] theorem raiseFault_opc (s : State) (w : Word) (c : FaultCode) : (s.raiseFault w c).opc = s.opc := rfl
@[simp] theorem raiseFault_resn (s : State) (w : Word) (c : FaultCode) : (s.raiseFault w c).resn = s.resn := rfl
@[simp] theorem raiseFault_fcmd (s : State) (w : Word) (c : FaultCode) : (s.raiseFault w c).fcmd = w := rfl
@[simp] theorem raiseFault_treq (s : State) (w : Word) (c : FaultCode) : (s.raiseFault w c).treq = s.treq := rfl
@[simp] theorem raiseFault_ccnt (s : State) (w : Word) (c : FaultCode) : (s.raiseFault w c).ccnt = s.ccnt := rfl
@[simp] theorem raiseFault_res (s : State) (w : Word) (c : FaultCode) : (s.raiseFault w c).res = s.res := rfl
@[simp] theorem raiseFault_trace (s : State) (w : Word) (c : FaultCode) : (s.raiseFault w c).trace = s.trace := rfl
@[simp] theorem raiseFault_cslog (s : State) (w : Word) (c : FaultCode) : (s.raiseFault w c).cslog = s.cslog := rfl
@[simp] theorem raiseFault_host (s : State) (w : Word) (c : FaultCode) : (s.raiseFault w c).host = s.host := rfl
@[simp] theorem raiseFault_observed (s : State) (w : Word) (c : FaultCode) : (s.raiseFault w c).observed = s.observed := rfl

/-! ### `count`: a command that completed (rule R39) -/

@[simp] theorem count_status (s : State) : (s.count).status = s.status := rfl
@[simp] theorem count_cfg (s : State) : (s.count).cfg = s.cfg := rfl
@[simp] theorem count_row (s : State) : (s.count).row = s.row := rfl
@[simp] theorem count_opa (s : State) : (s.count).opa = s.opa := rfl
@[simp] theorem count_opb (s : State) : (s.count).opb = s.opb := rfl
@[simp] theorem count_opc (s : State) : (s.count).opc = s.opc := rfl
@[simp] theorem count_resn (s : State) : (s.count).resn = s.resn := rfl
@[simp] theorem count_fcmd (s : State) : (s.count).fcmd = s.fcmd := rfl
@[simp] theorem count_treq (s : State) : (s.count).treq = s.treq := rfl
@[simp] theorem count_ccnt (s : State) : (s.count).ccnt = s.ccnt + 1 := rfl
@[simp] theorem count_res (s : State) : (s.count).res = s.res := rfl
@[simp] theorem count_trace (s : State) : (s.count).trace = s.trace := rfl
@[simp] theorem count_cslog (s : State) : (s.count).cslog = s.cslog := rfl
@[simp] theorem count_host (s : State) : (s.count).host = s.host := rfl
@[simp] theorem count_observed (s : State) : (s.count).observed = s.observed := rfl

/-! ### `configured`: CONFIG (rule R141) -/

@[simp] theorem configured_status (s : State) (a b n : Nat) : (s.configured a b n).status = s.status := rfl
@[simp] theorem configured_cfg (s : State) (a b n : Nat) : (s.configured a b n).cfg = cfgWord a b n := rfl
@[simp] theorem configured_row (s : State) (a b n : Nat) : (s.configured a b n).row = s.row := rfl
@[simp] theorem configured_opa (s : State) (a b n : Nat) : (s.configured a b n).opa = s.opa := rfl
@[simp] theorem configured_opb (s : State) (a b n : Nat) : (s.configured a b n).opb = s.opb := rfl
@[simp] theorem configured_opc (s : State) (a b n : Nat) : (s.configured a b n).opc = s.opc := rfl
@[simp] theorem configured_resn (s : State) (a b n : Nat) : (s.configured a b n).resn = s.resn := rfl
@[simp] theorem configured_fcmd (s : State) (a b n : Nat) : (s.configured a b n).fcmd = s.fcmd := rfl
@[simp] theorem configured_treq (s : State) (a b n : Nat) : (s.configured a b n).treq = s.treq := rfl
@[simp] theorem configured_ccnt (s : State) (a b n : Nat) : (s.configured a b n).ccnt = s.ccnt + 1 := rfl
@[simp] theorem configured_res (s : State) (a b n : Nat) : (s.configured a b n).res = s.res := rfl
@[simp] theorem configured_trace (s : State) (a b n : Nat) : (s.configured a b n).trace = s.trace := rfl
@[simp] theorem configured_cslog (s : State) (a b n : Nat) : (s.configured a b n).cslog = s.cslog := rfl
@[simp] theorem configured_host (s : State) (a b n : Nat) : (s.configured a b n).host = s.host := rfl
@[simp] theorem configured_observed (s : State) (a b n : Nat) : (s.configured a b n).observed = s.observed := rfl

/-! ### `observe`: a host read (rule R81) -/

@[simp] theorem observe_status (s : State) (v : HostValue) : (s.observe v).status = s.status := rfl
@[simp] theorem observe_cfg (s : State) (v : HostValue) : (s.observe v).cfg = s.cfg := rfl
@[simp] theorem observe_row (s : State) (v : HostValue) : (s.observe v).row = s.row := rfl
@[simp] theorem observe_opa (s : State) (v : HostValue) : (s.observe v).opa = s.opa := rfl
@[simp] theorem observe_opb (s : State) (v : HostValue) : (s.observe v).opb = s.opb := rfl
@[simp] theorem observe_opc (s : State) (v : HostValue) : (s.observe v).opc = s.opc := rfl
@[simp] theorem observe_resn (s : State) (v : HostValue) : (s.observe v).resn = s.resn := rfl
@[simp] theorem observe_fcmd (s : State) (v : HostValue) : (s.observe v).fcmd = s.fcmd := rfl
@[simp] theorem observe_treq (s : State) (v : HostValue) : (s.observe v).treq = s.treq := rfl
@[simp] theorem observe_ccnt (s : State) (v : HostValue) : (s.observe v).ccnt = s.ccnt := rfl
@[simp] theorem observe_res (s : State) (v : HostValue) : (s.observe v).res = s.res := rfl
@[simp] theorem observe_trace (s : State) (v : HostValue) : (s.observe v).trace = s.trace := rfl
@[simp] theorem observe_cslog (s : State) (v : HostValue) : (s.observe v).cslog = s.cslog := rfl
@[simp] theorem observe_host (s : State) (v : HostValue) : (s.observe v).host = s.host := rfl
@[simp] theorem observe_observed (s : State) (v : HostValue) : (s.observe v).observed = s.observed ++ [v] := rfl

/-! ### `afterLine`: the next line of the host program (rule R31) -/

@[simp] theorem afterLine_status (s : State) (rest : List HostEvent) : (s.afterLine rest).status = s.status := rfl
@[simp] theorem afterLine_cfg (s : State) (rest : List HostEvent) : (s.afterLine rest).cfg = s.cfg := rfl
@[simp] theorem afterLine_row (s : State) (rest : List HostEvent) : (s.afterLine rest).row = s.row := rfl
@[simp] theorem afterLine_opa (s : State) (rest : List HostEvent) : (s.afterLine rest).opa = s.opa := rfl
@[simp] theorem afterLine_opb (s : State) (rest : List HostEvent) : (s.afterLine rest).opb = s.opb := rfl
@[simp] theorem afterLine_opc (s : State) (rest : List HostEvent) : (s.afterLine rest).opc = s.opc := rfl
@[simp] theorem afterLine_resn (s : State) (rest : List HostEvent) : (s.afterLine rest).resn = s.resn := rfl
@[simp] theorem afterLine_fcmd (s : State) (rest : List HostEvent) : (s.afterLine rest).fcmd = s.fcmd := rfl
@[simp] theorem afterLine_treq (s : State) (rest : List HostEvent) : (s.afterLine rest).treq = s.treq := rfl
@[simp] theorem afterLine_ccnt (s : State) (rest : List HostEvent) : (s.afterLine rest).ccnt = s.ccnt := rfl
@[simp] theorem afterLine_res (s : State) (rest : List HostEvent) : (s.afterLine rest).res = s.res := rfl
@[simp] theorem afterLine_trace (s : State) (rest : List HostEvent) : (s.afterLine rest).trace = s.trace := rfl
@[simp] theorem afterLine_cslog (s : State) (rest : List HostEvent) : (s.afterLine rest).cslog = s.cslog := rfl
@[simp] theorem afterLine_host (s : State) (rest : List HostEvent) : (s.afterLine rest).host = rest := rfl
@[simp] theorem afterLine_observed (s : State) (rest : List HostEvent) : (s.afterLine rest).observed = s.observed := rfl

/-! ### `resetUnit`: reset (rule R440) -/

@[simp] theorem resetUnit_status (s : State) : (s.resetUnit).status = State.reset.status := rfl
@[simp] theorem resetUnit_cfg (s : State) : (s.resetUnit).cfg = State.reset.cfg := rfl
@[simp] theorem resetUnit_row (s : State) : (s.resetUnit).row = State.reset.row := rfl
@[simp] theorem resetUnit_opa (s : State) : (s.resetUnit).opa = State.reset.opa := rfl
@[simp] theorem resetUnit_opb (s : State) : (s.resetUnit).opb = State.reset.opb := rfl
@[simp] theorem resetUnit_opc (s : State) : (s.resetUnit).opc = State.reset.opc := rfl
@[simp] theorem resetUnit_resn (s : State) : (s.resetUnit).resn = State.reset.resn := rfl
@[simp] theorem resetUnit_fcmd (s : State) : (s.resetUnit).fcmd = State.reset.fcmd := rfl
@[simp] theorem resetUnit_treq (s : State) : (s.resetUnit).treq = State.reset.treq := rfl
@[simp] theorem resetUnit_ccnt (s : State) : (s.resetUnit).ccnt = State.reset.ccnt := rfl
@[simp] theorem resetUnit_res (s : State) : (s.resetUnit).res = State.reset.res := rfl
@[simp] theorem resetUnit_trace (s : State) : (s.resetUnit).trace = State.reset.trace := rfl
@[simp] theorem resetUnit_cslog (s : State) : (s.resetUnit).cslog = State.reset.cslog := rfl
@[simp] theorem resetUnit_host (s : State) : (s.resetUnit).host = s.host := rfl
@[simp] theorem resetUnit_observed (s : State) : (s.resetUnit).observed = s.observed := rfl

/-! ### `withFetchWord`: a placed command -/

@[simp] theorem withFetchWord_status (s : State) (nbits w : Nat) : (s.withFetchWord nbits w).status = s.status := rfl
@[simp] theorem withFetchWord_cfg (s : State) (nbits w : Nat) : (s.withFetchWord nbits w).cfg = s.cfg := rfl
@[simp] theorem withFetchWord_row (s : State) (nbits w : Nat) : (s.withFetchWord nbits w).row = s.row := rfl
@[simp] theorem withFetchWord_opa (s : State) (nbits w : Nat) : (s.withFetchWord nbits w).opa = s.opa := rfl
@[simp] theorem withFetchWord_opb (s : State) (nbits w : Nat) : (s.withFetchWord nbits w).opb = s.opb := rfl
@[simp] theorem withFetchWord_opc (s : State) (nbits w : Nat) : (s.withFetchWord nbits w).opc = s.opc := rfl
@[simp] theorem withFetchWord_resn (s : State) (nbits w : Nat) : (s.withFetchWord nbits w).resn = s.resn := rfl
@[simp] theorem withFetchWord_fcmd (s : State) (nbits w : Nat) : (s.withFetchWord nbits w).fcmd = s.fcmd := rfl
@[simp] theorem withFetchWord_treq (s : State) (nbits w : Nat) : (s.withFetchWord nbits w).treq = s.treq := rfl
@[simp] theorem withFetchWord_ccnt (s : State) (nbits w : Nat) : (s.withFetchWord nbits w).ccnt = s.ccnt := rfl
@[simp] theorem withFetchWord_res (s : State) (nbits w : Nat) : (s.withFetchWord nbits w).res = s.res := rfl
@[simp] theorem withFetchWord_trace (s : State) (nbits w : Nat) : (s.withFetchWord nbits w).trace = s.trace := rfl
@[simp] theorem withFetchWord_cslog (s : State) (nbits w : Nat) : (s.withFetchWord nbits w).cslog = s.cslog := rfl
@[simp] theorem withFetchWord_host (s : State) (nbits w : Nat) : (s.withFetchWord nbits w).host = .write 0 ((w % 2 ^ min nbits 32 : Nat) : Int) :: s.host := rfl
@[simp] theorem withFetchWord_observed (s : State) (nbits w : Nat) : (s.withFetchWord nbits w).observed = s.observed := rfl

/-! ### `commit`: step 9 of rule R143 -/

@[simp] theorem commit_status (e : Env) (i : Instr) (s : State) (out : BodyOut) : (commit e i s out).status = s.status := rfl
@[simp] theorem commit_cfg (e : Env) (i : Instr) (s : State) (out : BodyOut) : (commit e i s out).cfg = s.cfg := rfl
@[simp] theorem commit_row (e : Env) (i : Instr) (s : State) (out : BodyOut) : (commit e i s out).row = s.row := rfl
@[simp] theorem commit_opa (e : Env) (i : Instr) (s : State) (out : BodyOut) : (commit e i s out).opa = s.opa := rfl
@[simp] theorem commit_opb (e : Env) (i : Instr) (s : State) (out : BodyOut) : (commit e i s out).opb = s.opb := rfl
@[simp] theorem commit_opc (e : Env) (i : Instr) (s : State) (out : BodyOut) : (commit e i s out).opc = s.opc := rfl
@[simp] theorem commit_resn (e : Env) (i : Instr) (s : State) (out : BodyOut) : (commit e i s out).resn = BitVec.ofNat 32 out.results.length := rfl
@[simp] theorem commit_fcmd (e : Env) (i : Instr) (s : State) (out : BodyOut) : (commit e i s out).fcmd = s.fcmd := rfl
@[simp] theorem commit_treq (e : Env) (i : Instr) (s : State) (out : BodyOut) : (commit e i s out).treq = (if i.build then s.treq ||| treqBits i.op e.m2 else s.treq) := rfl
@[simp] theorem commit_ccnt (e : Env) (i : Instr) (s : State) (out : BodyOut) : (commit e i s out).ccnt = s.ccnt + 1 := rfl
@[simp] theorem commit_res (e : Env) (i : Instr) (s : State) (out : BodyOut) : (commit e i s out).res = loadResults e.p.P out.results := rfl
@[simp] theorem commit_trace (e : Env) (i : Instr) (s : State) (out : BodyOut) : (commit e i s out).trace = Trace.writeAll s.trace (cellWrites e i s.row.toNat out.values) := rfl
@[simp] theorem commit_cslog (e : Env) (i : Instr) (s : State) (out : BodyOut) : (commit e i s out).cslog = (if i.build then s.cslog ++ [recordOf e i s] else s.cslog) := rfl
@[simp] theorem commit_host (e : Env) (i : Instr) (s : State) (out : BodyOut) : (commit e i s out).host = s.host := rfl
@[simp] theorem commit_observed (e : Env) (i : Instr) (s : State) (out : BodyOut) : (commit e i s out).observed = s.observed := rfl

/-! ### `setF`: a host write of an operand register (rule R120) -/

@[simp] theorem setF_status (s : State) (reg : FReg) (v : Nat) : (s.setF reg v).status = s.status := by cases reg <;> rfl
@[simp] theorem setF_cfg (s : State) (reg : FReg) (v : Nat) : (s.setF reg v).cfg = s.cfg := by cases reg <;> rfl
@[simp] theorem setF_row (s : State) (reg : FReg) (v : Nat) : (s.setF reg v).row = s.row := by cases reg <;> rfl
@[simp] theorem setF_opa (s : State) (v : Nat) : (s.setF .opa v).opa = some v := rfl
@[simp] theorem setF_opb_opa (s : State) (v : Nat) : (s.setF .opb v).opa = s.opa := rfl
@[simp] theorem setF_opc_opa (s : State) (v : Nat) : (s.setF .opc v).opa = s.opa := rfl
@[simp] theorem setF_opb (s : State) (v : Nat) : (s.setF .opb v).opb = some v := rfl
@[simp] theorem setF_opa_opb (s : State) (v : Nat) : (s.setF .opa v).opb = s.opb := rfl
@[simp] theorem setF_opc_opb (s : State) (v : Nat) : (s.setF .opc v).opb = s.opb := rfl
@[simp] theorem setF_opc (s : State) (v : Nat) : (s.setF .opc v).opc = some v := rfl
@[simp] theorem setF_opa_opc (s : State) (v : Nat) : (s.setF .opa v).opc = s.opc := rfl
@[simp] theorem setF_opb_opc (s : State) (v : Nat) : (s.setF .opb v).opc = s.opc := rfl
@[simp] theorem setF_resn (s : State) (reg : FReg) (v : Nat) : (s.setF reg v).resn = s.resn := by cases reg <;> rfl
@[simp] theorem setF_fcmd (s : State) (reg : FReg) (v : Nat) : (s.setF reg v).fcmd = s.fcmd := by cases reg <;> rfl
@[simp] theorem setF_treq (s : State) (reg : FReg) (v : Nat) : (s.setF reg v).treq = s.treq := by cases reg <;> rfl
@[simp] theorem setF_ccnt (s : State) (reg : FReg) (v : Nat) : (s.setF reg v).ccnt = s.ccnt := by cases reg <;> rfl
@[simp] theorem setF_res (s : State) (reg : FReg) (v : Nat) : (s.setF reg v).res = s.res := by cases reg <;> rfl
@[simp] theorem setF_trace (s : State) (reg : FReg) (v : Nat) : (s.setF reg v).trace = s.trace := by cases reg <;> rfl
@[simp] theorem setF_cslog (s : State) (reg : FReg) (v : Nat) : (s.setF reg v).cslog = s.cslog := by cases reg <;> rfl
@[simp] theorem setF_host (s : State) (reg : FReg) (v : Nat) : (s.setF reg v).host = s.host := by cases reg <;> rfl
@[simp] theorem setF_observed (s : State) (reg : FReg) (v : Nat) : (s.setF reg v).observed = s.observed := by cases reg <;> rfl

/-! ### `unlessAborted` (rule R405) -/

theorem unlessAborted_of_abort {s : State} (h : s.abort = true) (t : State) : s.unlessAborted t = s := by
  simp [State.unlessAborted, h]

theorem unlessAborted_of_running {s : State} (h : s.abort = false) (t : State) : s.unlessAborted t = t := by
  simp [State.unlessAborted, h]

/-! ### Accessors that read one register -/

theorem statusOf_toNat (c : FaultCode) : (statusOf c).toNat = 256 + c.code := by cases c <;> decide

theorem code_range (c : FaultCode) : 1 ≤ c.code ∧ c.code ≤ 10 := by cases c <;> decide

/-- ABORT is a field of STATUS (rule R34). -/
theorem abort_of_status {s t : State} (h : t.status = s.status) : t.abort = s.abort := by unfold State.abort; rw [h]

/-- The fields of CFG (rule R35). -/
theorem cfgFields_of_cfg {s t : State} (h : t.cfg = s.cfg) :
    t.m1 = s.m1 ∧ t.m2 = s.m2 ∧ t.ncols = s.ncols ∧ t.cfgValid = s.cfgValid := by
  unfold State.m1 State.m2 State.ncols State.cfgValid; rw [h]; exact ⟨rfl, rfl, rfl, rfl⟩

@[simp] theorem raiseFault_abort (s : State) (w : Word) (c : FaultCode) : (s.raiseFault w c).abort = true := by
  have := code_range c
  simp only [State.abort, raiseFault_status, statusOf_toNat, beq_iff_eq]
  omega

@[simp] theorem raiseFault_code (s : State) (w : Word) (c : FaultCode) : (s.raiseFault w c).code = c.code := by
  have := code_range c
  simp only [State.code, raiseFault_status, statusOf_toNat]
  omega

/-- The fields CONFIG writes read back (rule R141). -/
theorem cfgWord_toNat {a b c : Nat} (ha : a < 4) (hb : b < 4) (hc : c < 256) :
    (cfgWord a b c).toNat = 65536 + 256 * c + 4 * b + a := by
  rw [cfgWord, BitVec.toNat_ofNat, Nat.mod_eq_of_lt]; omega

/-- The fields CONFIG wrote (rule R141). -/
theorem configured_fields (s : State) {a b n : Nat} (ha : a < 4) (hb : b < 4) (hn : n < 256) :
    (s.configured a b n).m1 = a ∧ (s.configured a b n).m2 = b ∧ (s.configured a b n).ncols = n
      ∧ (s.configured a b n).cfgValid = true := by
  have h := cfgWord_toNat ha hb hn
  simp only [State.m1, State.m2, State.ncols, State.cfgValid, configured_cfg, h, beq_iff_eq]
  omega

end Sys2Proof.Machine
end

