-- ==== Sys2Proof/Laws/Trace.lean ====
section
/-! SUPPORT. The trace: a read after a write, and the canonical form that every operation keeps. -/

namespace Sys2Proof.Machine

theorem cellBefore_trans {a b c : CellAddr} (h1 : cellBefore a b = true) (h2 : cellBefore b c = true) :
    cellBefore a c = true := by
  simp only [cellBefore, Bool.or_eq_true, Bool.and_eq_true, decide_eq_true_eq, beq_iff_eq] at *
  omega

theorem cellBefore_irrefl (a : CellAddr) : cellBefore a a = false := by simp [cellBefore]

theorem classIndex_inj {a b : ColClass} (h : classIndex a = classIndex b) : a = b := by
  cases a <;> cases b <;> first | rfl | cases h

theorem cellBefore_total {a b : CellAddr} (h : a ≠ b) (hn : cellBefore a b = false) : cellBefore b a = true := by
  obtain ⟨ac, acol, arow⟩ := a
  obtain ⟨bc, bcol, brow⟩ := b
  simp only [cellBefore, Bool.or_eq_true, Bool.and_eq_true, decide_eq_true_eq, beq_iff_eq, Bool.or_eq_false_iff,
    Bool.and_eq_false_iff, decide_eq_false_iff_not, beq_eq_false_iff_ne] at *
  by_cases hc : classIndex ac = classIndex bc
  · have := classIndex_inj hc
    subst this
    by_cases h1 : acol = bcol
    · subst h1
      have : arow ≠ brow := fun e => h (by rw [e])
      omega
    · omega
  · omega

/-- A write is read back. -/
theorem read_write_same (t : List TraceEntry) (a : CellAddr) (v : Nat) : Trace.read (Trace.write t a v) a = some v := by
  induction t with
  | nil => simp [Trace.write, Trace.read]
  | cons e rest ih =>
    unfold Trace.write
    split
    · simp [Trace.read]
    · split
      · simp [Trace.read]
      · next h _ => simp [Trace.read, h, ih]

/-- A write leaves every other cell alone. -/
theorem read_write_other (t : List TraceEntry) {a b : CellAddr} (h : a ≠ b) (v : Nat) :
    Trace.read (Trace.write t a v) b = Trace.read t b := by
  induction t with
  | nil => simp [Trace.write, Trace.read, h]
  | cons e rest ih =>
    unfold Trace.write
    split
    · next he => simp [Trace.read, h, he]
    · split
      · simp [Trace.read, h]
      · simp only [Trace.read, ih]

/-- The cells of several writes other than these keep their content. -/
theorem read_writeAll_other (ws : List TraceEntry) (t : List TraceEntry) {b : CellAddr} (h : b ∉ ws.map Prod.fst) :
    Trace.read (Trace.writeAll t ws) b = Trace.read t b := by
  induction ws generalizing t with
  | nil => rfl
  | cons e rest ih =>
    simp only [List.map_cons, List.mem_cons, not_or] at h
    rw [Trace.writeAll, ih _ h.2, read_write_other _ (Ne.symm h.1)]

/-- Each of several writes to different cells is read back. -/
theorem read_writeAll_mem (ws : List TraceEntry) (t : List TraceEntry) (nodup : (ws.map Prod.fst).Nodup)
    {e : TraceEntry} (h : e ∈ ws) : Trace.read (Trace.writeAll t ws) e.1 = some e.2 := by
  induction ws generalizing t with
  | nil => cases h
  | cons w rest ih =>
    simp only [List.map_cons, List.nodup_cons] at nodup
    rw [Trace.writeAll]
    rcases List.mem_cons.1 h with rfl | h
    · rw [read_writeAll_other _ _ nodup.1, read_write_same]
    · exact ih _ nodup.2 h

theorem wf_tail {e : TraceEntry} {t : List TraceEntry} (h : Trace.wf (e :: t) = true) : Trace.wf t = true := by
  cases t with
  | nil => rfl
  | cons b rest => exact ((Bool.and_eq_true _ _).mp h).2

theorem wf_cons {e : TraceEntry} {t : List TraceEntry} (h : Trace.wf t = true)
    (hb : ∀ x ∈ t.head?, cellBefore e.1 x.1 = true) : Trace.wf (e :: t) = true := by
  cases t with
  | nil => rfl
  | cons b rest => exact (Bool.and_eq_true _ _).mpr ⟨hb b rfl, h⟩

theorem wf_head {e b : TraceEntry} {t : List TraceEntry} (h : Trace.wf (e :: b :: t) = true) :
    cellBefore e.1 b.1 = true := ((Bool.and_eq_true _ _).mp h).1

/-- A write keeps the canonical form. -/
theorem wf_write (t : List TraceEntry) (a : CellAddr) (v : Nat) (h : Trace.wf t = true) :
    Trace.wf (Trace.write t a v) = true := by
  suffices hs : Trace.wf (Trace.write t a v) = true ∧
      ∀ e, cellBefore e a = true → (∀ x ∈ t.head?, cellBefore e x.1 = true) →
        ∀ x ∈ (Trace.write t a v).head?, cellBefore e x.1 = true from hs.1
  induction t with
  | nil => exact ⟨rfl, fun e he _ x hx => by simp [Trace.write] at hx; rw [← hx]; exact he⟩
  | cons b rest ih =>
    obtain ⟨hw, hh⟩ := ih (wf_tail h)
    unfold Trace.write
    split
    · next hb =>
      refine ⟨?_, fun e he _ x hx => by simp at hx; rw [← hx]; exact he⟩
      refine wf_cons (wf_tail h) fun x hx => ?_
      cases rest with
      | nil => cases hx
      | cons c rest => simp at hx; rw [← hx, ← hb]; exact wf_head h
    · next hb =>
      split
      · next hlt =>
        exact ⟨wf_cons h fun x hx => by simp at hx; rw [← hx]; exact hlt,
          fun e he _ x hx => by simp at hx; rw [← hx]; exact he⟩
      · next hlt =>
        have hba : cellBefore b.1 a = true := cellBefore_total (Ne.symm hb) (by simpa using hlt)
        refine ⟨wf_cons hw (hh b.1 hba fun x hx => ?_), fun e _ hx x hx' => ?_⟩
        · cases rest with
          | nil => cases hx
          | cons c rest => simp at hx; rw [← hx]; exact wf_head h
        · simp at hx'; rw [← hx']; exact hx b rfl

/-- Several writes keep the canonical form. -/
theorem wf_writeAll (ws : List TraceEntry) (t : List TraceEntry) (h : Trace.wf t = true) :
    Trace.wf (Trace.writeAll t ws) = true := by
  induction ws generalizing t with
  | nil => exact h
  | cons e rest ih => exact ih _ (wf_write t e.1 e.2 h)

/-- The reset trace has the canonical form. -/
theorem wf_reset : Trace.wf State.reset.trace = true := rfl

/-- The entries after a write: the new one, or one that was there. -/
theorem mem_write {t : List TraceEntry} {a : CellAddr} {v : Nat} {e : TraceEntry} (h : e ∈ Trace.write t a v) :
    e = (a, v) ∨ e ∈ t := by
  induction t with
  | nil => simpa [Trace.write] using h
  | cons b rest ih =>
    unfold Trace.write at h
    split at h
    · rcases List.mem_cons.1 h with h | h
      · exact .inl h
      · exact .inr (List.mem_cons_of_mem _ h)
    · split at h
      · rcases List.mem_cons.1 h with h | h
        · exact .inl h
        · exact .inr h
      · rcases List.mem_cons.1 h with h | h
        · exact .inr (h ▸ List.mem_cons_self)
        · exact (ih h).imp id (List.mem_cons_of_mem _)

/-- The entries after several writes: one of the new ones, or one that was there. -/
theorem mem_writeAll {ws t : List TraceEntry} {e : TraceEntry} (h : e ∈ Trace.writeAll t ws) : e ∈ ws ∨ e ∈ t := by
  induction ws generalizing t with
  | nil => exact .inr h
  | cons w rest ih =>
    rcases ih h with h | h
    · exact .inl (List.mem_cons_of_mem _ h)
    · exact (mem_write h).imp (fun e' => by rw [e']; exact List.mem_cons_self) id

/-- What an overlap is: an assigned cell of the list (rule R74). -/
theorem overlaps_iff {t : List TraceEntry} {cells : List CellAddr} :
    Trace.overlaps t cells = true ↔ ∃ a ∈ cells, ∃ v, Trace.read t a = some v := by
  simp [Trace.overlaps, Option.isSome_iff_exists]

end Sys2Proof.Machine
end

