-- ==== Sys2Proof/Laws/Ops.lean ====
section
/-! SUPPORT. The shared operations of a command: what each answers, said once. -/

namespace Sys2Proof.Machine

@[simp] theorem except_bind_ok {ε α β : Type} (a : α) (f : α → Except ε β) : (Except.ok a >>= f) = f a := rfl

@[simp] theorem except_bind_error {ε α β : Type} (x : ε) (f : α → Except ε β) :
    ((Except.error x : Except ε α) >>= f) = Except.error x := rfl

@[simp] theorem except_pure {ε α : Type} (a : α) : (pure a : Except ε α) = Except.ok a := rfl

/-- A sequence answers only through each of its parts. -/
theorem except_bind_eq_ok {ε α β : Type} {x : Except ε α} {f : α → Except ε β} {b : β} (h : (x >>= f) = .ok b) :
    ∃ a, x = .ok a ∧ f a = .ok b := by
  cases x with
  | error e => cases h
  | ok a => exact ⟨a, rfl, h⟩

@[simp] theorem raiseIf_true (c : FaultCode) : raiseIf true c = .error c := rfl

@[simp] theorem raiseIf_false (c : FaultCode) : raiseIf false c = .ok () := rfl

theorem raiseIf_eq_ok {cond : Bool} {c : FaultCode} {u : Unit} (h : raiseIf cond c = .ok u) : cond = false := by
  cases cond
  · rfl
  · cases h

theorem raiseIf_eq_error {cond : Bool} {c d : FaultCode} (h : raiseIf cond c = .error d) : cond = true ∧ d = c := by
  cases cond <;> cases h; exact ⟨rfl, rfl⟩

/-- What steps 2–4 of rule R143 check. -/
theorem constructionChecks_eq_ok {e : Env} {i : Instr} {s : State} {u : Unit}
    (h : constructionChecks e i s = .ok u) :
    s.cfgValid = true ∧ badLimbPosition i e.m2 = false ∧ e.p.minCols i.op e.m1 e.m2 ≤ e.nc := by
  obtain ⟨_, h1, h⟩ := except_bind_eq_ok h
  obtain ⟨_, h2, h3⟩ := except_bind_eq_ok h
  exact ⟨by simpa using raiseIf_eq_ok h1, raiseIf_eq_ok h2, by simpa using raiseIf_eq_ok h3⟩

theorem constructionChecks_ok {e : Env} {i : Instr} {s : State} (h1 : s.cfgValid = true)
    (h2 : badLimbPosition i e.m2 = false) (h3 : e.p.minCols i.op e.m1 e.m2 ≤ e.nc) :
    constructionChecks e i s = .ok () := by
  simp [constructionChecks, h1, h2, Nat.not_lt.2 h3]

/-- What steps 7 and 8 of rule R143 check. -/
theorem regionChecks_eq_ok {e : Env} {i : Instr} {s : State} {u : Unit} (h : regionChecks e i s = .ok u) :
    s.row.toNat + rows e.p i.op e.m1 e.m2 e.nc ≤ e.p.traceRows
      ∧ Trace.overlaps s.trace (region e.p i.op e.m1 e.m2 e.nc s.row.toNat i.build) = false := by
  obtain ⟨_, h1, h2⟩ := except_bind_eq_ok h
  exact ⟨by simpa using raiseIf_eq_ok h1, raiseIf_eq_ok h2⟩

theorem regionChecks_ok {e : Env} {i : Instr} {s : State}
    (h1 : s.row.toNat + rows e.p i.op e.m1 e.m2 e.nc ≤ e.p.traceRows)
    (h2 : Trace.overlaps s.trace (region e.p i.op e.m1 e.m2 e.nc s.row.toNat i.build) = false) :
    regionChecks e i s = .ok () := by
  simp [regionChecks, Nat.not_lt.2 h1, h2]

/-- Everything the frame of rule R143 can do when it completes: every check passed, the body answered, its sites
hold, and the state is the committed one. -/
theorem frame_eq_ok {p : Params} {i : Instr} {s t : State} {body : Env → Except FaultCode BodyOut}
    (h : frame p i s body = .ok t) :
    s.cfgValid = true ∧ badLimbPosition i s.m2 = false ∧ p.minCols i.op s.m1 s.m2 ≤ s.ncols
      ∧ s.row.toNat + rows p i.op s.m1 s.m2 s.ncols ≤ p.traceRows
      ∧ Trace.overlaps s.trace (region p i.op s.m1 s.m2 s.ncols s.row.toNat i.build) = false
      ∧ ∃ out, body (s.env p) = .ok out ∧ (slots p i.op s.m1 s.m2).all (Slot.fits out.values) = true
        ∧ t = commit (s.env p) i s out := by
  obtain ⟨_, h1, h⟩ := except_bind_eq_ok h
  obtain ⟨out, h2, h⟩ := except_bind_eq_ok h
  obtain ⟨_, h3, h⟩ := except_bind_eq_ok h
  obtain ⟨_, h4, h⟩ := except_bind_eq_ok h
  obtain ⟨c1, c2, c3⟩ := constructionChecks_eq_ok h1
  obtain ⟨c4, c5⟩ := regionChecks_eq_ok h4
  exact ⟨c1, c2, c3, c4, c5, out, h2, by simpa using raiseIf_eq_ok h3, (Except.ok.inj h).symm⟩

/-- The frame completes when every check passes and the body answers. -/
theorem frame_ok {p : Params} {i : Instr} {s : State} {body : Env → Except FaultCode BodyOut} {out : BodyOut}
    (h1 : s.cfgValid = true) (h2 : badLimbPosition i s.m2 = false) (h3 : p.minCols i.op s.m1 s.m2 ≤ s.ncols)
    (hb : body (s.env p) = .ok out) (hs : (slots p i.op s.m1 s.m2).all (Slot.fits out.values) = true)
    (h4 : s.row.toNat + rows p i.op s.m1 s.m2 s.ncols ≤ p.traceRows)
    (h5 : Trace.overlaps s.trace (region p i.op s.m1 s.m2 s.ncols s.row.toNat i.build) = false) :
    frame p i s body = .ok (commit (s.env p) i s out) := by
  have e1 := constructionChecks_ok (e := s.env p) (i := i) h1 h2 h3
  have e2 := regionChecks_ok (e := s.env p) (i := i) (s := s) h4 h5
  simp [frame, e1, e2, hb, hs]

/-- A fault of the body is the fault of the command, once the construction checks passed. -/
theorem frame_body_error {p : Params} {i : Instr} {s : State} {body : Env → Except FaultCode BodyOut} {c : FaultCode}
    (h1 : s.cfgValid = true) (h2 : badLimbPosition i s.m2 = false) (h3 : p.minCols i.op s.m1 s.m2 ≤ s.ncols)
    (hb : body (s.env p) = .error c) : frame p i s body = .error c := by
  have e1 := constructionChecks_ok (e := s.env p) (i := i) h1 h2 h3
  simp [frame, e1, hb]

/-- The three ways a compute command ends: ignored under ABORT, completed, or a fault taken (rules R143, R401,
R405). -/
theorem perform_cases (p : Params) (i : Instr) (s : State) (body : Env → Except FaultCode BodyOut) :
    (s.abort = true ∧ perform p i s body = s)
    ∨ (s.abort = false ∧ ∃ t, frame p i s body = .ok t ∧ perform p i s body = t)
    ∨ (s.abort = false ∧ ∃ c, frame p i s body = .error c ∧ perform p i s body = s.raiseFault (encode i) c) := by
  unfold perform
  cases ha : s.abort
  · rw [unlessAborted_of_running ha]
    cases hf : frame p i s body with
    | ok t => exact .inr (.inl ⟨rfl, t, rfl, rfl⟩)
    | error c => exact .inr (.inr ⟨rfl, c, rfl, rfl⟩)
  · exact .inl ⟨rfl, unlessAborted_of_abort ha _⟩

theorem perform_of_ok {p : Params} {i : Instr} {s t : State} {body : Env → Except FaultCode BodyOut}
    (ha : s.abort = false) (h : frame p i s body = .ok t) : perform p i s body = t := by
  simp [perform, unlessAborted_of_running ha, h]

theorem perform_of_error {p : Params} {i : Instr} {s : State} {body : Env → Except FaultCode BodyOut} {c : FaultCode}
    (ha : s.abort = false) (h : frame p i s body = .error c) :
    perform p i s body = s.raiseFault (encode i) c := by
  simp [perform, unlessAborted_of_running ha, h]

/-- The result registers after a commit (rule R38). -/
@[simp] theorem loadResults_get (P : Nat) (results : List Int) (k : Fin 17) :
    (loadResults P results)[k] = (results[k.val]?).map (toF P) := by
  simp [loadResults]

/-- The cells of a slot are named by its names. -/
theorem slot_cells_names {values : List (Key × Int)} {s : Slot} {nv : Name × Int} (h : nv ∈ s.cells values) :
    nv.1 ∈ s.names := by
  unfold Slot.cells at h
  cases hv : valueOf values s.key with
  | none => simp [hv] at h
  | some v =>
    simp only [hv, List.mem_append, List.mem_map] at h
    unfold Slot.names
    rcases h with h | ⟨k, hk, rfl⟩
    · split at h
      · next hc => simp at h; simp [hc, h]
      · cases h
    · exact List.mem_append_right _ (List.mem_map.2 ⟨k, hk, rfl⟩)

/-- Every name a command writes is a name of its Witness list. -/
theorem witnessOf_names {e : Env} {op : Op} {values : List (Key × Int)} {nv : Name × Int}
    (h : nv ∈ witnessOf e op values) : nv.1 ∈ witnessNames e.p op e.m1 e.m2 := by
  obtain ⟨s, hs, hc⟩ := List.mem_flatMap.1 h
  exact List.mem_flatMap.2 ⟨s, hs, slot_cells_names hc⟩

/-- Every cell a command writes lies in its region (rules R72, R75). -/
theorem cellWrites_region {e : Env} {i : Instr} {start : Nat} {values : List (Key × Int)} {w : TraceEntry}
    (h : w ∈ cellWrites e i start values) : w.1 ∈ region e.p i.op e.m1 e.m2 e.nc start i.build := by
  obtain ⟨nv, hn, rfl⟩ := List.mem_map.1 h
  refine List.mem_map.2 ⟨nv.1, ?_, rfl⟩
  rcases List.mem_append.1 hn with hn | hn
  · exact List.mem_append_left _ (witnessOf_names hn)
  · refine List.mem_append_right _ ?_
    split at hn
    · next hb =>
      obtain ⟨c, hc, rfl⟩ := List.mem_map.1 hn
      simp only [hb, if_true]
      exact List.mem_map.2 ⟨c, hc, rfl⟩
    · cases hn

end Sys2Proof.Machine
end

