-- ==== Sys2Proof/Laws/Operands.lean ====
section
/-! SUPPORT. The operand forms: what each answers, and when it raises which fault. -/

namespace Sys2Proof.Machine

@[simp] theorem operand_some (v : Nat) : operand (some v) = .ok v := rfl

@[simp] theorem operand_none : operand none = .error .unset := rfl

theorem operand_eq_ok {r : Option Nat} {v : Nat} (h : operand r = .ok v) : r = some v := by
  cases r with
  | none => cases h
  | some w => exact congrArg some (Except.ok.inj h)

/-- `fxop` answers the signed value of a representable operand (rule R144). -/
theorem fxop_ok {e : Env} {v : Nat} (h : mag (sval e.p.P v) < e.bound) : fxop e v = .ok (sval e.p.P v) := by
  simp [fxop, Int.not_le.2 h]

/-- `fxop` raises RANGE on every other operand (rule R144). -/
theorem fxop_error {e : Env} {v : Nat} (h : e.bound ≤ mag (sval e.p.P v)) : fxop e v = .error .range := by
  simp [fxop, h]

theorem fxop_eq_ok {e : Env} {v : Nat} {x : Int} (h : fxop e v = .ok x) :
    x = sval e.p.P v ∧ mag (sval e.p.P v) < e.bound := by
  obtain ⟨_, h1, h2⟩ := except_bind_eq_ok h
  exact ⟨(Except.ok.inj h2).symm, by simpa using raiseIf_eq_ok h1⟩

/-- `check_result` passes a representable result (rule R145). -/
theorem checkResult_ok {e : Env} {z : Int} (h : mag z < e.bound) : checkResult e z = .ok () := by
  simp [checkResult, Int.not_le.2 h]

/-- `check_result` raises RANGE on every other result (rule R145). -/
theorem checkResult_error {e : Env} {z : Int} (h : e.bound ≤ mag z) : checkResult e z = .error .range := by
  simp [checkResult, h]

theorem checkResult_eq_ok {e : Env} {z : Int} {u : Unit} (h : checkResult e z = .ok u) : mag z < e.bound := by
  simpa using raiseIf_eq_ok h

/-- `DEC` answers the sign and the limbs of a value within its budget (rule R160). -/
theorem dec_ok {v : Int} {n : Nat} {u : Bool} (h1 : mag v < pow2 (16 * n)) (h2 : u = true → 0 ≤ v) :
    dec v n u = .ok ⟨sgn v, limbList n v⟩ := by
  have : (u && decide (v < 0)) = false := by
    cases u
    · rfl
    · simpa using h2 rfl
  simp [dec, Int.not_le.2 h1, this]

/-- `DEC` raises RANGE over its budget, before anything else (rule R160). -/
theorem dec_range {v : Int} {n : Nat} {u : Bool} (h : pow2 (16 * n) ≤ mag v) : dec v n u = .error .range := by
  simp [dec, h]

/-- Unsigned `DEC` raises NEGATIVE on a negative value within its budget (rule R160). -/
theorem dec_negative {v : Int} {n : Nat} (h1 : mag v < pow2 (16 * n)) (h2 : v < 0) :
    dec v n true = .error .negative := by
  simp [dec, Int.not_le.2 h1, h2]

theorem dec_eq_ok {v : Int} {n : Nat} {u : Bool} {d : Dec} (h : dec v n u = .ok d) :
    d = ⟨sgn v, limbList n v⟩ ∧ mag v < pow2 (16 * n) ∧ (u = true → 0 ≤ v) := by
  obtain ⟨_, h1, h⟩ := except_bind_eq_ok h
  obtain ⟨_, h2, h3⟩ := except_bind_eq_ok h
  refine ⟨(Except.ok.inj h3).symm, by simpa using raiseIf_eq_ok h1, fun hu => ?_⟩
  have := raiseIf_eq_ok h2
  rw [hu] at this; simpa using this

end Sys2Proof.Machine
end

