-- ==== Sys2Proof/Laws/Commands.lean ====
section
/-! SUPPORT. The frame of a compute command in terms of Safety.lean: a ready frame and an answering body give a
completed command; a faulting body gives the fault. -/

namespace Sys2Proof.Machine

/-- The names a slot writes are all of its names, or none. -/
theorem slot_cells_map (values : List (Key × Int)) (s : Slot) :
    (s.cells values).map Prod.fst = [] ∨ (s.cells values).map Prod.fst = s.names := by
  unfold Slot.cells
  cases valueOf values s.key with
  | none => exact .inl rfl
  | some v =>
    refine .inr ?_
    unfold Slot.names
    cases s.cell <;> simp [Function.comp_def]

theorem witnessOf_sublist (e : Env) (op : Op) (values : List (Key × Int)) :
    ((witnessOf e op values).map Prod.fst).Sublist (witnessNames e.p op e.m1 e.m2) := by
  unfold witnessOf witnessNames
  induction slots e.p op e.m1 e.m2 with
  | nil => exact List.Sublist.slnil
  | cons s rest ih =>
    simp only [List.flatMap_cons, List.map_append]
    refine List.Sublist.append ?_ ih
    rcases slot_cells_map values s with h | h <;> rw [h]
    exact List.nil_sublist _

theorem storedNames_sublist (p : Params) (i : Instr) (s : State) (values : List (Key × Int)) :
    ((storedNames p i s values).map Prod.fst).Sublist
      (witnessNames p i.op s.m1 s.m2 ++ constantNames p i.op s.m1 s.m2) := by
  unfold storedNames
  rw [List.map_append]
  refine List.Sublist.append (witnessOf_sublist (s.env p) i.op values) ?_
  split
  · simp [constantsOf, constantNames, State.env, Function.comp_def]
  · exact List.nil_sublist _

/-- The stored cells of one command are different cells (rule R71). -/
theorem stored_nodup {p : Params} {i : Instr} {s : State} (values : List (Key × Int))
    (h : LayoutFits p i.op s.m1 s.m2 s.ncols) :
    ((storedNames p i s values).map fun nv => nameCell p i s nv.1).Nodup := by
  have inj := h.injective
  have hs := storedNames_sublist p i s values
  have : ((witnessNames p i.op s.m1 s.m2 ++ constantNames p i.op s.m1 s.m2).map (nameCell p i s)).Nodup := by
    have e : nameCell p i s = (fun c : CellAddr => { c with row := s.row.toNat + c.row }) ∘
        p.layout i.op s.m1 s.m2 s.ncols := rfl
    rw [e, ← List.map_map]
    refine inj.map ?_
    rintro ⟨a, b, c⟩ ⟨a', b', c'⟩ hab
    simpa using hab
  have := this.sublist (hs.map (nameCell p i s))
  simpa [List.map_map, Function.comp_def] using this

theorem ncols_lt (s : State) : s.ncols < 256 := Nat.mod_lt _ (by norm_num)

/-- LAYOUT is as rule R71 says where a command is ready. -/
theorem FrameReady.layoutFits {p : Params} (hp : p.Valid) {i : Instr} {s : State} (h : FrameReady p i s) :
    LayoutFits p i.op s.m1 s.m2 s.ncols :=
  (hp.each _ _ h.m1 h.m2).layout _ _ h.columns (by have := ncols_lt s; omega)

/-- What a commit has done. -/
theorem commit_completed {p : Params} {i : Instr} {s : State} {out : BodyOut}
    (h : LayoutFits p i.op s.m1 s.m2 s.ncols) :
    Completed p i s out.results out.values (commit (s.env p) i s out) where
  res k := loadResults_get _ _ _
  resn := rfl
  ccnt := rfl
  cslog := rfl
  treq := rfl
  stored nv hn := by
    have nd := stored_nodup out.values h
    show Trace.read (Trace.writeAll s.trace (cellWrites (s.env p) i s.row.toNat out.values)) _ = _
    have hm : (nameCell p i s nv.1, toF p.P nv.2) ∈ cellWrites (s.env p) i s.row.toNat out.values :=
      List.mem_map.2 ⟨nv, hn, rfl⟩
    refine read_writeAll_mem _ _ ?_ hm
    simp only [cellWrites, List.map_map]
    exact nd
  elsewhere a ha := by
    refine read_writeAll_other _ _ ?_
    intro hm
    obtain ⟨e, he, rfl⟩ := List.mem_map.1 hm
    obtain ⟨nv, hn, rfl⟩ := List.mem_map.1 he
    exact ha nv hn rfl
  untouched := ⟨rfl, rfl, rfl, rfl, rfl, rfl, rfl, rfl, rfl⟩

/-- A ready frame, an answering body and sites that hold: the command completes (rule R143). -/
theorem perform_completed {p : Params} (hp : p.Valid) {i : Instr} {s : State}
    {body : Env → Except FaultCode BodyOut} {out : BodyOut} (h : FrameReady p i s) (hb : body (s.env p) = .ok out)
    (hs : (slots p i.op s.m1 s.m2).all (Slot.fits out.values) = true) :
    Completed p i s out.results out.values (perform p i s body) := by
  rw [perform_of_ok h.running (frame_ok h.configured h.position h.columns hb hs h.bounds h.free)]
  exact commit_completed (h.layoutFits hp)

/-- A ready frame whose body faults: the command takes that fault (rules R143, R401). -/
theorem perform_body_fault {p : Params} {i : Instr} {s : State} {body : Env → Except FaultCode BodyOut}
    {c : FaultCode} (h : FrameReady p i s) (hb : body (s.env p) = .error c) :
    perform p i s body = s.raiseFault (encode i) c :=
  perform_of_error h.running (frame_body_error h.configured h.position h.columns hb)

/-- `exec` of a compute command is `runs` in this machine's own configuration. -/
theorem exec_runs {i : Instr} (h : i.op.isCompute = true) (s : State) : exec i s = .next (runs Config.own i s) := by
  cases i <;> first | rfl | cases h

/-! ### `withBuild`: a command with its build bit set or cleared (rule R102) -/

@[simp] theorem withBuild_op (b : Bool) (i : Instr) : (i.withBuild b).op = i.op := by cases i <;> rfl
@[simp] theorem withBuild_badLimbPosition (b : Bool) (i : Instr) (m2 : Nat) :
    badLimbPosition (i.withBuild b) m2 = badLimbPosition i m2 := by cases i <;> rfl
theorem withBuild_build {i : Instr} (h : i.op.isCompute = true) (b : Bool) : (i.withBuild b).build = b := by
  cases i <;> first | rfl | cases h
@[simp] theorem withBuild_self (i : Instr) : i.withBuild i.build = i := by cases i <;> rfl

/-- A representable operand, read raw and as a fixed-point value (rules R143 step 5, R144). -/
theorem operand_fixed {p : Params} {s : State} {r : Option Nat} {x : Int} (h : HoldsFixed p s r x) :
    ∃ v, operand r = .ok v ∧ fxop (s.env p) v = .ok x := by
  obtain ⟨v, rfl, rfl, hx⟩ := h
  exact ⟨v, rfl, fxop_ok hx⟩

/-- The list of conditions decides: at most one answer. -/
theorem FirstFault.unique {l : FaultList} {r r' : Option FaultCode} (h : FirstFault l r) (h' : FirstFault l r') :
    r = r' := by
  induction l with
  | nil => exact h.trans h'.symm
  | cons c rest ih =>
    rcases h with ⟨hc, rfl⟩ | ⟨hc, h⟩ <;> rcases h' with ⟨hc', rfl⟩ | ⟨hc', h'⟩
    · rfl
    · exact absurd hc hc'
    · exact absurd hc' hc
    · exact ih h h'

/-- The list of conditions decides: some answer. -/
theorem FirstFault.exists (l : FaultList) : ∃ r, FirstFault l r := by
  induction l with
  | nil => exact ⟨none, rfl⟩
  | cons c rest ih =>
    obtain ⟨r, hr⟩ := ih
    by_cases hc : c.1
    · exact ⟨some c.2, .inl ⟨hc, rfl⟩⟩
    · exact ⟨r, .inr ⟨hc, hr⟩⟩

end Sys2Proof.Machine
end

