-- ==== Sys2Proof/Laws/Encoding.lean ====
section
/-! SUPPORT. The command word of an instruction as a number: the sum of its fields (rules R101, R120). -/

namespace Sys2Proof

theorem bit_le (b : Bool) : bit b ≤ 1 := by cases b <;> decide

theorem code_lt (op : Op) : op.code < 16 := by cases op <;> decide

/-- The op-specific bits are a multiple of 2^8 below 2^20. -/
theorem argBits_spec {i : Instr} (h : i.wf = true) : ∃ a, i.argBits = a * 2 ^ 8 ∧ a < 2 ^ 12 := by
  cases i with
  | config a b c =>
    simp only [Instr.wf, Bool.and_eq_true, decide_eq_true_eq] at h
    exact ⟨c + a * 2 ^ 8 + b * 2 ^ 10, by simp only [Instr.argBits]; omega, by omega⟩
  | decomp b n u =>
    simp only [Instr.wf, Bool.and_eq_true, decide_eq_true_eq] at h
    have := bit_le u
    exact ⟨(n - 1) + bit u * 2 ^ 4, by simp only [Instr.argBits]; omega, by omega⟩
  | tlut b j =>
    simp only [Instr.wf, decide_eq_true_eq] at h
    exact ⟨j, rfl, by omega⟩
  | _ => exact ⟨0, rfl, by norm_num⟩

/-- The command word of a well-formed instruction, as a number. -/
theorem encode_toNat {i : Instr} (h : i.wf = true) :
    (encode i).toNat = i.op.code + bit i.build * 2 ^ 5 + i.argBits ∧ (encode i).toNat < 2 ^ 20 := by
  obtain ⟨a, ha, hlt⟩ := argBits_spec h
  have h1 := code_lt i.op
  have h2 := bit_le i.build
  have e : (encode i).toNat = i.op.code + bit i.build * 2 ^ 5 + i.argBits := by
    rw [encode, BitVec.toNat_ofNat, Nat.mod_eq_of_lt]
    omega
  exact ⟨e, by omega⟩

end Sys2Proof
end

