-- ==== Sys2Proof/Laws/ExpLog.lean ====
section
/-! SUPPORT. The clip and LOG's search: `logLeast` is the least element of the set `Y` of rule R363. -/

namespace Sys2Proof.Machine

/-- Inside the window the clip is `EXP_FN` (rule R361). -/
theorem clip_inside {e : Env} {x : Int} (h1 : e.p.expLo e.m1 e.m2 ≤ x) (h2 : x ≤ e.p.expHi e.m1 e.m2) :
    clip e x = ⟨e.p.expFn e.m1 e.m2 x, 0, 0, 1⟩ := by
  simp [clip, ltFlag, gtFlag, flag, Int.not_lt.2 h1, Int.not_lt.2 h2]

/-- Below the window the clip is `EXP_MIN` with `lt` set (rule R361). -/
theorem clip_below {e : Env} {x : Int} (hw : e.p.expLo e.m1 e.m2 ≤ e.p.expHi e.m1 e.m2)
    (h : x < e.p.expLo e.m1 e.m2) : clip e x = ⟨e.p.expMin e.m1 e.m2, 1, 0, 0⟩ := by
  have : ¬ e.p.expHi e.m1 e.m2 < x := by omega
  simp [clip, ltFlag, gtFlag, flag, h, this]

/-- Above the window the clip is `EXP_MAX` with `gt` set (rule R361). -/
theorem clip_above {e : Env} {x : Int} (hw : e.p.expLo e.m1 e.m2 ≤ e.p.expHi e.m1 e.m2)
    (h : e.p.expHi e.m1 e.m2 < x) : clip e x = ⟨e.p.expMax e.m1 e.m2, 0, 1, 0⟩ := by
  have : ¬ x < e.p.expLo e.m1 e.m2 := by omega
  simp [clip, ltFlag, gtFlag, flag, h, this]

theorem leastFrom_spec (good : Int → Bool) (n : Nat) (lo : Int) :
    (∀ y, leastFrom good lo n = some y → lo ≤ y ∧ y < lo + n ∧ good y = true ∧ ∀ z, lo ≤ z → z < y → good z = false)
    ∧ (leastFrom good lo n = none → ∀ z, lo ≤ z → z < lo + n → good z = false) := by
  induction n generalizing lo with
  | zero => exact ⟨fun y h => (by cases h), fun _ z h1 h2 => by simp at h2; omega⟩
  | succ n ih =>
    unfold leastFrom
    split
    · next hg =>
      refine ⟨fun y h => ?_, fun h => by cases h⟩
      cases h
      exact ⟨le_rfl, by omega, hg, fun z h1 h2 => by omega⟩
    · next hg =>
      have hlo : good lo = false := by simpa using hg
      obtain ⟨h1, h2⟩ := ih (lo + 1)
      have low : ∀ z, lo ≤ z → ¬ lo + 1 ≤ z → good z = false := fun z a b => by
        rw [show z = lo by omega]; exact hlo
      refine ⟨fun y h => ?_, fun h z a b => ?_⟩
      · obtain ⟨a, b, c, d⟩ := h1 y h
        refine ⟨by omega, by push_cast; omega, c, fun z e f => ?_⟩
        by_cases hz : lo + 1 ≤ z
        · exact d z hz f
        · exact low z e hz
      · by_cases hz : lo + 1 ≤ z
        · exact h2 h z hz (by push_cast at b; omega)
        · exact low z a hz

/-- The least element of a range that satisfies a test, or that there is none. -/
theorem leastIn_spec (good : Int → Bool) (lo hi : Int) :
    (∀ y, leastIn good lo hi = some y → lo ≤ y ∧ y ≤ hi ∧ good y = true ∧ ∀ z, lo ≤ z → z < y → good z = false)
    ∧ (leastIn good lo hi = none → ∀ z, lo ≤ z → z ≤ hi → good z = false) := by
  obtain ⟨h1, h2⟩ := leastFrom_spec good (hi - lo + 1).toNat lo
  refine ⟨fun y h => ?_, fun h z a b => h2 h z a (by omega)⟩
  obtain ⟨a, b, c, d⟩ := h1 y h
  exact ⟨a, by omega, c, d⟩

/-- LOG's search finds the least element of `Y`, and answers `none` exactly when `Y` is empty. -/
theorem logLeast_spec {e : Env} (hw : e.p.expLo e.m1 e.m2 ≤ e.p.expHi e.m1 e.m2) (hb : 2 ≤ e.bound) (x : Int) :
    (∀ y, logLeast e x = some y → IsLeast (LogSet e x) y) ∧ (logLeast e x = none → LogSet e x = ∅) := by
  have low : ∀ y z, y < e.p.expLo e.m1 e.m2 → z < e.p.expLo e.m1 e.m2 → reaches e x y = reaches e x z := by
    intro y z hy hz; simp only [reaches, clip_below hw hy, clip_below hw hz]
  have high : ∀ y z, e.p.expHi e.m1 e.m2 < y → e.p.expHi e.m1 e.m2 < z → reaches e x y = reaches e x z := by
    intro y z hy hz; simp only [reaches, clip_above hw hy, clip_above hw hz]
  have mem : ∀ y, y ∈ LogSet e x ↔ -e.bound + 2 ≤ y ∧ y ≤ e.bound - 1 ∧ reaches e x y = true := by
    intro y; simp [LogSet, reaches]
  obtain ⟨sc1, sc2⟩ := leastIn_spec (reaches e x) (max (-e.bound + 2) (e.p.expLo e.m1 e.m2))
    (min (e.bound - 1) (e.p.expHi e.m1 e.m2))
  generalize hB : e.bound = B at *
  generalize hL : e.p.expLo e.m1 e.m2 = L at *
  generalize hH : e.p.expHi e.m1 e.m2 = H at *
  simp only [logLeast, hB, hL, hH]
  by_cases c1 : (decide (-B + 2 < L) && reaches e x (-B + 2)) = true
  · rw [if_pos c1]
    simp only [Bool.and_eq_true, decide_eq_true_eq] at c1
    refine ⟨fun y h => ?_, fun h => by cases h⟩
    cases h
    exact ⟨(mem _).2 ⟨le_rfl, by omega, c1.2⟩, fun z hz => ((mem z).1 hz).1⟩
  · rw [if_neg c1]
    have below : ∀ z, -B + 2 ≤ z → z < L → reaches e x z = false := by
      intro z h1 h2
      rw [low z (-B + 2) h2 (by omega)]
      have h3 : -B + 2 < L := by omega
      simpa [h3] using c1
    cases hs : leastIn (reaches e x) (max (-B + 2) L) (min (B - 1) H) with
    | some y =>
      obtain ⟨a, b, c, d⟩ := sc1 y hs
      refine ⟨fun y' h => ?_, fun h => by cases h⟩
      cases h
      refine ⟨(mem _).2 ⟨by omega, by omega, c⟩, fun z hz => ?_⟩
      obtain ⟨z1, _, z3⟩ := (mem z).1 hz
      by_contra hlt
      by_cases hzL : z < L
      · simp [below z z1 hzL] at z3
      · simp [d z (by omega) (by omega)] at z3
    | none =>
      have inwin : ∀ z, -B + 2 ≤ z → z ≤ B - 1 → z ≤ H → reaches e x z = false := by
        intro z h1 h2 h3
        by_cases hzL : z < L
        · exact below z h1 hzL
        · exact sc2 hs z (by omega) (by omega)
      by_cases c2 : (decide (max (-B + 2) (H + 1) ≤ B - 1) && reaches e x (max (-B + 2) (H + 1))) = true
      · simp only [c2, if_true]
        simp only [Bool.and_eq_true, decide_eq_true_eq] at c2
        refine ⟨fun y h => ?_, fun h => by cases h⟩
        cases h
        refine ⟨(mem _).2 ⟨by omega, c2.1, c2.2⟩, fun z hz => ?_⟩
        obtain ⟨z1, z2, z3⟩ := (mem z).1 hz
        by_contra hlt
        simp [inwin z z1 z2 (by omega)] at z3
      · simp only [c2]
        refine ⟨fun y h => (by cases h), fun _ => ?_⟩
        ext z
        simp only [Set.mem_empty_iff_false, iff_false]
        intro hz
        obtain ⟨z1, z2, z3⟩ := (mem z).1 hz
        by_cases hzH : z ≤ H
        · simp [inwin z z1 z2 hzH] at z3
        · have hle : max (-B + 2) (H + 1) ≤ B - 1 := by omega
          rw [high z (max (-B + 2) (H + 1)) (by omega) (by omega)] at z3
          exact c2 (by simp [hle, z3])

end Sys2Proof.Machine
end

