-- ==== Sys2Proof/Laws/Host.lean ====
section
/-! SUPPORT. The host's actions: the register map, and what each action answers, said once. -/

namespace Sys2Proof.Machine

/-- The register map lists CMD at 0x00 and the operand registers at 0x04–0x06 (rule R32). -/
@[simp] theorem ofAddr_cmd : Reg.ofAddr 0x00 = some .cmd := rfl
@[simp] theorem ofAddr_row : Reg.ofAddr 0x03 = some .row := rfl

@[simp] theorem ofAddr_freg (r : FReg) :
    Reg.ofAddr r.addr = some (match r with | .opa => .opa | .opb => .opb | .opc => .opc) := by
  cases r <;> rfl

/-- The result registers stand at 0x10 … 0x20 (rule R32). -/
@[simp] theorem ofAddr_res (k : Fin 17) : Reg.ofAddr (0x10 + k.val) = some (.res k) := by
  fin_cases k <;> rfl

theorem ofAddr_of_unlisted {addr : Nat} (h : Unlisted addr) : Reg.ofAddr addr = none := by
  have hno : ¬ (0x10 ≤ addr ∧ addr ≤ 0x20) := by unfold Unlisted at h; omega
  have hbig : 0x0A < addr := by unfold Unlisted at h; omega
  unfold Reg.ofAddr
  split
  case h_12 => exact dif_neg hno
  all_goals exact absurd hbig (by decide)

/-- A register that holds a value is listed, is not CMD, and reads as that value. -/
theorem State.HoldsAt.readReg {s : State} {addr : Nat} {v : HostValue} (h : s.HoldsAt addr v) :
    ∃ r, Reg.ofAddr addr = some r ∧ r ≠ .cmd ∧ s.readReg r = some v := by
  rcases h with h | ⟨x, rfl, h⟩ | ⟨k, x, rfl, rfl, h⟩
  · simp only [List.mem_cons, Prod.mk.injEq, List.not_mem_nil, or_false] at h
    rcases h with ⟨rfl, rfl⟩ | ⟨rfl, rfl⟩ | ⟨rfl, rfl⟩ | ⟨rfl, rfl⟩ | ⟨rfl, rfl⟩ | ⟨rfl, rfl⟩ | ⟨rfl, rfl⟩
    · exact ⟨.status, rfl, nofun, rfl⟩
    · exact ⟨.cfg, rfl, nofun, rfl⟩
    · exact ⟨.row, rfl, nofun, rfl⟩
    · exact ⟨.resn, rfl, nofun, rfl⟩
    · exact ⟨.fcmd, rfl, nofun, rfl⟩
    · exact ⟨.treq, rfl, nofun, rfl⟩
    · exact ⟨.ccnt, rfl, nofun, rfl⟩
  · rcases h with ⟨rfl, h⟩ | ⟨rfl, h⟩ | ⟨rfl, h⟩
    · exact ⟨.opa, rfl, nofun, by simp [State.readReg, h]⟩
    · exact ⟨.opb, rfl, nofun, by simp [State.readReg, h]⟩
    · exact ⟨.opc, rfl, nofun, by simp [State.readReg, h]⟩
  · exact ⟨_, ofAddr_res k, nofun, by simp [State.readReg, h]⟩

/-- A register that holds `⊥` is listed, is not CMD, and has no value. -/
theorem State.HoldsNone.readReg {s : State} {addr : Nat} (h : s.HoldsNone addr) :
    ∃ r, Reg.ofAddr addr = some r ∧ r ≠ .cmd ∧ s.readReg r = none := by
  rcases h with ⟨rfl, h⟩ | ⟨rfl, h⟩ | ⟨rfl, h⟩ | ⟨k, rfl, h⟩
  · exact ⟨.opa, rfl, nofun, by simp [State.readReg, h]⟩
  · exact ⟨.opb, rfl, nofun, by simp [State.readReg, h]⟩
  · exact ⟨.opc, rfl, nofun, by simp [State.readReg, h]⟩
  · exact ⟨_, ofAddr_res k, nofun, by simp [State.readReg, h]⟩

/-- The grid test is the geometry of rule R70. -/
theorem inGrid_iff {p : Params} {a : CellAddr} : inGrid p a = true ↔ ¬ OutsideGrid p a := by
  obtain ⟨cls, col, row⟩ := a
  cases cls <;> simp [inGrid, OutsideGrid]

/-- A write of an operand register stores the field image (rule R120). -/
@[simp] theorem hostWrite_freg (p : Params) (r : FReg) (value : Int) (s : State) :
    hostWrite p r.addr value s = .next (s.setF r (toF p.P value)) := by
  cases r <;> rfl

/-- A write of CMD performs the word (rule R33). -/
@[simp] theorem hostWrite_cmd (p : Params) (value : Int) (s : State) :
    hostWrite p 0x00 value s = performWord (wordOf value) s := rfl

/-- A write of ROW stores the integer modulo 2^32 (rule R120). -/
@[simp] theorem hostWrite_row (p : Params) (value : Int) (s : State) :
    hostWrite p 0x03 value s = .next { s with row := wordOf value } := rfl

theorem hostRead_of_value {addr : Nat} {r : Reg} {v : HostValue} {s : State} (h : Reg.ofAddr addr = some r)
    (hr : r ≠ .cmd) (hv : s.readReg r = some v) : hostRead addr s = .next (s.observe v) := by
  cases r <;> first | exact absurd rfl hr | simp [hostRead, h, hv]

theorem hostRead_of_none {addr : Nat} {r : Reg} {s : State} (h : Reg.ofAddr addr = some r) (hr : r ≠ .cmd)
    (hv : s.readReg r = none) : hostRead addr s = .fault (.hostReadUnassigned addr) := by
  cases r <;> first | exact absurd rfl hr | simp [hostRead, h, hv]

/-- `cp` is the read and the write of the value read (rule R122). -/
theorem hostCp_of_value {p : Params} {reg : FReg} {addr : Nat} {r : Reg} {v : HostValue} {s : State}
    (h : Reg.ofAddr addr = some r) (hr : r ≠ .cmd) (hv : s.readReg r = some v) :
    hostCp p reg addr s = .next ((s.observe v).setF reg (toF p.P v.toInt)) := by
  cases r <;> first | exact absurd rfl hr | simp [hostCp, h, hv]

theorem hostCp_of_none {p : Params} {reg : FReg} {addr : Nat} {r : Reg} {s : State} (h : Reg.ofAddr addr = some r)
    (hr : r ≠ .cmd) (hv : s.readReg r = none) : hostCp p reg addr s = .refused (.cpNoValue addr) := by
  cases r <;> first | exact absurd rfl hr | simp [hostCp, h, hv]

theorem performWord_of_ok {w : Word} {i : Instr} (h : decode w = .ok i) (s : State) : performWord w s = exec i s := by
  simp [performWord, h]

theorem performWord_of_error {w : Word} {r : Reject} (h : decode w = .error r) (s : State) :
    performWord w s = .next (s.unlessAborted (s.raiseFault w .illegal)) := by
  simp [performWord, h]

/-- One step, by the next line of the host program. -/
theorem stepOn_cons {p : Params} {s : State} {h : HostEvent} {rest : List HostEvent} (hh : s.host = h :: rest) :
    stepOn p s = hostEvent p h (s.afterLine rest) := by
  simp [stepOn, hh]

theorem stepOn_nil {p : Params} {s : State} (hh : s.host = []) : stepOn p s = .next s := by
  simp [stepOn, hh]

/-- A host action other than a CMD write that goes on: an operand or ROW written, a value observed, or a reset. The
unit's other state is as before (rules R36, R37, R81). -/
theorem hostEvent_cases {p : Params} {h : HostEvent} {s t : State} (ht : hostEvent p h s = .next t)
    (hc : ∀ value, h ≠ .write 0x00 value) :
    t = s ∨ (∃ v, t = s.observe v) ∨ (∃ w, t = { s with row := w })
      ∨ (∃ r value, t = s.setF r (toF p.P value)) ∨ (∃ v r value, t = (s.observe v).setF r (toF p.P value))
      ∨ t = s.resetUnit := by
  have wr : ∀ (addr : Nat) (value : Int) (s t : State), addr ≠ 0 → hostWrite p addr value s = .next t →
      (∃ w, t = { s with row := w }) ∨ ∃ r value, t = s.setF r (toF p.P value) := by
    intro addr value s t h0 h
    unfold hostWrite at h
    split at h
    · cases h
    · next hcmd =>
      exfalso; unfold Reg.ofAddr at hcmd
      split at hcmd <;> first | exact h0 rfl | cases hcmd | (split at hcmd <;> cases hcmd)
    · cases h; exact .inl ⟨_, rfl⟩
    · cases h; exact .inr ⟨.opa, value, rfl⟩
    · cases h; exact .inr ⟨.opb, value, rfl⟩
    · cases h; exact .inr ⟨.opc, value, rfl⟩
    all_goals cases h
  cases h with
  | write addr value =>
    have h0 : addr ≠ 0 := fun e => hc value (by rw [e])
    rcases wr addr value s t h0 ht with h | h
    · exact .inr (.inr (.inl h))
    · exact .inr (.inr (.inr (.inl h)))
  | read addr =>
    simp only [hostEvent, hostRead] at ht
    split at ht
    · cases ht
    · cases ht
    · split at ht
      · cases ht; exact .inr (.inl ⟨_, rfl⟩)
      · cases ht
  | readCell a =>
    simp only [hostEvent, hostReadCell] at ht
    split at ht
    · split at ht
      · cases ht; exact .inr (.inl ⟨_, rfl⟩)
      · cases ht
    · cases ht
  | writeCell a value => cases ht
  | fx reg num den =>
    simp only [hostEvent, hostFx, hostWrite_freg] at ht
    split at ht
    · cases ht
    · split at ht
      · cases ht; exact .inr (.inr (.inr (.inl ⟨_, _, rfl⟩)))
      · cases ht
  | cp reg addr =>
    simp only [hostEvent, hostCp, hostWrite_freg] at ht
    split at ht
    · cases ht
    · cases ht
    · split at ht
      · cases ht; exact .inr (.inr (.inr (.inr (.inl ⟨_, _, _, rfl⟩))))
      · cases ht
  | wait => cases ht; exact .inl rfl
  | reset => cases ht; exact .inr (.inr (.inr (.inr (.inr rfl))))

end Sys2Proof.Machine
end

