-- ==== Sys2Proof/Laws/PerInstr.lean ====
section
/-! SUPPORT. One lemma per command: the OP and B fields of its word read back, and the reserved bits 7:6 and 31:20 are
0 (30_encoding.md rules R101, R102, R104). -/

namespace Sys2Proof.Laws.EncodedFields

/-- The word of a well-formed command carries its opcode and its build bit and no reserved bit. -/
def Statement (i : Instr) : Prop :=
  i.wf = true →
    (encode i).opField = i.op.code ∧ (encode i).buildField = i.build ∧ (encode i).bits 6 2 = 0
      ∧ (encode i).bits 20 12 = 0

theorem of_wf (i : Instr) : Statement i := by
  intro h
  obtain ⟨a, ha, hlt⟩ := argBits_spec h
  obtain ⟨e, h20⟩ := encode_toNat h
  have h1 := code_lt i.op
  have h2 := bit_le i.build
  have hb : (bit i.build == 1) = i.build := by cases i.build <;> rfl
  refine ⟨?_, ?_, ?_, ?_⟩
  · simp only [Word.opField, Word.bits]; omega
  · have : (encode i).bits 5 1 = bit i.build := by simp only [Word.bits]; omega
    rw [Word.buildField, this, hb]
  · simp only [Word.bits]; omega
  · simp only [Word.bits]; omega

theorem nop : Statement .nop := of_wf _
theorem config (cm1 cm2 ncols : Nat) : Statement (.config cm1 cm2 ncols) := of_wf _
theorem range16 (b : Bool) : Statement (.range16 b) := of_wf _
theorem decomp (b : Bool) (n : Nat) (u : Bool) : Statement (.decomp b n u) := of_wf _
theorem rdiv (b : Bool) : Statement (.rdiv b) := of_wf _
theorem divp (b : Bool) : Statement (.divp b) := of_wf _
theorem sqrt (b : Bool) : Statement (.sqrt b) := of_wf _
theorem sqrtf (b : Bool) : Statement (.sqrtf b) := of_wf _
theorem atan (b : Bool) : Statement (.atan b) := of_wf _
theorem rem (b : Bool) : Statement (.rem b) := of_wf _
theorem tlut (b : Bool) (j : Nat) : Statement (.tlut b j) := of_wf _
theorem sin (b : Bool) : Statement (.sin b) := of_wf _
theorem cos (b : Bool) : Statement (.cos b) := of_wf _
theorem tan (b : Bool) : Statement (.tan b) := of_wf _
theorem expr (b : Bool) : Statement (.expr b) := of_wf _
theorem log (b : Bool) : Statement (.log b) := of_wf _

end Sys2Proof.Laws.EncodedFields
end

