-- ==== Sys2Proof/Tests/Slice0.lean ====
section
/-! SUPPORT. Tests. Expected values come from 95_test_vectors.md and from the examples and corner cases of the command
rules; each comment names the place. Tests of computed values use `Params.reference`, which holds the spec's test-vector
defaults. The last part shows, for each obligation with hypotheses, a state and operands that meet them. -/

namespace Sys2Proof.Tests

open Sys2Proof.Machine

-- one theorem at a time: a thread for each would exceed the memory limit of a check
set_option Elab.async false

/-! ## WellFormed refuses each ill-formed field (30_encoding.md rule R103) -/

theorem test_wf_config_m1 : (Instr.config 4 1 0).wf = false := by decide
theorem test_wf_config_m2 : (Instr.config 1 4 0).wf = false := by decide
theorem test_wf_config_ncols : (Instr.config 1 1 256).wf = false := by decide
theorem test_wf_decomp_low : (Instr.decomp false 0 false).wf = false := by decide
theorem test_wf_decomp_high : (Instr.decomp false 17 false).wf = false := by decide
theorem test_wf_tlut : (Instr.tlut false 4).wf = false := by decide

/-! ## Decoding: one word per command, written out from rules R101, R103, R104 -/

-- every bit 0 (rule R140)
theorem test_decode_nop : decode 0b00000000000000000000000000000000#32 = .ok .nop := by decide
-- bits 19:18 CM2 = 1, 17:16 CM1 = 1, 15:8 NCOLS = 15, OP 1 (rule R141's example 0x0005_0F01)
theorem test_decode_config : decode 0b00000000000001010000111100000001#32 = .ok (.config 1 1 15) := by decide
-- CM1 = 3 is a legal encoding (rule R105)
theorem test_decode_config_three : decode 0x00070F01#32 = .ok (.config 3 1 15) := by decide
theorem test_decode_range16 : decode 0b00000000000000000000000000000010#32 = .ok (.range16 false) := by decide
-- bit 12 U = 1, bits 11:8 NM1 = 15, bit 5 B = 1, OP 3
theorem test_decode_decomp : decode 0b00000000000000000001111100100011#32 = .ok (.decomp true 16 true) := by decide
theorem test_decode_rdiv : decode 0b00000000000000000000000000000100#32 = .ok (.rdiv false) := by decide
theorem test_decode_divp : decode 0b00000000000000000000000000100101#32 = .ok (.divp true) := by decide
theorem test_decode_sqrt : decode 0b00000000000000000000000000000110#32 = .ok (.sqrt false) := by decide
theorem test_decode_sqrtf : decode 0b00000000000000000000000000100111#32 = .ok (.sqrtf true) := by decide
theorem test_decode_atan : decode 0b00000000000000000000000000001000#32 = .ok (.atan false) := by decide
theorem test_decode_rem : decode 0b00000000000000000000000000101001#32 = .ok (.rem true) := by decide
-- bits 9:8 J = 2, OP 0x0A (95_test_vectors.md L2.9: 0x0000_020A)
theorem test_decode_tlut : decode 0b00000000000000000000001000001010#32 = .ok (.tlut false 2) := by decide
theorem test_decode_sin : decode 0b00000000000000000000000000001011#32 = .ok (.sin false) := by decide
theorem test_decode_cos : decode 0b00000000000000000000000000101100#32 = .ok (.cos true) := by decide
theorem test_decode_tan : decode 0b00000000000000000000000000001101#32 = .ok (.tan false) := by decide
theorem test_decode_expr : decode 0b00000000000000000000000000001110#32 = .ok (.expr false) := by decide
theorem test_decode_log : decode 0b00000000000000000000000000101111#32 = .ok (.log true) := by decide

-- one word for each test of rule R105 that rejects (the first five are rows of 95_test_vectors.md L2.9)
theorem test_reject_nop_build : decode 0x00000020#32 = .error .buildBit := by decide
theorem test_reject_opcode : decode 0x00000010#32 = .error .reservedOpcode := by decide
theorem test_reject_bit20 : decode 0x00100006#32 = .error .reservedBits := by decide
theorem test_reject_cm1 : decode 0x00010006#32 = .error .configBits := by decide
theorem test_reject_arg : decode 0x00000106#32 = .error .argBits := by decide
theorem test_reject_bit6 : decode 0x00000046#32 = .error .reservedBits := by decide
theorem test_reject_config_build : decode 0x00050F21#32 = .error .buildBit := by decide
theorem test_reject_decomp_arg : decode 0x00002003#32 = .error .argBits := by decide
theorem test_reject_tlut_arg : decode 0x0000040A#32 = .error .argBits := by decide

/-! ## States of the tests -/

/-- The test-vector defaults. -/
def ref : Params := Params.reference

/-- `i mod P` for the reference modulus. -/
def el (i : Int) : Nat := toF ref.P i

/-- Configured with 255 columns, ROW 0, an empty trace, and these operands. -/
def st (m1 m2 : Nat) (a b c : Option Nat) : State :=
  { State.reset with cfg := cfgWord m1 m2 255, opa := a, opb := b, opc := c }

/-- The same with one operand. -/
def st1 (m1 m2 : Nat) (x : Int) : State := st m1 m2 (some (el x)) none none

/-- RES0, RES1, RES2 and RESN. -/
def results3 (s : State) : Option Nat × Option Nat × Option Nat × Nat := (s.res[0], s.res[1], s.res[2], s.resn.toNat)

/-! ## The commands, in the table's order -/

-- R140: from reset, `nop` leaves every register at its reset value except CCNT = 1
theorem test_nop : exec .nop State.reset = .next { State.reset with ccnt := 1 } := by rfl
-- R141: `config m1=1, m2=1, ncols=15` sets CFG = 0x0001_0F05
theorem test_config : exec (.config 1 1 15) State.reset = .next { State.reset with cfg := 0x00010F05#32, ccnt := 1 } := by
  rfl
-- 95_test_vectors.md L2.9: `config m1=0, m2=1, ncols=15`
theorem test_config_invalid :
    exec (.config 0 1 15) State.reset = .next { State.reset with status := 0x102#32, fcmd := 0x00040F01#32 } := by rfl
-- R164
theorem test_range16_in : results3 (range16On ref false (st1 1 1 65535)) = (some 1, none, none, 1) := by decide +kernel
theorem test_range16_out : results3 (range16On ref false (st1 1 1 (-1))) = (some 0, none, none, 1) := by decide +kernel
-- R165: OPA = toF(−0x1_2345), `decomp n=2`
theorem test_decomp : (decompOn ref false 2 false (st1 1 1 (-0x12345))).res.toList.take 6 =
    [some (el (-1)), some 0x2345, some 1, some 0, some 0, none] := by decide +kernel
-- R165: `v = −1` with `U = 1` raises NEGATIVE
theorem test_decomp_negative : (decompOn ref false 2 true (st1 1 1 (-1))).status = 0x107#32 := by decide +kernel
-- R192: RDIV(7, 2) → 4, 0 and RDIV(−4, 3) → −1, 0
theorem test_rdiv : results3 (rdivOn ref false (st 1 1 (some 7) (some 2) none)) = (some 4, some 0, none, 2) := by
  decide +kernel
theorem test_rdiv_negative :
    results3 (rdivOn ref false (st 1 1 (some (el (-4))) (some 3) none)) = (some (el (-1)), some 0, none, 2) := by
  decide +kernel
-- R194: 1.0 / 2.0, and the tie DIVP(1, 2δ) → 1
theorem test_divp : results3 (divpOn ref false (st 1 1 (some 65536) (some 131072) none)) = (some 32768, none, none, 1) := by
  decide +kernel
theorem test_divp_tie : results3 (divpOn ref false (st 1 1 (some 1) (some 131072) none)) = (some 1, none, none, 1) := by
  decide +kernel
-- R222: SQRT(2δ) → 92682, 1; x = 65535 rounds down
theorem test_sqrt : results3 (sqrtOn ref false (st1 1 1 131072)) = (some 92682, some 1, none, 2) := by decide +kernel
theorem test_sqrt_down : results3 (sqrtOn ref false (st1 1 1 65535)) = (some 65535, some 0, none, 2) := by decide +kernel
-- R223: SQRTF(3δ) → 113511; `m1 = m2 = 2`, x = 2^64 − 1 gives 2^48 − 1
theorem test_sqrtf : results3 (sqrtfOn ref false (st1 1 1 196608)) = (some 113511, none, none, 1) := by decide +kernel
theorem test_sqrtf_wide :
    results3 (sqrtfOn ref false (st1 2 2 (2 ^ 64 - 1))) = (some (2 ^ 48 - 1), none, none, 1) := by decide +kernel
-- R258: ATAN(δ) → 51474, 0, 1; ATAN(−(B − 1)) → −102943
theorem test_atan : results3 (atanOn ref false (st1 1 1 65536)) = (some 51474, some 0, some 1, 3) := by decide +kernel
theorem test_atan_low :
    results3 (atanOn ref false (st1 1 1 (-4294967295))) = (some (el (-102943)), some 1, some 0, 3) := by decide +kernel
-- R291: REM(7δ, −2δ) → −δ, −4; REM(3, 2δ, 65536) → δ, 1
theorem test_rem : results3 (remOn ref false (st 1 1 (some 458752) (some (el (-131072))) (some 1))) =
    (some (el (-65536)), some (el (-4)), none, 2) := by decide +kernel
theorem test_rem_scaled : results3 (remOn ref false (st 1 1 (some 3) (some 131072) (some 65536))) =
    (some 65536, some 1, none, 2) := by decide +kernel
-- R312: J = 1, k = 3 → (9248, P − 64880); J = 2 with m2 = 1 faults ILLEGAL
theorem test_tlut : results3 (tlutOn ref false 1 (st1 1 1 3)) = (some 9248, some (el (-64880)), none, 2) := by
  decide +kernel
theorem test_tlut_illegal : (tlutOn ref false 2 (st1 1 1 1)).status = 0x101#32 := by decide +kernel
-- R320: SIN(δ) → 55147, SIN(−δ) → −55147
theorem test_sin : results3 (sinOn ref false (st1 1 1 65536)) = (some 55147, none, none, 1) := by decide +kernel
theorem test_sin_odd : results3 (sinOn ref false (st1 1 1 (-65536))) = (some (el (-55147)), none, none, 1) := by
  decide +kernel
-- R321: COS(−δ) → 35409; `m1 = 1, m2 = 2`, x = 2^32 → 2320580734
theorem test_cos : results3 (cosOn ref false (st1 1 1 (-65536))) = (some 35409, none, none, 1) := by decide +kernel
theorem test_cos_wide : results3 (cosOn ref false (st1 1 2 (2 ^ 32))) = (some 2320580734, none, none, 1) := by
  decide +kernel
-- R323: TAN(−δ) → −102068; `m1 = 1, m2 = 2`, x = 2^32 → 6689015242
theorem test_tan : results3 (tanOn ref false (st1 1 1 (-65536))) = (some (el (-102068)), none, none, 1) := by
  decide +kernel
theorem test_tan_wide : results3 (tanOn ref false (st1 1 2 (2 ^ 32))) = (some 6689015242, none, none, 1) := by
  decide +kernel
-- R362: EXPR(720896) → (3923911751, 0, 0), EXPR(−720897) → (0, 1, 0)
theorem test_expr : results3 (exprOn ref false (st1 1 1 720896)) = (some 3923911751, some 0, some 0, 3) := by
  decide +kernel
theorem test_expr_below : results3 (exprOn ref false (st1 1 1 (-720897))) = (some 0, some 1, some 0, 3) := by
  decide +kernel
-- R363: LOG(1) → −720896; LOG(0) faults NEGATIVE
theorem test_log : results3 (logOn ref false (st1 1 1 1)) = (some (el (-720896)), none, none, 1) := by decide +kernel
theorem test_log_zero : (logOn ref false (st1 1 1 0)).status = 0x107#32 := by decide +kernel

/-! ## Frame, building and faults -/

/-- A state after `sqrt.b` in row 3. -/
def built : State := sqrtOn ref true { st1 1 1 4 with row := 3#32 }

-- R46, R40, R102: `sqrt.b` appends its record and sets TREQ.RANGE
theorem test_build_record : built.cslog = [⟨0x26#32, 3#32, 1, 1, 255⟩] ∧ built.treq = 1#32 := by decide +kernel
-- R75: the name `y` of SQRT(4) holds 512 (95_test_vectors.md L2.9: RES0 = 512)
theorem test_build_cell :
    Trace.read built.trace (cellOf ref .sqrt 1 1 255 3 ⟨⟨.own, .y⟩, .whole⟩) = some 512 := by decide +kernel
-- 95_test_vectors.md L2.9: the same ROW again faults TRACE_OVERLAP, and RES0 = 512 still
theorem test_overlap : (sqrtOn ref false built).status = 0x10A#32 ∧ (sqrtOn ref false built).res[0] = some 512 := by
  decide +kernel
-- 95_test_vectors.md L2.9: ROW = 0xFFFF_FFFF faults TRACE_BOUNDS
theorem test_bounds : (sqrtOn ref false { st1 1 1 4 with row := 0xFFFFFFFF#32 }).status = 0x109#32 := by decide +kernel
-- 95_test_vectors.md L2.9: `rem` with OPC = ⊥ faults UNSET
theorem test_unset : (remOn ref false (st 1 1 (some 0) (some 1) none)).status = 0x104#32 := by decide +kernel
-- R403: RDIV with y = 0 and |x| ≥ B raises RANGE; REM with y = 0 and x_scaler = 0 raises DIVISOR
theorem test_order_rdiv : (rdivOn ref false (st 1 1 (some (2 ^ 32)) (some 0) none)).status = 0x105#32 := by decide +kernel
theorem test_order_rem : (remOn ref false (st 1 1 (some 1) (some 0) (some 0))).status = 0x106#32 := by decide +kernel

/-! ## Steps -/

-- 95_test_vectors.md L2.9: `sqrt` before CONFIG faults CFG_INVALID
theorem test_step_unconfigured : step (State.reset.withFetchWord 32 0x6) =
    .next { State.reset with status := 0x102#32, fcmd := 0x6#32 } := by rfl
-- 95_test_vectors.md L2.9: word 0x0000_0020
theorem test_step_illegal : step (State.reset.withFetchWord 32 0x20) =
    .next { State.reset with status := 0x101#32, fcmd := 0x20#32 } := by rfl
-- R405: a NOP under ABORT does not count
theorem test_step_abort :
    step ({ State.reset with status := 0x101#32, fcmd := 0x20#32 }.withFetchWord 32 0) =
      .next { State.reset with status := 0x101#32, fcmd := 0x20#32 } := by rfl

/-! ## Witnesses: states and operands that meet the hypotheses of the obligations -/

/-- The reference configuration, one of the `c : Config` of the obligations. -/
def cref : Config := .reference

/-- `FrameReady` as a test. -/
def ready (p : Params) (i : Instr) (s : State) : Bool :=
  !s.abort && s.cfgValid && (s.m1 == 1 || s.m1 == 2) && (s.m2 == 1 || s.m2 == 2) && !badLimbPosition i s.m2
    && decide (p.minCols i.op s.m1 s.m2 ≤ s.ncols)
    && decide (s.row.toNat + rows p i.op s.m1 s.m2 s.ncols ≤ p.traceRows)
    && !Trace.overlaps s.trace (region p i.op s.m1 s.m2 s.ncols s.row.toNat i.build)

theorem frameReady_of_ready {p : Params} {i : Instr} {s : State} (h : ready p i s = true) : FrameReady p i s := by
  simp only [ready, Bool.and_eq_true, Bool.or_eq_true, Bool.not_eq_true', beq_iff_eq, decide_eq_true_eq] at h
  obtain ⟨⟨⟨⟨⟨⟨⟨h1, h2⟩, h3⟩, h4⟩, h5⟩, h6⟩, h7⟩, h8⟩ := h
  exact ⟨h1, h2, h3, h4, h5, h6, h7, h8⟩

theorem holdsFixed_of {p : Params} {s : State} {v : Nat} {x : Int}
    (h : (sval p.P v == x && decide (mag x < bound s.m1 s.m2)) = true) : HoldsFixed p s (some v) x := by
  simp only [Bool.and_eq_true, beq_iff_eq, decide_eq_true_eq] at h
  exact ⟨v, rfl, h.1, h.2⟩

/-! Encoding and host. -/

theorem witness_DecodeOfEncode : (Instr.decomp true 16 true).wf = true := by decide
theorem witness_EveryCommandHasOneWord : decode 0x00001F23#32 = .ok (.decomp true 16 true) := by decide
theorem witness_RejectedWordsAreIllegal : State.reset.abort = false ∧ ∃ r, decode 0x00000020#32 = .error r :=
  ⟨by decide, _, test_reject_nop_build⟩
theorem witness_StepRunsTheDecodedCommand :
    (State.reset.withFetchWord 32 0x26).host = [.write 0x00 0x26] ∧ decode (BitVec.ofInt 32 0x26) = .ok (.sqrt true) := by
  decide
/-- A state whose host program is one line. -/
def hosting (h : HostEvent) : State := { st 1 1 (some 7) none none with host := [h], res := loadResults ref.P [5] }
theorem witness_HostWritesOperandsAndRow : (hosting (.write 0x03 (-1))).host = [.write 0x03 (-1)]
    ∧ (hosting (.write 0x04 (-1))).host = [.write 0x04 (-1)] ∧ (hosting (.write 0x05 0)).host = [.write 0x05 0]
    ∧ (hosting (.write 0x06 5)).host = [.write 0x06 5] := ⟨rfl, rfl, rfl, rfl⟩
/-- Every clause of `State.HoldsAt`: the last u32 register, an operand register, a result register. -/
theorem witness_HostReadsObserveOnly_register :
    (hosting (.read 0x0A)).HoldsAt 0x0A (.word 0) ∧ (hosting (.read 0x04)).HoldsAt 0x04 (.elem 7)
    ∧ (hosting (.read 0x10)).HoldsAt 0x10 (.elem 5) :=
  ⟨.inl (by decide), .inr (.inl ⟨7, rfl, .inl ⟨rfl, rfl⟩⟩), .inr (.inr ⟨0, 5, rfl, rfl, by decide +kernel⟩)⟩
theorem rowZero_inGrid (p : Params) (h : p.Valid) : ¬ OutsideGrid p ⟨.witness, 0, 0⟩ := by
  have := h.traceRows
  simp [OutsideGrid]; omega
theorem witness_HostReadsObserveOnly_cell : ¬ OutsideGrid Config.own ⟨.witness, 0, 0⟩
    ∧ Trace.read ({ hosting (.readCell ⟨.witness, 0, 0⟩) with trace := [(⟨.witness, 0, 0⟩, 9)] } : State).trace
        ⟨.witness, 0, 0⟩ = some 9 := ⟨rowZero_inGrid _ Config.own_valid, rfl⟩
/-- Both ends of the two unlisted ranges. -/
theorem witness_HostErrorsStop_unlisted : (hosting (.read 0x21)).host = [.read 0x21]
    ∧ Unlisted 0x0B ∧ Unlisted 0x0F ∧ Unlisted 0x21 ∧ ¬ Unlisted 0x0A ∧ ¬ Unlisted 0x10 ∧ ¬ Unlisted 0x20 := by
  refine ⟨rfl, ?_⟩; unfold Unlisted; omega
theorem witness_HostErrorsStop_readOnly : (hosting (.write 0x20 1)).host = [.write 0x20 1]
    ∧ (hosting (.write 0x01 1)).host = [.write 0x01 1] := ⟨rfl, rfl⟩
theorem witness_HostErrorsStop_none : (st 1 1 none none none).HoldsNone 0x04 ∧ (hosting (.read 0x05)).HoldsNone 0x05
    ∧ (hosting (.cp .opa 0x06)).HoldsNone 0x06 ∧ (hosting (.read 0x20)).HoldsNone 0x20 :=
  ⟨.inl ⟨rfl, rfl⟩, .inr (.inl ⟨rfl, rfl⟩), .inr (.inr (.inl ⟨rfl, rfl⟩)),
    .inr (.inr (.inr ⟨16, rfl, by decide +kernel⟩))⟩
/-- Cell `(W0, 0)` exists in every configuration and `(W255, 0)` in none (rule R70). -/
theorem witness_HostErrorsStop_cell : ¬ OutsideGrid Config.own ⟨.witness, 0, 0⟩
    ∧ Trace.read (hosting (.readCell ⟨.witness, 0, 0⟩)).trace ⟨.witness, 0, 0⟩ = none
    ∧ OutsideGrid Config.own ⟨.witness, 255, 0⟩ :=
  ⟨rowZero_inGrid _ Config.own_valid, rfl, .inr (.inl ⟨rfl, le_rfl⟩)⟩
theorem witness_HostErrorsStop_fx : (hosting (.fx .opc 1 0)).host = [.fx .opc 1 0]
    ∧ ({ State.reset with host := [.fx .opa 1 2] } : State).cfgValid = false := by decide +kernel
theorem witness_PseudoInstructionsAndIdle_fx : (hosting (.fx .opa 1 2)).cfgValid = true
    ∧ 2 * ((32768 : Int) * 2) ≤ 2 * (1 * delta (hosting (.fx .opa 1 2)).m2) + 2
    ∧ 2 * (1 * delta (hosting (.fx .opa 1 2)).m2) + 2 < 2 * ((32768 : Int) * 2) + 2 * 2 := by decide +kernel
theorem witness_PseudoInstructionsAndIdle_cp : (hosting (.cp .opc 0x04)).host = [.cp .opc 0x04]
    ∧ (hosting (.cp .opc 0x04)).HoldsAt 0x04 (.elem 7) ∧ (hosting (.cp .opb 0x02)).HoldsAt 0x02 (.word 0x0001FF05#32) :=
  ⟨rfl, .inr (.inl ⟨7, rfl, .inl ⟨rfl, rfl⟩⟩), .inl (by decide +kernel)⟩
theorem witness_PseudoInstructionsAndIdle_rest : (hosting .wait).host = [.wait] ∧ State.reset.host = [] := ⟨rfl, rfl⟩
theorem witness_ResetClearsEverything : (hosting .reset).host = [.reset] := rfl

/-! Faults. -/

theorem witness_FaultsArePrecise : ∃ t, State.reset.abort = false ∧ performWord 0x6#32 State.reset = .next t
    ∧ t.abort = true :=
  ⟨{ State.reset with status := 0x102#32, fcmd := 0x6#32 }, by decide, rfl, by decide⟩
/-- An aborted state with this host line. -/
def aborted (h : HostEvent) : State := { hosting h with status := 0x101#32, fcmd := 0x20#32 }
theorem witness_AbortLocksTheUnit_command : (aborted (.write 0x00 0)).abort = true
    ∧ (aborted (.write 0x00 0)).host = [.write 0x00 0] := by decide +kernel
theorem witness_AbortLocksTheUnit_access : (aborted (.write 0x03 1)).host = [.write 0x03 1]
    ∧ (aborted (.write FReg.opc.addr 1)).host = [.write FReg.opc.addr 1]
    ∧ (aborted (.read 0x01)).readReg .status = some (.word 0x101#32) := by decide +kernel
theorem witness_AbortLocksTheUnit_sticky : ∃ t, step (aborted .wait) = .next t := ⟨_, rfl⟩

theorem cfgLegal_st (a b c : Option Nat) : CfgLegal (st 1 1 a b c) :=
  .inr ⟨1, 1, 255, .inl rfl, .inl rfl, by norm_num, rfl⟩

/-- The first fault, where each condition before it is decided. -/
theorem firstFault_head {cond : Prop} {c : FaultCode} {rest : FaultList} (h : cond) :
    FirstFault ((cond, c) :: rest) (some c) := .inl ⟨h, rfl⟩
theorem firstFault_skip {cond : Prop} {c : FaultCode} {rest : FaultList} {r : Option FaultCode} (h : ¬ cond)
    (hr : FirstFault rest r) : FirstFault ((cond, c) :: rest) r := .inr ⟨h, hr⟩

/-- Divisor 0 within range: DIVISOR is first. -/
theorem witness_FirstFaultDecidesArithmetic_fault :
    (Instr.rdiv true).op ∈ [Op.range16, .decomp, .rdiv, .divp, .sqrt, .sqrtf, .rem] ∧ (Instr.rdiv true).wf = true
    ∧ (st 1 1 (some 7) (some 0) none).abort = false ∧ CfgLegal (st 1 1 (some 7) (some 0) none)
    ∧ FirstFault (faultList cref.params (.rdiv true) (st 1 1 (some 7) (some 0) none)) (some .divisor) := by
  refine ⟨by decide, rfl, by decide, cfgLegal_st _ _ _, ?_⟩
  refine firstFault_skip (by decide +kernel) (firstFault_skip (by decide +kernel) (firstFault_skip (by decide +kernel) ?_))
  refine firstFault_skip (by decide +kernel) (firstFault_skip (by decide +kernel) (firstFault_head (by decide +kernel)))
/-- In range and in the domain: no condition holds. -/
theorem witness_FirstFaultDecidesArithmetic_none :
    FirstFault (faultList cref.params (.rdiv true) (st 1 1 (some 7) (some 2) none)) none := by
  refine firstFault_skip (by decide +kernel) (firstFault_skip (by decide +kernel) (firstFault_skip (by decide +kernel) ?_))
  refine firstFault_skip (by decide +kernel) (firstFault_skip (by decide +kernel) (firstFault_skip (by decide +kernel) ?_))
  exact firstFault_skip (by decide +kernel) (firstFault_skip (by decide +kernel) rfl)
/-- `|x| = B`: RANGE is first. -/
theorem witness_FirstFaultDecidesTrig_fault :
    (Instr.tan false).op ∈ [Op.atan, .tlut, .sin, .cos, .tan] ∧ (st1 1 1 (2 ^ 32)).abort = false
    ∧ CfgLegal (st1 1 1 (2 ^ 32)) ∧ FirstFault (faultList cref.params (.tan false) (st1 1 1 (2 ^ 32))) (some .range) := by
  refine ⟨by decide, by decide +kernel, cfgLegal_st _ _ _, ?_⟩
  refine firstFault_skip (by decide +kernel) (firstFault_skip (by decide +kernel) (firstFault_skip (by decide +kernel) ?_))
  exact firstFault_skip (by decide +kernel) (firstFault_head (by decide +kernel))
theorem witness_FirstFaultDecidesTrig_none :
    FirstFault (faultList cref.params (.tan false) (st1 1 1 65536)) none := by
  refine firstFault_skip (by decide +kernel) (firstFault_skip (by decide +kernel) (firstFault_skip (by decide +kernel) ?_))
  refine firstFault_skip (by decide +kernel) (firstFault_skip (by decide +kernel) (firstFault_skip (by decide +kernel) ?_))
  exact firstFault_skip (by decide +kernel) (firstFault_skip (by decide +kernel) (firstFault_skip (by decide +kernel) rfl))
theorem witness_FirstFaultDecidesExpLog_fault :
    (Instr.log false).op ∈ [Op.expr, .log] ∧ (st1 1 1 0).abort = false ∧ CfgLegal (st1 1 1 0)
    ∧ FirstFault (faultList cref.params (.log false) (st1 1 1 0)) (some .negative) := by
  refine ⟨by decide, by decide +kernel, cfgLegal_st _ _ _, ?_⟩
  refine firstFault_skip (by decide +kernel) (firstFault_skip (by decide +kernel) (firstFault_skip (by decide +kernel) ?_))
  exact firstFault_skip (by decide +kernel) (firstFault_skip (by decide +kernel) (firstFault_head (by decide +kernel)))
theorem witness_FirstFaultDecidesExpLog_none :
    FirstFault (faultList cref.params (.expr false) (st1 1 1 720896)) none := by
  refine firstFault_skip (by decide +kernel) (firstFault_skip (by decide +kernel) (firstFault_skip (by decide +kernel) ?_))
  refine firstFault_skip (by decide +kernel) (firstFault_skip (by decide +kernel) (firstFault_skip (by decide +kernel) ?_))
  exact firstFault_skip (by decide +kernel) (firstFault_skip (by decide +kernel) rfl)

/-! Completion. The witnesses choose the reference configuration. -/

theorem witness_NopCompletes : State.reset.abort = false := by decide
theorem witness_ConfigCompletes_legal : State.reset.abort = false ∧ (255 : Nat) < 256 ∧ Legal 1 ∧ Legal 2 := by decide
theorem witness_ConfigCompletes_illegal : ¬ (Legal 0 ∧ Legal 1) ∧ ¬ (Legal 1 ∧ Legal 3) := by decide
theorem witness_Range16Completes : FrameReady cref.params (.range16 true) (st1 1 1 65535)
    ∧ (st1 1 1 65535).opa = some 65535 := ⟨frameReady_of_ready (by decide +kernel), by decide +kernel⟩
theorem witness_DecompCompletes : FrameReady cref.params (.decomp true 16 false) (st1 1 1 (-1))
    ∧ (st1 1 1 (-1)).opa = some (el (-1)) ∧ sval cref.params.P (el (-1)) = -1 ∧ (1 : Nat) ≤ 16 ∧ (16 : Nat) ≤ 16
    ∧ |(-1 : Int)| < 2 ^ (16 * 16) ∧ (false = true → 0 ≤ (-1 : Int)) :=
  ⟨frameReady_of_ready (by decide +kernel), rfl, by decide +kernel, by decide, by decide, by norm_num, by decide⟩
theorem witness_RdivCompletes : FrameReady cref.params (.rdiv true) (st 1 1 (some 7) (some 2) none)
    ∧ HoldsFixed cref.params (st 1 1 (some 7) (some 2) none) (some 7) 7
    ∧ HoldsFixed cref.params (st 1 1 (some 7) (some 2) none) (some 2) 2
    ∧ (0 : Int) < 2 ∧ (0 : Int) ≤ 0 ∧ (0 : Int) < 2 ∧ (2 * 7 + 2 - 2 % 2 : Int) = 2 * 4 * 2 + 2 * 0 :=
  ⟨frameReady_of_ready (by decide +kernel), holdsFixed_of (by decide +kernel), holdsFixed_of (by decide +kernel),
    by decide, by decide, by decide, by decide⟩
theorem witness_DivpCompletes : FrameReady cref.params (.divp true) (st 1 1 (some 1) (some 3) none)
    ∧ HoldsFixed cref.params (st 1 1 (some 1) (some 3) none) (some 1) 1
    ∧ HoldsFixed cref.params (st 1 1 (some 1) (some 3) none) (some 3) 3
    ∧ (0 : Int) < 3 ∧ (0 : Int) ≤ 2 ∧ (2 : Int) < 3 ∧ (2 * (1 * delta 1) + 3 - 3 % 2 : Int) = 2 * 21845 * 3 + 2 * 2
    ∧ |(21845 : Int)| < bound 1 1 :=
  ⟨frameReady_of_ready (by decide +kernel), holdsFixed_of (by decide +kernel), holdsFixed_of (by decide +kernel),
    by decide, by decide, by decide, by decide +kernel, by decide +kernel⟩
theorem witness_SqrtCompletes : FrameReady cref.params (.sqrt true) (st1 1 1 131072)
    ∧ HoldsFixed cref.params (st1 1 1 131072) (some (el 131072)) 131072 ∧ (0 : Int) ≤ 92681
    ∧ (92681 * 92681 : Int) ≤ 131072 * delta 1 ∧ (131072 * delta 1 : Int) < (92681 + 1) * (92681 + 1) :=
  ⟨frameReady_of_ready (by decide +kernel), holdsFixed_of (by decide +kernel), by decide, by decide +kernel,
    by decide +kernel⟩
theorem witness_SqrtfCompletes : FrameReady cref.params (.sqrtf true) (st1 1 1 131072)
    ∧ HoldsFixed cref.params (st1 1 1 131072) (some (el 131072)) 131072 :=
  ⟨frameReady_of_ready (by decide +kernel), holdsFixed_of (by decide +kernel)⟩
theorem witness_AtanCompletes : FrameReady cref.params (.atan true) (st1 1 1 (-65536))
    ∧ HoldsFixed cref.params (st1 1 1 (-65536)) (some (el (-65536))) (-65536) :=
  ⟨frameReady_of_ready (by decide +kernel), holdsFixed_of (by decide +kernel)⟩
theorem witness_RemCompletes_positive :
    FrameReady cref.params (.rem true) (st 1 1 (some (el (-7))) (some 2) (some 1))
    ∧ HoldsFixed cref.params (st 1 1 (some (el (-7))) (some 2) (some 1)) (some (el (-7))) (-7)
    ∧ HoldsFixed cref.params (st 1 1 (some (el (-7))) (some 2) (some 1)) (some 2) 2
    ∧ HoldsFixed cref.params (st 1 1 (some (el (-7))) (some 2) (some 1)) (some 1) 1
    ∧ (2 : Int) ≠ 0 ∧ (1 : Int) ≤ 1 ∧ (-7 * 1 : Int) = -4 * 2 + 1 ∧ (0 ≤ (1 : Int) ∧ (1 : Int) < 2) :=
  ⟨frameReady_of_ready (by decide +kernel), holdsFixed_of (by decide +kernel), holdsFixed_of (by decide +kernel),
    holdsFixed_of (by decide +kernel), by decide, by decide, by decide, by decide⟩
theorem witness_RemCompletes_negative :
    FrameReady cref.params (.rem false) (st 1 1 (some 7) (some (el (-2))) (some 1))
    ∧ HoldsFixed cref.params (st 1 1 (some 7) (some (el (-2))) (some 1)) (some (el (-2))) (-2)
    ∧ (7 * 1 : Int) = -4 * -2 + -1 ∧ ((-2 : Int) < -1 ∧ (-1 : Int) ≤ 0) :=
  ⟨frameReady_of_ready (by decide +kernel), holdsFixed_of (by decide +kernel), by decide, by decide⟩
theorem witness_TlutCompletes : FrameReady cref.params (.tlut true 1) (st1 1 1 65535)
    ∧ (st1 1 1 65535).opa = some 65535 := ⟨frameReady_of_ready (by decide +kernel), by decide +kernel⟩
-- R320: OPA = 65536, `θ = [0, 1]`, `Sr = 3614113792`
theorem witness_SinCompletes : FrameReady cref.params (.sin true) (st1 1 1 65536)
    ∧ HoldsFixed cref.params (st1 1 1 65536) (some (el 65536)) 65536
    ∧ (scr ((st1 1 1 65536).env cref.params) (ang ((st1 1 1 65536).env cref.params) 65536)).sr = 3614113792
    ∧ (0 : Int) ≤ 32768 ∧ (32768 : Int) < delta 1 ^ 1
    ∧ (2 * 3614113792 + delta 1 ^ 1 : Int) = 2 * 55147 * delta 1 ^ 1 + 2 * 32768 :=
  ⟨frameReady_of_ready (by decide +kernel), holdsFixed_of (by decide +kernel), by decide +kernel, by decide,
    by decide +kernel, by decide +kernel⟩
theorem witness_SinCompletes_reduced : FrameReady cref.params (.sin true) (st1 2 1 458752)
    ∧ HoldsFixed cref.params (st1 2 1 458752) (some (el 458752)) 458752 :=
  ⟨frameReady_of_ready (by decide +kernel), holdsFixed_of (by decide +kernel)⟩
-- R323: `RNDS(65536·3614113792, 2320564224)`
theorem witness_CosCompletes : FrameReady cref.params (.cos true) (st1 1 1 65536)
    ∧ HoldsFixed cref.params (st1 1 1 65536) (some (el 65536)) 65536
    ∧ (scr ((st1 1 1 65536).env cref.params) (ang ((st1 1 1 65536).env cref.params) 65536)).cr = 2320564224
    ∧ (0 : Int) ≤ 32768 ∧ (32768 : Int) < delta 1 ^ 1
    ∧ (2 * 2320564224 + delta 1 ^ 1 : Int) = 2 * 35409 * delta 1 ^ 1 + 2 * 32768 :=
  ⟨frameReady_of_ready (by decide +kernel), holdsFixed_of (by decide +kernel), by decide +kernel, by decide,
    by decide +kernel, by decide +kernel⟩
theorem witness_TanCompletes : FrameReady cref.params (.tan true) (st1 1 1 65536)
    ∧ HoldsFixed cref.params (st1 1 1 65536) (some (el 65536)) 65536 ∧ (2320564224 : Int) ≠ 0
    ∧ (rdm (delta 1 * 3614113792) 2320564224).q = 102068 ∧ |(102068 : Int)| < bound 1 1 :=
  ⟨frameReady_of_ready (by decide +kernel), holdsFixed_of (by decide +kernel), by decide, by decide +kernel,
    by decide +kernel⟩
theorem witness_ExprCompletes : FrameReady cref.params (.expr true) (st1 1 1 720896)
    ∧ HoldsFixed cref.params (st1 1 1 720896) (some (el 720896)) 720896 ∧ |(3923911751 : Int)| < bound 1 1 :=
  ⟨frameReady_of_ready (by decide +kernel), holdsFixed_of (by decide +kernel), by decide +kernel⟩
-- R362: `x = −720897` is below the window, `x = 720897` above it
theorem witness_ExprCompletes_outside : FrameReady cref.params (.expr true) (st1 1 1 (-720897))
    ∧ HoldsFixed cref.params (st1 1 1 (-720897)) (some (el (-720897))) (-720897)
    ∧ (-720897 : Int) < cref.params.expLo 1 1 ∧ |cref.params.expMin 1 1| < bound 1 1
    ∧ FrameReady cref.params (.expr false) (st1 1 1 720897)
    ∧ HoldsFixed cref.params (st1 1 1 720897) (some (el 720897)) 720897
    ∧ cref.params.expHi 1 1 < 720897 ∧ |cref.params.expMax 1 1| < bound 1 1 :=
  ⟨frameReady_of_ready (by decide +kernel), holdsFixed_of (by decide +kernel), by decide +kernel, by decide +kernel,
    frameReady_of_ready (by decide +kernel), holdsFixed_of (by decide +kernel), by decide +kernel, by decide +kernel⟩

/-- Under VP1, `LOG(1) = −720896` (rule R363). -/
theorem isLeast_log_one : IsLeast (LogSet ((st1 1 1 1).env cref.params) 1) (-720896) :=
  (logLeast_spec (e := (st1 1 1 1).env cref.params) (by decide +kernel) (by decide +kernel) 1).1 _ (by decide +kernel)

theorem witness_LogCompletes : FrameReady cref.params (.log true) (st1 1 1 1)
    ∧ HoldsFixed cref.params (st1 1 1 1) (some (el 1)) 1 ∧ (0 : Int) < 1
    ∧ IsLeast (LogSet ((st1 1 1 1).env cref.params) 1) (-720896)
    ∧ (clip ((st1 1 1 1).env cref.params) (-720896 - 1)).V < 1
    ∧ |(clip ((st1 1 1 1).env cref.params) (-720896)).V| < bound 1 1
    ∧ |(clip ((st1 1 1 1).env cref.params) (-720896 - 1)).V| < bound 1 1 :=
  ⟨frameReady_of_ready (by decide +kernel), holdsFixed_of (by decide +kernel), by decide, isLeast_log_one,
    by decide +kernel, by decide +kernel, by decide +kernel⟩

/-- In every configuration, this machine's own included, SQRT, SQRTF, ATAN and REM are ready in row 0 of an empty trace
with 255 columns: their row counts are 1, 2 or 6, and TRACE_ROWS is at least 6 (rule R7). -/
theorem witness_ready_everywhere (c : Config) (i : Instr) (h : i.op ∈ [Op.sqrt, .sqrtf, .atan, .rem])
    (a b d : Option Nat) : FrameReady c.params i (st 1 1 a b d) := by
  have hv := c.valid
  have hr := hv.traceRows
  have hc := (hv.each 1 1 (.inl rfl) (.inl rfl)).minCols i.op
  have hz : (st 1 1 a b d).row.toNat = 0 := rfl
  obtain ⟨hm1, hm2, hn, hcv⟩ : (st 1 1 a b d).m1 = 1 ∧ (st 1 1 a b d).m2 = 1 ∧ (st 1 1 a b d).ncols = 255
      ∧ (st 1 1 a b d).cfgValid = true := by
    simp only [st, State.m1, State.m2, State.ncols, State.cfgValid]; decide
  refine ⟨(abort_of_status (s := State.reset) rfl).trans (by decide), hcv, .inl hm1, .inl hm2, ?_, by rw [hm1, hm2, hn]; exact hc, ?_, ?_⟩
  · cases i <;> first | rfl | simp [Instr.op] at h
  · have one_or_two : ∀ op, collapse c.params op 1 1 255 ≤ 2 := by
      intro op; unfold collapse; split <;> omega
    have hs := one_or_two .sqrt
    have hf := one_or_two .sqrtf
    have hr' := one_or_two .rem
    rw [hz, hm1, hm2, hn]
    cases i <;> first | (simp only [Instr.op, rows]; omega) | simp [Instr.op] at h
  · simp [Trace.overlaps, st, State.reset, Ffeu.reset, Trace.read]

/-! Invariants. -/

/-- A configured state with one operand, about to wait. -/
def waiting : State := { st 1 1 (some 7) none none with host := [.wait] }

theorem witness_StepKeepsTheInvariant : waiting.Inv Config.own ∧ ∃ t, step waiting = .next t := by
  have hP := Config.own_valid.large
  refine ⟨⟨.inl rfl, fun _ => rfl, cfgLegal_st (some 7) none none, by decide, by decide, by decide, fun k v h => ?_,
    ⟨fun v h => ?_, fun v h => ?_, fun v h => ?_⟩, rfl, fun e h => ?_, fun r h => ?_⟩, _, rfl⟩
  · have : waiting.res[k] = none := by fin_cases k <;> rfl
    rw [this] at h; cases h
  · cases h; omega
  · cases h
  · cases h
  · cases h
  · cases h
theorem witness_AssignedCellsPersist : Trace.read ({ built with host := [.wait] } : State).trace
    (cellOf ref .sqrt 1 1 255 3 ⟨⟨.own, .y⟩, .whole⟩) = some 512
    ∧ ∃ t, step ({ built with host := [.wait] } : State) = .next t := ⟨test_build_cell, _, rfl⟩
theorem witness_TreqAndCslogOnlyGrow : (∀ rest, (hosting .wait).host ≠ .reset :: rest)
    ∧ ∃ t, step (hosting .wait) = .next t := ⟨fun _ h => (by cases h), _, rfl⟩
theorem witness_CommandsKeepHostRegisters : exec .nop State.reset = .next { State.reset with ccnt := 1 } := test_nop

/-! The integer cores. -/

theorem witness_RoundingDivisionProperties : (0 : Int) < 2 ∧ (rdm 7 2).q = 4 ∧ (rdm (-7) 2).q = -3
    ∧ |2 * (-7) - 2 * (rdm (-7) 2).q * 2| = 2 := by decide
theorem witness_SquareRootBracket : Legal 1 ∧ (0 : Int) ≤ 4294967295 ∧ (4294967295 : Int) < bound 1 1 := by decide +kernel
/-- DEC(−0x1_2345, 2, 0) (rule R165's example). -/
theorem witness_DecompositionIsSound_dec : dec (-0x12345) 2 false = .ok ⟨-1, [0x2345, 1, 0, 0]⟩ := by decide +kernel
theorem witness_DecompositionIsSound_bound : |(-0x12345 : Int)| < 2 ^ (16 * 2) := by norm_num
theorem witness_DecompositionIsSound : 2 ^ (16 * 10) ≤ (cref.params.P - 1) / 2
    ∧ DecSigned cref.params.P 1 (fun _ => ((5 : Nat) : Int)) (((cref.params.P - 1 : Nat) : Nat) : Int) ((el (-5) : Nat) : Int) := by
  refine ⟨by decide +kernel, by unfold FEq; decide +kernel, by unfold IsSign FEq; decide +kernel, fun k _ => ?_⟩
  show toF cref.params.P 5 < 65536
  decide +kernel
theorem witness_AtanStaysInRange : |(-4294967295 : Int)| < bound 1 1 := by decide +kernel
theorem witness_TrigSymmetry : sval cref.params.P (el (-65536)) = -sval cref.params.P (el 65536)
    ∧ sval cref.params.P (el 65536) ≠ 0
    ∧ (∃ out, sinBody ⟨cref.params, 1, 1, 255, {}⟩ (el 65536) = .ok out)
    ∧ (∃ out, cosBody ⟨cref.params, 1, 1, 255, {}⟩ (el 65536) = .ok out)
    ∧ ∃ out, tanBody ⟨cref.params, 1, 1, 255, {}⟩ (el 65536) = .ok out := by
  have ok : ∀ {x : Except FaultCode BodyOut}, x.isOk = true → ∃ out, x = .ok out := by
    intro x h; cases x with
    | ok o => exact ⟨o, rfl⟩
    | error e => cases h
  exact ⟨by decide +kernel, by decide +kernel, ok (by decide +kernel), ok (by decide +kernel), ok (by decide +kernel)⟩
/-- SQRT with a free trace, and with its constant cell `δ` assigned and its witness cells free. -/
def constantTaken : State := { st1 1 1 4 with
  trace := [(nameCell cref.params (.sqrt true) (st1 1 1 4) ⟨⟨.own, .kDelta⟩, .whole⟩, 1)] }
theorem witness_BuildBitOnlyAdds_completes : (sqrtOn cref.params false (st1 1 1 4)).abort = false
    ∧ (sqrtOn cref.params true (st1 1 1 4)).abort = false := by decide +kernel
theorem witness_BuildBitOnlyAdds_taken : (sqrtOn cref.params false constantTaken).abort = false
    ∧ (sqrtOn cref.params true constantTaken).status = 0x10A#32
    ∧ ∃ nv ∈ constantsOf (constantTaken.env cref.params) Op.sqrt,
        Trace.read constantTaken.trace (nameCell cref.params (.sqrt true) constantTaken nv.1) ≠ none := by
  refine ⟨by decide +kernel, by decide +kernel, _, List.mem_singleton.2 rfl, by decide +kernel⟩
theorem witness_BuildBitOnlyAdds_fault : sqrtOn cref.params false State.reset =
    { State.reset with status := BitVec.ofNat 32 (256 + FaultCode.cfgInvalid.code), fcmd := encode (.sqrt false) }
    ∧ State.reset.abort = false ∧ CfgLegal State.reset := ⟨rfl, by decide, .inl rfl⟩
theorem witness_LogBracketsItsOperand : (st1 1 1 1).abort = false ∧ CfgLegal (st1 1 1 1)
    ∧ (st1 1 1 1).opa = some (el 1) ∧ (logOn cref.params true (st1 1 1 1)).ccnt = (st1 1 1 1).ccnt + 1 :=
  ⟨by decide, cfgLegal_st _ _ _, rfl, by decide +kernel⟩

/-! The registered constraints. Each command below is ready and completes with B = 1. -/

/-- A ready compute command that counts in CCNT has completed. -/
theorem completed_of_count {c : Config} {i : Instr} {s : State} (h : FrameReady c.params i s)
    (hi : i.op.isCompute = true) (hn : (runs c.params i s).ccnt ≠ s.ccnt) :
    ∃ results values, Completed c.params i s results values (runs c.params i s) := by
  have key : ∀ body, runs c.params i s = perform c.params i s body →
      ∃ results values, Completed c.params i s results values (runs c.params i s) := by
    intro body hb
    rw [hb] at hn ⊢
    rcases perform_cases c.params i s body with ⟨ha, _⟩ | ⟨_, t, hf, ht⟩ | ⟨_, f, _, ht⟩
    · rw [h.running] at ha; cases ha
    · obtain ⟨_, _, _, _, _, out, _, _, rfl⟩ := frame_eq_ok hf
      rw [ht]; exact ⟨_, _, commit_completed (h.layoutFits c.valid)⟩
    · rw [ht] at hn; exact absurd rfl hn
  cases i <;> first | exact key _ rfl | cases hi

theorem witness_LookupWitnessAccepted : (Instr.tlut true 1).op ∈ [Op.range16, .decomp, .tlut]
    ∧ (Instr.tlut true 1).wf = true ∧ (Instr.tlut true 1).build = true
    ∧ FrameReady cref.params (.tlut true 1) (st1 1 1 3) ∧ ∃ results values,
      Completed cref.params (.tlut true 1) (st1 1 1 3) results values (runs cref.params (.tlut true 1) (st1 1 1 3)) :=
  have h := frameReady_of_ready (p := cref.params) (i := .tlut true 1) (s := st1 1 1 3) (by decide +kernel)
  ⟨by decide, rfl, rfl, h, completed_of_count h rfl (by decide +kernel)⟩
theorem witness_DivisionWitnessAccepted : FrameReady cref.params (.rdiv true) (st 1 1 (some 7) (some 2) none)
    ∧ ∃ results values, Completed cref.params (.rdiv true) (st 1 1 (some 7) (some 2) none) results values
      (runs cref.params (.rdiv true) (st 1 1 (some 7) (some 2) none)) :=
  have h := witness_RdivCompletes.1
  ⟨h, completed_of_count h rfl (by decide +kernel)⟩
theorem witness_SqrtWitnessAccepted : FrameReady cref.params (.sqrt true) (st1 1 1 131072)
    ∧ ∃ results values, Completed cref.params (.sqrt true) (st1 1 1 131072) results values
      (runs cref.params (.sqrt true) (st1 1 1 131072)) :=
  have h := witness_SqrtCompletes.1
  ⟨h, completed_of_count h rfl (by decide +kernel)⟩
theorem witness_AtanWitnessAccepted : FrameReady cref.params (.atan true) (st1 1 1 (-65536))
    ∧ ∃ results values, Completed cref.params (.atan true) (st1 1 1 (-65536)) results values
      (runs cref.params (.atan true) (st1 1 1 (-65536))) :=
  have h := witness_AtanCompletes.1
  ⟨h, completed_of_count h rfl (by decide +kernel)⟩
theorem witness_RemWitnessAccepted :
    FrameReady cref.params (.rem true) (st 1 1 (some (el (-7))) (some 2) (some 1)) ∧ ∃ results values,
      Completed cref.params (.rem true) (st 1 1 (some (el (-7))) (some 2) (some 1)) results values
        (runs cref.params (.rem true) (st 1 1 (some (el (-7))) (some 2) (some 1))) :=
  have h := witness_RemCompletes_positive.1
  ⟨h, completed_of_count h rfl (by decide +kernel)⟩
theorem witness_TrigWitnessAccepted : FrameReady cref.params (.tan true) (st1 1 1 65536)
    ∧ ∃ results values, Completed cref.params (.tan true) (st1 1 1 65536) results values
      (runs cref.params (.tan true) (st1 1 1 65536)) :=
  have h := witness_TanCompletes.1
  ⟨h, completed_of_count h rfl (by decide +kernel)⟩
/-- SIN with the REM sub-gadget (`m1 = 2`). -/
theorem witness_TrigWitnessAccepted_reduced : FrameReady cref.params (.sin true) (st1 2 1 458752)
    ∧ ∃ results values, Completed cref.params (.sin true) (st1 2 1 458752) results values
      (runs cref.params (.sin true) (st1 2 1 458752)) :=
  have h := witness_SinCompletes_reduced.1
  ⟨h, completed_of_count h rfl (by decide +kernel)⟩
/-- TAN with the OPEN predicate (`m2 = 2`), and COS. -/
theorem witness_TrigWitnessAccepted_wide : FrameReady cref.params (.tan true) (st1 1 2 (2 ^ 32))
    ∧ (∃ results values, Completed cref.params (.tan true) (st1 1 2 (2 ^ 32)) results values
      (runs cref.params (.tan true) (st1 1 2 (2 ^ 32))))
    ∧ FrameReady cref.params (.cos true) (st1 1 2 (2 ^ 32))
    ∧ ∃ results values, Completed cref.params (.cos true) (st1 1 2 (2 ^ 32)) results values
      (runs cref.params (.cos true) (st1 1 2 (2 ^ 32))) :=
  have h := frameReady_of_ready (p := cref.params) (i := .tan true) (s := st1 1 2 (2 ^ 32)) (by decide +kernel)
  have h' := frameReady_of_ready (p := cref.params) (i := .cos true) (s := st1 1 2 (2 ^ 32)) (by decide +kernel)
  ⟨h, completed_of_count h rfl (by decide +kernel), h', completed_of_count h' rfl (by decide +kernel)⟩
theorem witness_ExpLogWitnessAccepted : FrameReady cref.params (.log true) (st1 1 1 1)
    ∧ (∀ x, cref.params.expc 1 1 x (cref.params.expFn 1 1 x) = true) ∧ ∃ results values,
      Completed cref.params (.log true) (st1 1 1 1) results values (runs cref.params (.log true) (st1 1 1 1)) :=
  have h := witness_LogCompletes.1
  ⟨h, fun _ => rfl, completed_of_count h rfl (by decide +kernel)⟩

/-- An assignment that REM's gates accept for `7 mod 2 = 1`, quotient 3 (rule R291's example in units of δ). -/
def remWitness : Assignment := fun n =>
  match n with
  | ⟨⟨_, .x⟩, _⟩ => 7
  | ⟨⟨_, .bigX⟩, _⟩ => 7
  | ⟨⟨_, .y⟩, .whole⟩ => 2
  | ⟨⟨_, .y⟩, .limb 0⟩ => 2
  | ⟨⟨_, .a⟩, .whole⟩ => 3
  | ⟨⟨_, .a⟩, .limb 0⟩ => 3
  | ⟨⟨_, .g⟩, _⟩ => 0
  | ⟨⟨_, .xs⟩, _⟩ => 1
  | ⟨⟨_, .sy⟩, _⟩ => 1
  | ⟨⟨_, .sa⟩, _⟩ => 1
  | ⟨⟨_, .z⟩, .whole⟩ => 1
  | ⟨⟨_, .z⟩, .limb 0⟩ => 1
  | _ => 0

theorem witness_RemConstraintsForceTheRemainder : 2 ^ (48 * 2 + 2) < cref.params.P
    ∧ remGates cref.params .own 2 (remWitness.val .own .y) (remWitness.val .own .xs) remWitness
    ∧ |signedOf cref.params.P (remWitness.val .own .bigX)| < 2 ^ (32 * 2) := by
  refine ⟨by decide +kernel, ?_, by decide +kernel⟩
  simp only [remGates, DecSigned, DecUnsigned, IsSign, FEq, InRange]
  refine ⟨?_, ?_, ⟨?_, ?_, ?_⟩, ⟨?_, ?_⟩, ⟨?_, ?_⟩, ?_, ?_, ⟨?_, ?_⟩⟩ <;> decide +kernel

/-- An assignment that SQRT's and SQRTF's gates accept for `x = 1`: the root is 256, exact (rule R222). -/
def sqrtWitness : Assignment := fun n =>
  match n with
  | ⟨⟨_, .x⟩, .whole⟩ => 1
  | ⟨⟨_, .x⟩, .limb 0⟩ => 1
  | ⟨⟨_, .y⟩, .whole⟩ => 256
  | ⟨⟨_, .a2⟩, .whole⟩ => 512
  | ⟨⟨_, .a2⟩, .limb 0⟩ => 512
  | ⟨⟨_, .a3⟩, .whole⟩ => 256
  | ⟨⟨_, .a3⟩, .limb 0⟩ => 256
  | _ => 0

theorem witness_SqrtConstraintsForceTheRoot : |signedOf cref.params.P (sqrtWitness.val .own .y)| < bound 1 1
    ∧ sqrtGates cref.params 1 1 sqrtWitness ∧ sqrtfGates cref.params 1 1 sqrtWitness := by
  simp only [sqrtGates, sqrtfGates, DecUnsigned, IsBit, FEq, InRange]
  refine ⟨by decide +kernel, ⟨?_, ?_, ?_, ?_, ⟨?_, ?_⟩, ⟨?_, ?_⟩, ⟨?_, ?_⟩, ⟨?_, ?_⟩⟩,
    ?_, ?_, ⟨?_, ?_⟩, ⟨?_, ?_⟩, ⟨?_, ?_⟩⟩ <;> decide +kernel

end Sys2Proof.Tests
end

section
/-! PROOFS. The decoder said once: which words it accepts, and the command it reads from one (30_encoding.md rule
R105). Rules R106 and R107 follow from that and from the encoder's sum of fields. -/

namespace Sys2Proof.Encoding

open Sys2Proof.Machine

/-! ### The fields the decoder reads (rules R103, R104) -/

/-- The command of opcode `op` with its field values read from `w`. -/
def readFields (w : Word) : Op → Instr
  | .nop => .nop
  | .config => .config (w.bits 16 2) (w.bits 18 2) w.argField
  | .range16 => .range16 w.buildField
  | .decomp => .decomp w.buildField (w.bits 8 4 + 1) (w.bits 12 1 == 1)
  | .rdiv => .rdiv w.buildField
  | .divp => .divp w.buildField
  | .sqrt => .sqrt w.buildField
  | .sqrtf => .sqrtf w.buildField
  | .atan => .atan w.buildField
  | .rem => .rem w.buildField
  | .tlut => .tlut w.buildField (w.bits 8 2)
  | .sin => .sin w.buildField
  | .cos => .cos w.buildField
  | .tan => .tan w.buildField
  | .expr => .expr w.buildField
  | .log => .log w.buildField

/-- The bits of ARG that the format of `op` keeps at 0 (rule R103). -/
def reservedArg (w : Word) : Op → Nat
  | .config => 0
  | .decomp => w.bits 13 3
  | .tlut => w.bits 10 6
  | _ => w.argField

theorem argZero_eq_ok_iff {n : Nat} {i j : Instr} : argZero n i = .ok j ↔ n = 0 ∧ i = j := by
  by_cases h : n = 0 <;> simp [argZero, h]

/-- One equation for the sixteen arms of `decodeFields`. -/
theorem decodeFields_of_code {w : Word} {op : Op} (h : w.opField = op.code) :
    decodeFields w = argZero (reservedArg w op) (readFields w op) := by
  cases op <;> simp only [decodeFields, h, Op.code] <;> rfl

/-- The opcodes below 0x10 are all assigned (rule R104). -/
theorem exists_op_of_lt {n : Nat} (h : n < 0x10) : ∃ op : Op, op.code = n := by
  have table : ∀ n < 0x10, ∃ op ∈ [Op.nop, .config, .range16, .decomp, .rdiv, .divp, .sqrt, .sqrtf, .atan, .rem,
      .tlut, .sin, .cos, .tan, .expr, .log], op.code = n := by decide
  obtain ⟨op, -, hop⟩ := table n h
  exact ⟨op, hop⟩

theorem bit_bits_eq_one (w : Word) (lo : Nat) : bit (w.bits lo 1 == 1) = w.bits lo 1 := by
  have h : w.bits lo 1 < 2 := Nat.mod_lt _ (by decide)
  interval_cases w.bits lo 1 <;> rfl

theorem bit_beq_one (b : Bool) : (bit b == 1) = b := by cases b <;> rfl

@[simp] theorem readFields_op (w : Word) (op : Op) : (readFields w op).op = op := by cases op <;> rfl

/-- What is read from a field fits the field. -/
theorem readFields_wf (w : Word) (op : Op) : (readFields w op).wf = true := by
  have field_lt (lo len : Nat) : w.bits lo len < 2 ^ len := Nat.mod_lt _ (Nat.two_pow_pos len)
  cases op with
  | config => simpa [readFields, Instr.wf] using ⟨⟨field_lt 16 2, field_lt 18 2⟩, field_lt 8 8⟩
  | decomp =>
    have := field_lt 8 4
    simp only [readFields, Instr.wf, Bool.and_eq_true, decide_eq_true_eq]
    omega
  | tlut => simpa [readFields, Instr.wf] using field_lt 8 2
  | _ => rfl

/-! ### The accepted words (rule R105) -/

/-- `w` passes the tests of rule R105 as a word of opcode `op`. -/
structure Accepts (w : Word) (op : Op) : Prop where
  opcode : w.opField = op.code
  reservedLow : w.bits 6 2 = 0
  reservedHigh : w.bits 20 12 = 0
  configBits : op.code ≠ 0x01 → w.bits 16 4 = 0
  buildBit : op.code ≤ 0x01 → w.bits 5 1 = 0
  argBits : reservedArg w op = 0

/-- The decoder accepts the words that pass the tests, and reads their fields. -/
theorem decode_eq_ok_iff {w : Word} {i : Instr} : decode w = .ok i ↔ ∃ op, Accepts w op ∧ readFields w op = i := by
  constructor
  · intro h
    unfold decode at h
    split_ifs at h with hop hres hcfg hbuild
    obtain ⟨op, code⟩ := exists_op_of_lt (Nat.lt_of_not_le hop)
    rw [decodeFields_of_code code.symm, argZero_eq_ok_iff] at h
    rw [← code] at hcfg hbuild
    obtain ⟨low, high⟩ := not_or.1 hres
    exact ⟨op, ⟨code.symm, not_not.1 low, not_not.1 high, fun c => not_not.1 fun n => hcfg ⟨c, n⟩,
      fun c => not_not.1 fun n => hbuild ⟨c, n⟩, h.1⟩, h.2⟩
  · rintro ⟨op, ⟨code, low, high, cfg, build, arg⟩, rfl⟩
    have hop := code_lt op
    rw [decode, if_neg (by omega), if_neg (by omega), if_neg (by rw [code]; tauto), if_neg (by rw [code]; tauto),
      decodeFields_of_code code, argZero_eq_ok_iff]
    exact ⟨arg, rfl⟩

/-- The decoder rejects a word exactly if it passes the tests as a word of no opcode. -/
theorem decode_rejects_iff {w : Word} : (∃ r, decode w = .error r) ↔ ∀ op, ¬ Accepts w op := by
  constructor
  · rintro ⟨r, hr⟩ op acc
    rw [decode_eq_ok_iff.2 ⟨op, acc, rfl⟩] at hr
    cases hr
  · intro noOp
    cases h : decode w with
    | error r => exact ⟨r, rfl⟩
    | ok i =>
      obtain ⟨op, acc, -⟩ := decode_eq_ok_iff.1 h
      exact absurd acc (noOp op)

/-! ### An accepted word is the encoding of its command (rule R107) -/

/-- The build bit of the command read, for an accepted word (rule R102). -/
theorem Accepts.bit_build {w : Word} {op : Op} (acc : Accepts w op) : bit (readFields w op).build = w.bits 5 1 := by
  have set := acc.buildBit
  cases op with
  | nop => exact (set (by decide)).symm
  | config => exact (set (by decide)).symm
  | _ => exact bit_bits_eq_one w 5

/-- The op-specific bits of the command read are bits 19:8 of an accepted word. -/
theorem Accepts.argBits_eq {w : Word} {op : Op} (acc : Accepts w op) :
    (readFields w op).argBits = w.bits 8 12 * 2 ^ 8 := by
  have arg := acc.argBits
  have cm := acc.configBits
  cases op with
  | config =>
    simp only [readFields, Instr.argBits, Word.argField, Word.bits]
    omega
  | decomp =>
    have cm := cm (by decide)
    simp only [readFields, Instr.argBits, bit_bits_eq_one]
    simp only [reservedArg, Word.bits] at arg cm ⊢
    omega
  | tlut =>
    have cm := cm (by decide)
    simp only [readFields, Instr.argBits]
    simp only [reservedArg, Word.bits] at arg cm ⊢
    omega
  | _ =>
    have cm := cm (by decide)
    simp only [readFields, Instr.argBits]
    simp only [reservedArg, Word.argField, Word.bits] at arg cm ⊢
    omega

/-- An accepted word is the sum of its fields (rule R101), so it is the word of the command read from it. -/
theorem Accepts.eq_encode {w : Word} {op : Op} (acc : Accepts w op) : w = encode (readFields w op) := by
  have sum : w.toNat = (readFields w op).op.code + bit (readFields w op).build * 2 ^ 5 + (readFields w op).argBits := by
    rw [acc.bit_build, acc.argBits_eq, readFields_op, ← acc.opcode]
    have low := acc.reservedLow
    have high := acc.reservedHigh
    have hw := w.isLt
    simp only [Word.opField, Word.bits] at low high ⊢
    omega
  exact BitVec.eq_of_toNat_eq (sum.trans (encode_toNat (readFields_wf w op)).1.symm)

/-- Whatever is accepted is a well-formed command, and the word is its encoding. -/
theorem wf_and_eq_encode_of_decode {w : Word} {i : Instr} (h : decode w = .ok i) : i.wf = true ∧ w = encode i := by
  obtain ⟨op, acc, rfl⟩ := decode_eq_ok_iff.1 h
  exact ⟨readFields_wf w op, acc.eq_encode⟩

/-! ### The encoding of a well-formed command is accepted (rule R107) -/

/-- From bit 8 on, the word of a well-formed command holds its op-specific bits. -/
theorem encode_bits_high {i : Instr} (h : i.wf = true) (k len : Nat) :
    (encode i).bits (8 + k) len = i.argBits / 2 ^ (8 + k) % 2 ^ len := by
  obtain ⟨a, ha, -⟩ := argBits_spec h
  have code := code_lt i.op
  have build := bit_le i.build
  have low : (encode i).toNat / 2 ^ 8 = i.argBits / 2 ^ 8 := by
    rw [(encode_toNat h).1]
    omega
  rw [Word.bits, pow_add, ← Nat.div_div_eq_div_mul, low, Nat.div_div_eq_div_mul]

theorem readFields_encode {i : Instr} (h : i.wf = true) : readFields (encode i) i.op = i := by
  have build : (encode i).buildField = i.build := (Laws.EncodedFields.of_wf i h).2.1
  have arg := encode_bits_high h
  cases i with
  | nop => rfl
  | config cm1 cm2 ncols =>
    simp only [Instr.wf, Bool.and_eq_true, decide_eq_true_eq] at h
    obtain ⟨⟨h1, h2⟩, h3⟩ := h
    simp only [Instr.op, readFields, Word.argField, arg 0, arg 8, arg 10, Instr.argBits, Instr.config.injEq]
    omega
  | decomp b n u =>
    simp only [Instr.wf, Bool.and_eq_true, decide_eq_true_eq] at h
    have := bit_le u
    have limbs : (encode (.decomp b n u)).bits 8 4 + 1 = n := by
      rw [arg 0, Instr.argBits]
      omega
    have unsigned : (encode (.decomp b n u)).bits 12 1 = bit u := by
      rw [arg 4, Instr.argBits]
      omega
    simp only [Instr.op, readFields, build, limbs, unsigned, bit_beq_one, Instr.build]
  | tlut b j =>
    simp only [Instr.wf, decide_eq_true_eq] at h
    have position : (encode (.tlut b j)).bits 8 2 = j := by
      rw [arg 0, Instr.argBits]
      omega
    simp only [Instr.op, readFields, build, position, Instr.build]
  | _ => simp only [Instr.op, readFields, build, Instr.build]

theorem reservedArg_encode {i : Instr} (h : i.wf = true) : reservedArg (encode i) i.op = 0 := by
  have arg := encode_bits_high h
  cases i with
  | config cm1 cm2 ncols => rfl
  | decomp b n u =>
    simp only [Instr.wf, Bool.and_eq_true, decide_eq_true_eq] at h
    have := bit_le u
    simp only [Instr.op, reservedArg, arg 5, Instr.argBits]
    omega
  | tlut b j =>
    simp only [Instr.wf, decide_eq_true_eq] at h
    simp only [Instr.op, reservedArg, arg 2, Instr.argBits]
    omega
  | _ => simp only [Instr.op, reservedArg, Word.argField, arg 0, Instr.argBits, Nat.zero_div, Nat.zero_mod]

/-- Outside CONFIG the CM bits of the word are 0. -/
theorem encode_configBits {i : Instr} (h : i.wf = true) (hop : i.op.code ≠ 0x01) : (encode i).bits 16 4 = 0 := by
  rw [encode_bits_high h 8]
  cases i with
  | config cm1 cm2 ncols => exact absurd rfl hop
  | decomp b n u =>
    simp only [Instr.wf, Bool.and_eq_true, decide_eq_true_eq] at h
    have := bit_le u
    rw [Instr.argBits]
    omega
  | tlut b j =>
    simp only [Instr.wf, decide_eq_true_eq] at h
    rw [Instr.argBits]
    omega
  | _ => simp only [Instr.argBits, Nat.zero_div, Nat.zero_mod]

/-- NOP and CONFIG encode B = 0. -/
theorem encode_buildBit {i : Instr} (h : i.wf = true) (hop : i.op.code ≤ 0x01) : (encode i).bits 5 1 = 0 := by
  have clear : i.build = false := by
    cases i with
    | nop => rfl
    | config => rfl
    | _ => exact absurd hop (by simp [Instr.op, Op.code])
  rw [← bit_bits_eq_one, show ((encode i).bits 5 1 == 1) = i.build from (Laws.EncodedFields.of_wf i h).2.1, clear]
  rfl

theorem accepts_encode {i : Instr} (h : i.wf = true) : Accepts (encode i) i.op := by
  obtain ⟨code, -, low, high⟩ := Laws.EncodedFields.of_wf i h
  exact ⟨code, low, high, encode_configBits h, encode_buildBit h, reservedArg_encode h⟩

/-- The decoder reads a well-formed command back from its word. -/
theorem decode_encode {i : Instr} (h : i.wf = true) : decode (encode i) = .ok i :=
  decode_eq_ok_iff.2 ⟨i.op, accepts_encode h, readFields_encode h⟩

/-- Settles O3: the accepted words are the encodings of the well-formed commands, so `encode i` is the one word of
`i`. -/
theorem everyCommandHasOneWord : Obligations.EveryCommandHasOneWord :=
  ⟨fun _ _ h => (wf_and_eq_encode_of_decode h).1, fun i h =>
    ⟨encode i, decode_encode h, fun _ hw => (wf_and_eq_encode_of_decode hw).2⟩⟩

/-! ### The rejected words (rule R106) -/

/-- The ARG test by opcode: DECOMP and TLUT keep their upper bits at 0, CONFIG none, every other command all. -/
theorem reservedArg_eq_zero_iff (w : Word) (op : Op) : reservedArg w op = 0 ↔
    (op.code = 3 → w.bits 13 3 = 0) ∧ (op.code = 10 → w.bits 10 6 = 0)
      ∧ (op.code ≠ 1 → op.code ≠ 3 → op.code ≠ 10 → w.bits 8 8 = 0) := by
  cases op <;> simp [reservedArg, Op.code, Word.argField]

/-- The tests of rule R105 by the number in OP: `w` is accepted exactly if it passes them all. -/
theorem exists_accepts_iff (w : Word) : (∃ op, Accepts w op) ↔
    w.opField < 0x10 ∧ w.bits 6 2 = 0 ∧ w.bits 20 12 = 0 ∧ (w.opField ≠ 1 → w.bits 16 4 = 0)
      ∧ (w.opField ≤ 1 → w.bits 5 1 = 0) ∧ (w.opField = 3 → w.bits 13 3 = 0) ∧ (w.opField = 10 → w.bits 10 6 = 0)
      ∧ (w.opField ≠ 1 → w.opField ≠ 3 → w.opField ≠ 10 → w.bits 8 8 = 0) := by
  constructor
  · rintro ⟨op, code, low, high, cfg, build, arg⟩
    rw [code]
    exact ⟨code_lt op, low, high, cfg, build, (reservedArg_eq_zero_iff w op).1 arg⟩
  · rintro ⟨hop, low, high, cfg, build, arg⟩
    obtain ⟨op, code⟩ := exists_op_of_lt hop
    rw [← code] at cfg build arg
    exact ⟨op, code.symm, low, high, cfg, build, (reservedArg_eq_zero_iff w op).2 arg⟩

/-- While not aborted a rejected word raises ILLEGAL: STATUS is 0x101 and FCMD the word (rules R106, R401). -/
theorem performWord_of_rejected {w : Word} {s : State} (hs : s.abort = false) (h : ∃ r, decode w = .error r) :
    performWord w s = .next { s with status := 0x101#32, fcmd := w } := by
  obtain ⟨r, hr⟩ := h
  rw [performWord_of_error hr, State.unlessAborted, hs]
  rfl

/-- Settles O4: the listed reasons are the failures of the tests an accepted word passes. -/
theorem rejectedWordsAreIllegal : Obligations.RejectedWordsAreIllegal := by
  refine fun w => ⟨?_, fun s hs h => performWord_of_rejected hs h⟩
  have opcode : w.opField = w.toNat % 32 := by simp [Word.opField, Word.bits]
  have high : w.bits 20 12 = w.toNat / 2 ^ 20 := Nat.mod_eq_of_lt (by have := w.isLt; omega)
  have build : w.bits 5 1 = 0 ↔ ¬ w.toNat / 2 ^ 5 % 2 = 1 := Nat.mod_two_ne_one.symm
  rw [decode_rejects_iff, ← not_exists, exists_accepts_iff]
  simp only [opcode, high, build, not_and_or, Classical.not_imp, not_not, not_lt]
  rfl

end Sys2Proof.Encoding
end

section
/-! PROOFS. The decomposition constraints C-DEC-1 … C-DEC-3 (41_decomp_range.md rules R160–R162): what they force over
the integers, and the round trip of DEC. -/

namespace Sys2Proof.Decomposition

open Sys2Proof.Machine

/-! ### Equality in F -/

theorem fEq_iff_modEq {P : Nat} (hP : 0 < P) (a b : Int) : FEq P a b ↔ a ≡ b [ZMOD P] := by
  rw [FEq, ← Int.natCast_inj, toF_cast hP, toF_cast hP, Int.ModEq]

/-- An element equals its signed value in F. -/
theorem sval_modEq {P v : Nat} (h : v < P) : sval P v ≡ v [ZMOD P] :=
  (fEq_iff_modEq (by omega) _ _).1 ((toF_sval h).trans (toF_of_elem h).symm)

/-- An element that equals a small integer in F has it as its signed value. -/
theorem sval_eq_of_fEq {P v : Nat} (odd : P % 2 = 1) (hv : v < P) {i : Int} (h : FEq P v i) (hi : 2 * mag i < P) :
    sval P v = i := by
  have elem : v = toF P i := (toF_of_elem hv).symm.trans h
  rw [elem, sval_toF odd hi]

/-- The field has no zero divisors, so C-DEC-2 leaves two signs. -/
theorem isSign_iff {P : Nat} (hP : P.Prime) (s : Int) : IsSign P s ↔ FEq P s 1 ∨ FEq P s (-1) := by
  have root (a : Int) : FEq P s a ↔ (P : Int) ∣ s - a := by
    rw [fEq_iff_modEq hP.pos, Int.modEq_comm, Int.modEq_iff_dvd]
  rw [root, root, sub_neg_eq_add, ← (Nat.prime_iff_prime_int.1 hP).dvd_mul, IsSign, fEq_iff_modEq hP.pos,
    Int.modEq_zero_iff_dvd]

/-- The signed value of a sign element. -/
theorem sval_of_isSign {P s : Nat} (hP : P.Prime) (odd : P % 2 = 1) (hs : s < P) (h : IsSign P s) :
    sval P s = 1 ∨ sval P s = -1 := by
  have big : 2 < P := by have := hP.two_le; omega
  rcases (isSign_iff hP s).1 h with h | h
  · exact .inl (sval_eq_of_fEq odd hs h (by rw [mag]; omega))
  · exact .inr (sval_eq_of_fEq odd hs h (by rw [mag]; omega))

/-! ### Limb sums -/

theorem limbSum_congr {l l' : Nat → Int} {n : Nat} (h : ∀ k, k < n → l k = l' k) : limbSum l n = limbSum l' n := by
  induction n with
  | zero => rfl
  | succ n ih => rw [limbSum, limbSum, ih fun k hk => h k (by omega), h n (by omega)]

/-- Sixteen-bit limbs sum to less than their budget. -/
theorem limbSum_mem_budget {l : Nat → Int} {n : Nat} (h : ∀ k, k < n → 0 ≤ l k ∧ l k < 2 ^ 16) :
    0 ≤ limbSum l n ∧ limbSum l n < pow2 (16 * n) := by
  induction n with
  | zero => simp [limbSum]
  | succ n ih =>
    obtain ⟨lower, upper⟩ := ih fun k hk => h k (by omega)
    obtain ⟨limb_nonneg, limb_lt⟩ := h n (by omega)
    have := pow2_pos (16 * n)
    rw [limbSum, Nat.mul_succ, pow2_add, show pow2 16 = 2 ^ 16 from rfl]
    constructor <;> nlinarith

/-- Limb `k` as DEC's padded list returns it. -/
theorem limbList_getD {n k : Nat} (v : Int) (h : k < n) : (limbList n v).getD k 0 = limb v k := by
  have := le_padded n
  simp [limbList, List.getD, show k < padded n by omega]

/-- Every limb of DEC's list has 16 bits, the padding limbs too. -/
theorem limbList_lt {n : Nat} {v l : Int} (h : l ∈ limbList n v) : 0 ≤ l ∧ l < 2 ^ 16 := by
  obtain ⟨k, -, rfl⟩ := List.mem_map.1 h
  have := limb_lt v k
  omega

/-! ### Soundness and the round trip (rule R162) -/

/-- Ten limbs fit half the field: `P > 2^172`. -/
theorem budget_le_half {p : Params} (h : p.Valid) {n : Nat} (hn : n ≤ 10) : 2 ^ (16 * n) ≤ (p.P - 1) / 2 := by
  have := h.large
  have : 2 ^ (16 * n) ≤ 2 ^ 160 := Nat.pow_le_pow_right (by norm_num) (by omega)
  omega

/-- A decomposed element is its sign times its limb sum over the integers: both fit half the field, so the equality in F
does not wrap around. -/
theorem sval_of_decSigned {P n sign v : Nat} {l : Nat → Nat} (hP : P.Prime) (odd : P % 2 = 1)
    (budget : 2 ^ (16 * n) ≤ (P - 1) / 2) (hl : ∀ k, k < n → l k < P) (hs : sign < P) (hv : v < P)
    (h : DecSigned P n (fun k => (l k : Int)) sign v) :
    sval P v = sval P sign * limbSum (fun k => (l k : Int)) n ∧ mag (sval P v) < pow2 (16 * n) := by
  obtain ⟨linear, boolean, lookup⟩ := h
  obtain ⟨sum_nonneg, sum_lt⟩ := limbSum_mem_budget (l := fun k => (l k : Int)) (n := n) fun k hk => by
    have : toF P (l k) < 65536 := lookup k hk
    rw [toF_of_elem (hl k hk)] at this
    omega
  have noWrap : 2 * pow2 (16 * n) < P := by
    have := hP.pos
    rw [pow2]; omega
  have small : mag (sval P sign * limbSum (fun k => (l k : Int)) n) < pow2 (16 * n) := by
    rcases sval_of_isSign hP odd hs boolean with e | e <;> rw [e, mag_lt_iff] <;> omega
  have signed : FEq P v (sval P sign * limbSum (fun k => (l k : Int)) n) := by
    rw [fEq_iff_modEq hP.pos] at linear ⊢
    exact linear.trans ((sval_modEq hs).symm.mul_right _)
  have value := sval_eq_of_fEq odd hv signed (by omega)
  exact ⟨value, value ▸ small⟩

/-- DEC's sign and limbs recompose to its operand. -/
theorem sgn_mul_limbSum_limbList {v : Int} {n : Nat} (h : mag v < pow2 (16 * n)) :
    sgn v * limbSum (fun k => (limbList n v).getD k 0) n = v := by
  rw [limbSum_congr fun k hk => limbList_getD v hk, limbSum_limb v n h, sgn_mul_mag]

/-- Settles O40: ten limbs fit half the field, there the constraints hold over the integers, and DEC recomposes. -/
theorem decompositionIsSound : Obligations.DecompositionIsSound := by
  intro c n
  have valid := c.valid
  simp only [← mag_eq_abs, ← pow2_eq]
  refine ⟨budget_le_half valid, fun budget l sign v hl hs hv h =>
    sval_of_decSigned valid.prime valid.odd budget hl hs hv h, fun v hv => ?_⟩
  exact ⟨_, dec_ok hv (fun u => nomatch u), (sgn_mul_limbSum_limbList hv).symm, fun _ => limbList_lt⟩

end Sys2Proof.Decomposition
end

section
/-! PROOFS. The rounding division RDM (42_rounding_division.md rule R191): its quotient as a plain floor, its error, and
division by 1. -/

namespace Sys2Proof.RoundingDivision

open Sys2Proof.Machine

theorem rdm_p (x y : Int) : (rdm x y).p = y % 2 := modF_two y

theorem rdm_q_eq_rnd (x y : Int) : (rdm x y).q = rnd x y := rfl

theorem rdm_r_eq (x y : Int) : (rdm x y).r = x + y / 2 - (rdm x y).q * y := by
  rw [← half_eq]; rfl

/-- `RDM` divides `x + (y div 2)` by `y` with remainder (rule R191 (b)). -/
theorem rdm_q_eq_ediv (x : Int) {y : Int} (h : 0 < y) : (rdm x y).q = (x + y / 2) / y := by
  obtain ⟨-, r_nonneg, r_lt, -, -⟩ := rdm_spec x h
  have r_eq := rdm_r_eq x y
  refine ((Int.ediv_eq_iff_of_pos h).2 ⟨?_, ?_⟩).symm <;> linarith

/-- Twice the error of the quotient, in units of `1/y`: the remainder taken about 0. -/
theorem rdm_error (x : Int) {y : Int} (h : 0 < y) :
    2 * x - 2 * (rdm x y).q * y = 2 * (rdm x y).r + (rdm x y).p - y := by
  obtain ⟨identity, -⟩ := rdm_spec x h
  linarith

/-- The quotient is within 1/2 of `x/y` (rule R191 (c)). -/
theorem abs_rdm_error_le (x : Int) {y : Int} (h : 0 < y) : |2 * x - 2 * (rdm x y).q * y| ≤ y := by
  obtain ⟨-, r_nonneg, r_lt, p_bit, -⟩ := rdm_spec x h
  rw [rdm_error x h, abs_le]
  omega

/-- At a tie the divisor is even and the remainder is 0: the bound at `+y` is out of reach because `r < y`. -/
theorem rdm_tie {x y : Int} (h : 0 < y) (tie : |2 * x - 2 * (rdm x y).q * y| = y) :
    (rdm x y).p = 0 ∧ (rdm x y).r = 0 := by
  obtain ⟨-, r_nonneg, r_lt, p_bit, -⟩ := rdm_spec x h
  rw [rdm_error x h, abs_eq h.le] at tie
  omega

/-- A tie is rounded toward +∞, for every sign of `x` (rule R191 (c)). -/
theorem rdm_tie_rounds_up {x y : Int} (h : 0 < y) (tie : |2 * x - 2 * (rdm x y).q * y| = y) :
    2 * (rdm x y).q * y = 2 * x + y := by
  have error := rdm_error x h
  obtain ⟨p_zero, r_zero⟩ := rdm_tie h tie
  linarith

theorem rdm_one (x : Int) : rdm x 1 = ⟨x, 0, 1⟩ := by
  have q_eq : (rdm x 1).q = x := by rw [rdm_q_eq_ediv x one_pos]; simp
  have r_eq : (rdm x 1).r = 0 := by rw [rdm_r_eq, q_eq]; simp
  calc rdm x 1 = ⟨(rdm x 1).q, (rdm x 1).r, (rdm x 1).p⟩ := rfl
    _ = ⟨x, 0, 1⟩ := by rw [q_eq, r_eq, show (rdm x 1).p = 1 from rdm_p x 1]

/-- Settles O38: the remainder bounds and the identity are `rdm_spec`; the quotient is a floor in two ways; the error is
at most half the divisor, and a tie, which has parity 0, goes up; dividing by 1 is exact. -/
theorem roundingDivisionProperties : Obligations.RoundingDivisionProperties := by
  intro x y h
  obtain ⟨identity, r_nonneg, r_lt, -, -⟩ := rdm_spec x h
  refine ⟨⟨r_nonneg, r_lt, rdm_p x y, by rw [identity, mul_assoc]⟩,
    ⟨rdm_q_eq_ediv x h, (rdm_q_eq_rnd x y).trans (rnd_eq x h)⟩,
    ⟨abs_rdm_error_le x h, fun tie => ⟨?_, ⟨(rdm x y).q - 1, ?_⟩, rdm_tie_rounds_up h tie⟩⟩, rdm_one x⟩
  · exact (rdm_p x y).symm.trans (rdm_tie h tie).1
  · linarith [rdm_tie_rounds_up h tie]

end Sys2Proof.RoundingDivision
end

section
/-! PROOFS. The square-root core SQ (43_sqrt.md rule R221): the floor bracket, the nearest root and its flag, and the
bounds of every quantity that SQRT and SQRTF decompose. -/

namespace Sys2Proof.Machine.SquareRoot

/-! ### The fields of `SQ` (rule R220) -/

theorem sq_N (m2 : Nat) (x : Int) : (sq m2 x).N = x * delta m2 := rfl

theorem sq_y (m2 : Nat) (x : Int) : (sq m2 x).y = (sq m2 x).f + (sq m2 x).r := rfl

theorem sq_f (m2 : Nat) (x : Int) : (sq m2 x).f = isqrt (sq m2 x).N.toNat := rfl

theorem sq_N_nonneg (m2 : Nat) {x : Int} (hx : 0 ≤ x) : 0 ≤ (sq m2 x).N := mul_nonneg hx (delta_pos m2).le

theorem sq_f_nonneg (m2 : Nat) (x : Int) : 0 ≤ (sq m2 x).f := Int.natCast_nonneg _

/-- The flag says on which side of the half-way point `f² + f + 1/4` the radicand lies. -/
theorem sq_r_cases (m2 : Nat) (x : Int) :
    (sq m2 x).r = 1 ∧ (sq m2 x).N - (sq m2 x).f * (sq m2 x).f > (sq m2 x).f
      ∨ (sq m2 x).r = 0 ∧ (sq m2 x).N - (sq m2 x).f * (sq m2 x).f ≤ (sq m2 x).f := by
  by_cases above : (sq m2 x).N - (sq m2 x).f * (sq m2 x).f > (sq m2 x).f
  · exact .inl ⟨if_pos above, above⟩
  · exact .inr ⟨if_neg above, not_lt.1 above⟩

theorem sq_r_eq_one_iff (m2 : Nat) (x : Int) :
    (sq m2 x).r = 1 ↔ (sq m2 x).N - (sq m2 x).f * (sq m2 x).f > (sq m2 x).f := by
  rcases sq_r_cases m2 x with ⟨r_one, above⟩ | ⟨r_zero, below⟩ <;> omega

/-- The floor bracket (rule R221 (a)). -/
theorem sq_floor (m2 : Nat) {x : Int} (hx : 0 ≤ x) :
    (sq m2 x).f * (sq m2 x).f ≤ (sq m2 x).N ∧ (sq m2 x).N < ((sq m2 x).f + 1) * ((sq m2 x).f + 1) := by
  obtain ⟨lower, upper⟩ := isqrt_spec (sq m2 x).N.toNat
  have radicand : ((sq m2 x).N.toNat : Int) = (sq m2 x).N := Int.toNat_of_nonneg (sq_N_nonneg m2 hx)
  rw [sq_f, ← radicand]
  exact_mod_cast And.intro lower upper

/-! ### The nearest root (rule R221 (b), (c)) -/

/-- Four times the square of the half-way point `f + 1/2`. -/
theorem two_mul_add_one_sq (f : Int) : (2 * f + 1) ^ 2 = 4 * (f * f + f) + 1 := by ring

/-- No tie exists: the square of a half-way point is no integer. -/
theorem four_mul_ne_odd_sq (N f : Int) : 4 * N ≠ (2 * f + 1) ^ 2 := by
  rw [two_mul_add_one_sq]; omega

/-- `N − f² > f` exactly when `√N > f + 1/2`. -/
theorem excess_gt_iff (N f : Int) : N - f * f > f ↔ (2 * f + 1) ^ 2 < 4 * N := by
  rw [two_mul_add_one_sq]; omega

/-- The source's bracket: the flag says whether `y` is the root's floor or its ceiling. -/
theorem sq_y_bracket (m2 : Nat) {x : Int} (hx : 0 ≤ x) :
    (sq m2 x).r = 0 ∧ (sq m2 x).y ^ 2 ≤ (sq m2 x).N ∧ (sq m2 x).N < ((sq m2 x).y + 1) ^ 2
      ∨ (sq m2 x).r = 1 ∧ ((sq m2 x).y - 1) ^ 2 ≤ (sq m2 x).N ∧ (sq m2 x).N < (sq m2 x).y ^ 2 := by
  obtain ⟨lower, upper⟩ := sq_floor m2 hx
  rw [← pow_two] at lower upper
  rw [sq_y]
  rcases sq_r_cases m2 x with ⟨r_one, -⟩ | ⟨r_zero, -⟩
  · rw [r_one, add_sub_cancel_right]
    exact .inr ⟨rfl, lower, upper⟩
  · rw [r_zero, add_zero]
    exact .inl ⟨rfl, lower, upper⟩

/-- How far the radicand lies from `y²`: `N − y²` is in `(−y, y]`, but for `y = 0`, where it is 0. -/
theorem sq_y_error (m2 : Nat) {x : Int} (hx : 0 ≤ x) :
    -(sq m2 x).y ≤ (sq m2 x).N - (sq m2 x).y ^ 2 ∧ (sq m2 x).N - (sq m2 x).y ^ 2 ≤ (sq m2 x).y
      ∧ ((sq m2 x).y = 0 ∨ -(sq m2 x).y < (sq m2 x).N - (sq m2 x).y ^ 2) := by
  obtain ⟨lower, upper⟩ := sq_floor m2 hx
  have f_nonneg := sq_f_nonneg m2 x
  rw [sq_y]
  rcases sq_r_cases m2 x with ⟨r_one, above⟩ | ⟨r_zero, below⟩
  · have ceiling_sq : ((sq m2 x).f + 1) ^ 2 = (sq m2 x).f * (sq m2 x).f + 2 * (sq m2 x).f + 1 := by ring
    rw [r_one, ceiling_sq]
    rw [← pow_two, ceiling_sq] at upper
    omega
  · rw [r_zero, add_zero, pow_two]
    omega

theorem abs_sq_y_error_le (m2 : Nat) {x : Int} (hx : 0 ≤ x) : |(sq m2 x).N - (sq m2 x).y ^ 2| ≤ (sq m2 x).y := by
  obtain ⟨lower, upper, -⟩ := sq_y_error m2 hx
  exact abs_le.2 ⟨lower, upper⟩

/-- `y` is the nearest integer to the root: `y − 1/2 ≤ √N < y + 1/2`. -/
theorem sq_y_nearest (m2 : Nat) {x : Int} (hx : 0 ≤ x) :
    ((sq m2 x).y = 0 ∨ (2 * (sq m2 x).y - 1) ^ 2 ≤ 4 * (sq m2 x).N)
      ∧ 4 * (sq m2 x).N < (2 * (sq m2 x).y + 1) ^ 2 := by
  obtain ⟨-, upper, lower⟩ := sq_y_error m2 hx
  exact ⟨lower.imp_right fun lower => by linarith, by linarith⟩

/-! ### The bounds (rule R221 (d)) -/

/-- The decomposed quantities of SQRT and SQRTF lie in `[0, 2f]`. -/
theorem sq_aux_bounds (m2 : Nat) {x : Int} (hx : 0 ≤ x) :
    (0 ≤ (sq m2 x).N - (sq m2 x).f * (sq m2 x).f
        ∧ (sq m2 x).N - (sq m2 x).f * (sq m2 x).f ≤ 2 * (sq m2 x).f)
      ∧ 0 ≤ ((sq m2 x).f + 1) * ((sq m2 x).f + 1) - (sq m2 x).N - 1
      ∧ ((sq m2 x).f + 1) * ((sq m2 x).f + 1) - (sq m2 x).N - 1 ≤ 2 * (sq m2 x).f := by
  obtain ⟨lower, upper⟩ := sq_floor m2 hx
  refine ⟨⟨?_, ?_⟩, ?_, ?_⟩ <;> linarith

/-- The rounding side lies in `[0, 2f]`: the flag claims the side on which the radicand is. -/
theorem roundingSide_bounds (m2 : Nat) {x : Int} (hx : 0 ≤ x) :
    0 ≤ roundingSide (sq m2 x) ∧ roundingSide (sq m2 x) ≤ 2 * (sq m2 x).f := by
  obtain ⟨⟨a1_nonneg, a1_le⟩, -⟩ := sq_aux_bounds m2 hx
  have f_nonneg := sq_f_nonneg m2 x
  rw [roundingSide]
  rcases sq_r_cases m2 x with ⟨r_one, above⟩ | ⟨r_zero, below⟩
  · rw [if_pos r_one]; omega
  · rw [if_neg (by omega)]; omega

/-- The flag adds at most 1 to the floor. -/
theorem sq_y_le (m2 : Nat) (x : Int) : (sq m2 x).y ≤ (sq m2 x).f + 1 := by
  rw [sq_y]
  rcases sq_r_cases m2 x with ⟨r_one, -⟩ | ⟨r_zero, -⟩ <;> omega

theorem sq_N_lt {m1 m2 : Nat} {x : Int} (hx : x < bound m1 m2) : (sq m2 x).N < bound m1 m2 * delta m2 :=
  mul_lt_mul_of_pos_right hx (delta_pos m2)

/-- `B·δ` is a square, so its root bounds `f`. -/
theorem bound_mul_delta (m1 m2 : Nat) : bound m1 m2 * delta m2 = (2 ^ (8 * (m1 + m2 + m2))) ^ 2 := by
  rw [bound, delta, ← pow2_add, pow2_eq, ← pow_mul]
  congr 1; omega

theorem sq_f_lt {m1 m2 : Nat} {x : Int} (hx : 0 ≤ x) (hB : x < bound m1 m2) :
    (sq m2 x).f < 2 ^ (8 * (m1 + m2 + m2)) := by
  refine lt_of_pow_lt_pow_left₀ 2 (by positivity) ?_
  calc (sq m2 x).f ^ 2 = (sq m2 x).f * (sq m2 x).f := pow_two _
    _ ≤ (sq m2 x).N := (sq_floor m2 hx).1
    _ < bound m1 m2 * delta m2 := sq_N_lt hB
    _ = (2 ^ (8 * (m1 + m2 + m2))) ^ 2 := bound_mul_delta m1 m2

/-- The integer limbs leave room for twice the root's bound: `8·(m + m2) < 16·m`. -/
theorem two_mul_rootBound_le {m1 : Nat} (h1 : Legal m1) (m2 : Nat) :
    2 * (2 : Int) ^ (8 * (m1 + m2 + m2)) ≤ bound m1 m2 := by
  have m1_pos : 1 ≤ m1 := by omega
  rw [bound, pow2_eq, ← pow_succ']
  exact pow_le_pow_right₀ (by norm_num) (by omega)

/-- Settles O39: the floor bracket is `isqrt_spec`; the flag decides between the floor and the ceiling, and no tie
exists; every bound follows from `f² ≤ N < B·δ`, where the right side is a square. -/
theorem squareRootBracket : Obligations.SquareRootBracket := by
  intro m1 m2 x h1 _ hx hB
  obtain ⟨lower, upper⟩ := sq_floor m2 hx
  obtain ⟨nearest_lower, nearest_upper⟩ := sq_y_nearest m2 hx
  obtain ⟨⟨a1_nonneg, a1_le⟩, a2_nonneg, a2_le⟩ := sq_aux_bounds m2 hx
  obtain ⟨a3_nonneg, a3_le⟩ := roundingSide_bounds m2 hx
  have f_nonneg := sq_f_nonneg m2 x
  have f_lt := sq_f_lt hx hB
  have room := two_mul_rootBound_le h1 m2
  have y_le := sq_y_le m2 x
  exact ⟨sq_N m2 x, lower, upper, f_nonneg, sq_r_eq_one_iff m2 x, excess_gt_iff _ _, four_mul_ne_odd_sq _ _,
    nearest_lower, nearest_upper, sq_y_bracket m2 hx, abs_sq_y_error_le m2 hx, sq_N_lt hB, f_lt, by linarith,
    a1_nonneg, a1_le, a2_nonneg, a2_le, a3_nonneg, a3_le, by linarith, y_le, by linarith⟩

end Sys2Proof.Machine.SquareRoot
end

section
/-! PROOFS. The value of ATAN in one line, and its oddness (44_atan.md rule R257). -/

namespace Sys2Proof.Machine.Arctangent

theorem flag_eq (c : Bool) : flag c = 0 ∨ flag c = 1 := by cases c <;> simp [flag]

theorem sgn_neg {x : Int} (hx : x ≠ 0) : sgn (-x) = -sgn x := by
  rcases hx.lt_or_gt with neg | pos
  · rw [sgn, sgn, if_neg (by omega), if_pos neg, neg_neg]
  · rw [sgn, sgn, if_pos (by omega), if_neg (by omega)]

/-! ### The value in one line -/

theorem atanStage1_gt1_eq (m2 : Nat) (x : Int) : (atanStage1 m2 x).gt1 = 0 ∨ (atanStage1 m2 x).gt1 = 1 :=
  flag_eq _

/-- Stage 5 divides the Taylor numerator by `15·δ⁴` with one rounding: this is `P5(v)`. -/
theorem atanStage5_pt (m2 : Nat) (v : Int) :
    (atanStage5 m2 v).pt
      = rnd (15 * v * delta m2 ^ 4 - 5 * v ^ 3 * delta m2 ^ 2 + 3 * v ^ 5) (15 * delta m2 ^ 4) := rfl

/-- Stage 6 without its case split: a one-bit `gt1` selects `w` or its complement to `PI_2`. -/
theorem atanStage6_res (pi2 pi6 : Int) {c : AtanStage1} (bit : c.gt1 = 0 ∨ c.gt1 = 1) (gt2 pt : Int) :
    (atanStage6 pi2 pi6 c gt2 pt).res = c.s * (c.gt1 * pi2 + (1 - 2 * c.gt1) * (pt + gt2 * pi6)) := by
  rcases bit with zero | one
  · simp [atanStage6, zero]
  · simp only [atanStage6, one, if_true]
    ring

/-- The run's result in terms of its own flags and its stage-5 value. -/
theorem atanRun_res (e : Env) (x : Int) :
    (atanRun e x).s6.res = sgn x * ((atanRun e x).s1.gt1 * e.p.pi2 e.m2 + (1 - 2 * (atanRun e x).s1.gt1) *
      ((atanRun e x).s5.pt + (atanRun e x).s3.gt2 * e.p.pi6 e.m2)) :=
  atanStage6_res _ _ (atanStage1_gt1_eq e.m2 x) _ _

/-! ### Oddness: the stages see `|x|` until the final sign -/

theorem atanStage1_neg (m2 : Nat) {x : Int} (hx : x ≠ 0) :
    atanStage1 m2 (-x) = { atanStage1 m2 x with s := -(atanStage1 m2 x).s } := by
  rw [atanStage1, mag_neg, sgn_neg hx]
  rfl

theorem atanStage2_sign (m2 : Nat) (c : AtanStage1) (s : Int) : atanStage2 m2 { c with s } = atanStage2 m2 c := rfl

theorem atanStage6_neg_sign (pi2 pi6 : Int) (c : AtanStage1) (gt2 pt : Int) :
    atanStage6 pi2 pi6 { c with s := -c.s } gt2 pt
      = { atanStage6 pi2 pi6 c gt2 pt with res := -(atanStage6 pi2 pi6 c gt2 pt).res } := by
  simp only [atanStage6, neg_mul]

/-- The run at `-x` is the run at `x` but for the sign of stage 1 and the result of stage 6. -/
theorem atanRun_neg (e : Env) {x : Int} (hx : x ≠ 0) :
    atanRun e (-x) =
      { atanRun e x with
        s1 := { (atanRun e x).s1 with s := -(atanRun e x).s1.s }
        s6 := { (atanRun e x).s6 with res := -(atanRun e x).s6.res } } := by
  simp only [atanRun, atanStage1_neg e.m2 hx, atanStage2_sign, atanStage6_neg_sign]

/-- Settles O41: the value is stage 6 with stage 5's rounding written out; oddness is the result of the run at `-x`. -/
theorem atanIsOdd : Obligations.AtanIsOdd := by
  intro e x
  have res := atanRun_res e x
  have pt : (atanRun e x).s5.pt = _ := atanStage5_pt e.m2 (atanRun e x).s4.v
  rw [pt] at res
  exact ⟨res, fun hx => by rw [atanRun_neg e hx]⟩

end Sys2Proof.Machine.Arctangent
end

section
/-! PROOFS. Faults and ABORT (60_exceptions.md rules R401, R402, R405, R406): the three ways a CMD write ends, and what
a host line can do under ABORT. -/

namespace Sys2Proof.Exceptions

open Sys2Proof.Machine

/-! ### The ends of a CMD write -/

/-- Every compute command runs in the one frame of rule R143. -/
theorem runs_eq_perform (p : Params) {i : Instr} (h : i.op.isCompute = true) (s : State) :
    ∃ body, runs p i s = perform p i s body := by
  cases i with
  | nop => cases h
  | config _ _ _ => cases h
  | _ => exact ⟨_, rfl⟩

/-- A completed compute command counts and writes neither STATUS nor FCMD (rules R39, R143). -/
theorem frame_keeps_faultRecord {p : Params} {i : Instr} {s t : State} {body : Env → Except FaultCode BodyOut}
    (h : frame p i s body = .ok t) : t.status = s.status ∧ t.fcmd = s.fcmd ∧ t.ccnt = s.ccnt + 1 := by
  obtain ⟨-, -, -, -, -, out, -, -, rfl⟩ := frame_eq_ok h
  exact ⟨commit_status .., commit_fcmd .., commit_ccnt ..⟩

/-- The three ways a CMD write of `w` ends: ignored under ABORT, completed and counted with STATUS and FCMD untouched, or
a fault taken (rules R39, R401, R405). -/
inductive Ends (w : Word) (s : State) : State → Prop where
  | ignored (aborted : s.abort = true) : Ends w s s
  | completed {t : State} (running : s.abort = false) (status : t.status = s.status) (fcmd : t.fcmd = s.fcmd)
      (ccnt : t.ccnt = s.ccnt + 1) : Ends w s t
  | fault (running : s.abort = false) (c : FaultCode) : Ends w s (s.raiseFault w c)

theorem perform_ends (p : Params) (i : Instr) (s : State) (body : Env → Except FaultCode BodyOut) :
    Ends (encode i) s (perform p i s body) := by
  rcases perform_cases p i s body with ⟨aborted, e⟩ | ⟨running, t, completed, e⟩ | ⟨running, c, -, e⟩ <;> rw [e]
  · exact .ignored aborted
  · obtain ⟨status, fcmd, ccnt⟩ := frame_keeps_faultRecord completed
    exact .completed running status fcmd ccnt
  · exact .fault running c

/-- A command behind the ABORT test ends as ignored under ABORT, so its other ends need looking at only while the unit
runs (rule R405). -/
theorem ends_unlessAborted {w : Word} {s t : State} (h : s.abort = false → Ends w s t) :
    Ends w s (s.unlessAborted t) := by
  cases ha : s.abort with
  | true => rw [unlessAborted_of_abort ha]; exact .ignored ha
  | false => rw [unlessAborted_of_running ha]; exact h ha

theorem exec_compute_ends {i : Instr} (h : i.op.isCompute = true) (s : State) :
    ∃ t, exec i s = .next t ∧ Ends (encode i) s t := by
  obtain ⟨body, e⟩ := runs_eq_perform Config.own h s
  exact ⟨_, exec_runs h s, e ▸ perform_ends Config.own i s body⟩

theorem exec_ends (i : Instr) (s : State) : ∃ t, exec i s = .next t ∧ Ends (encode i) s t := by
  cases i with
  | nop => exact ⟨_, rfl, ends_unlessAborted fun running => .completed running rfl rfl rfl⟩
  | config cm1 cm2 ncols =>
    refine ⟨_, rfl, ends_unlessAborted fun running => ?_⟩
    split
    · exact .completed running rfl rfl rfl
    · exact .fault running .cfgInvalid
  | _ => exact exec_compute_ends rfl s

/-- A word that decodes is its command's own word, and one that does not raises ILLEGAL (rules R106, R107): so the
fault a CMD write takes records the word written. -/
theorem performWord_ends (w : Word) (s : State) : ∃ t, performWord w s = .next t ∧ Ends w s t := by
  cases hd : decode w with
  | ok i =>
    obtain ⟨-, rfl⟩ := Encoding.wf_and_eq_encode_of_decode hd
    rw [performWord_of_ok hd]
    exact exec_ends i s
  | error r => exact ⟨_, performWord_of_error hd s, ends_unlessAborted fun running => .fault running .illegal⟩

/-- Settles O11: of the three ends of a CMD write, being ignored needs ABORT before, and completing leaves ABORT clear;
the third is the fault. -/
theorem faultsArePrecise : Obligations.FaultsArePrecise := by
  intro w s t running ht aborted
  obtain ⟨_, next, ends⟩ := performWord_ends w s
  obtain rfl := Host.Outcome.next.inj (next.symm.trans ht)
  cases ends with
  | ignored abortedBefore => simp [running] at abortedBefore
  | completed _ status => simp [abort_of_status status, running] at aborted
  | fault _ c => exact ⟨c.code, (code_range c).1, (code_range c).2, rfl⟩

/-! ### Under ABORT -/

/-- Under ABORT a CMD write of any word is ignored (rule R405). -/
theorem performWord_of_abort {s : State} (h : s.abort = true) (w : Word) : performWord w s = .next s := by
  obtain ⟨t, next, ends⟩ := performWord_ends w s
  cases ends with
  | ignored => exact next
  | completed running => simp [h] at running
  | fault running => simp [h] at running

@[simp] theorem afterLine_abort (s : State) (rest : List HostEvent) : (s.afterLine rest).abort = s.abort := rfl

/-- A host write that goes on performs a word, or assigns ROW or an operand register (rule R120). -/
theorem hostWrite_eq_next {p : Params} {addr : Nat} {value : Int} {s t : State}
    (h : hostWrite p addr value s = .next t) :
    performWord (wordOf value) s = .next t ∨ (∃ w, t = { s with row := w }) ∨ ∃ r v, t = s.setF r v := by
  unfold hostWrite at h
  split at h
  case h_2 => exact .inl h
  case h_3 => cases h; exact .inr (.inl ⟨_, rfl⟩)
  case h_4 | h_5 | h_6 => cases h; exact .inr (.inr ⟨_, _, rfl⟩)
  all_goals cases h

/-- A host read that goes on observes a value (rule R81). -/
theorem hostRead_eq_next {addr : Nat} {s t : State} (h : hostRead addr s = .next t) : ∃ v, t = s.observe v := by
  unfold hostRead at h
  split at h
  · cases h
  · cases h
  · split at h <;> cases h
    exact ⟨_, rfl⟩

/-- A host read of a trace cell that goes on observes a value (rule R76). -/
theorem hostReadCell_eq_next {p : Params} {a : CellAddr} {s t : State} (h : hostReadCell p a s = .next t) :
    ∃ v, t = s.observe v := by
  unfold hostReadCell at h
  split at h
  · split at h <;> cases h
    exact ⟨_, rfl⟩
  · cases h

/-- `fx` that goes on assigns its register (rule R122). -/
theorem hostFx_eq_next {p : Params} {reg : FReg} {num : Int} {den : Nat} {s t : State}
    (h : hostFx p reg num den s = .next t) : ∃ v, t = s.setF reg v := by
  unfold hostFx at h
  rw [hostWrite_freg] at h
  split at h
  · cases h
  · split at h <;> cases h
    exact ⟨_, rfl⟩

/-- `cp` that goes on observes a value and assigns its register (rule R122). -/
theorem hostCp_eq_next {p : Params} {reg : FReg} {addr : Nat} {s t : State} (h : hostCp p reg addr s = .next t) :
    ∃ v x, t = (s.observe v).setF reg x := by
  unfold hostCp at h
  split at h
  · cases h
  · cases h
  · split at h
    · rw [hostWrite_freg] at h
      cases h
      exact ⟨_, _, rfl⟩
    · cases h

/-- Under ABORT no host line but a reset writes STATUS or FCMD: a CMD write is ignored, and every other line writes
other registers (rules R405, R406). -/
theorem hostEvent_keeps_faultRecord {p : Params} {h : HostEvent} {s t : State} (aborted : s.abort = true)
    (notReset : h ≠ .reset) (ht : hostEvent p h s = .next t) : t.status = s.status ∧ t.fcmd = s.fcmd := by
  cases h with
  | write addr value =>
    rcases hostWrite_eq_next ht with cmd | ⟨w, rfl⟩ | ⟨r, v, rfl⟩
    · cases (performWord_of_abort aborted _).symm.trans cmd
      exact ⟨rfl, rfl⟩
    · exact ⟨rfl, rfl⟩
    · exact ⟨setF_status .., setF_fcmd ..⟩
  | read addr =>
    obtain ⟨v, rfl⟩ := hostRead_eq_next ht
    exact ⟨rfl, rfl⟩
  | readCell a =>
    obtain ⟨v, rfl⟩ := hostReadCell_eq_next ht
    exact ⟨rfl, rfl⟩
  | writeCell a value => cases ht
  | fx reg num den =>
    obtain ⟨v, rfl⟩ := hostFx_eq_next ht
    exact ⟨setF_status .., setF_fcmd ..⟩
  | cp reg addr =>
    obtain ⟨v, x, rfl⟩ := hostCp_eq_next ht
    exact ⟨setF_status .., setF_fcmd ..⟩
  | wait => cases ht; exact ⟨rfl, rfl⟩
  | reset => exact absurd rfl notReset

/-- CMD holds nothing, so a register that reads as a value is another one (rule R33). -/
theorem ne_cmd_of_readReg {s : State} {r : Reg} {v : HostValue} (h : s.readReg r = some v) : r ≠ .cmd := by
  rintro rfl
  cases h

/-- One step of this machine, by the next line of the host program. -/
theorem step_cons {s : State} {h : HostEvent} {rest : List HostEvent} (hh : s.host = h :: rest) :
    step s = hostEvent Config.own h (s.afterLine rest) := stepOn_cons hh

theorem readReg_afterLine (s : State) (rest : List HostEvent) (r : Reg) :
    (s.afterLine rest).readReg r = s.readReg r := by
  cases r <;> rfl

/-- Settles O12: the CMD write is ignored, the other accesses answer as the register map says whatever ABORT is, and no
line but a reset writes STATUS or FCMD. -/
theorem abortLocksTheUnit : Obligations.AbortLocksTheUnit := by
  intro s rest aborted
  have abortedAfterLine : (s.afterLine rest).abort = true := (afterLine_abort s rest).trans aborted
  refine ⟨fun value hh => ?cmd, fun value hh => ?row, fun r value hh => ?operand, fun addr r v hh hr hv => ?read,
    fun h t hh notReset ht => ?sticky⟩
  case cmd => exact (step_cons hh).trans (performWord_of_abort abortedAfterLine _)
  case row => exact (step_cons hh).trans (hostWrite_row Config.own value _)
  case operand => exact (step_cons hh).trans (hostWrite_freg ..)
  case read =>
    have value : (s.afterLine rest).readReg r = some v := (readReg_afterLine s rest r).trans hv
    exact (step_cons hh).trans (hostRead_of_value hr (ne_cmd_of_readReg hv) value)
  case sticky =>
    rw [step_cons hh] at ht
    exact hostEvent_keeps_faultRecord (s := s.afterLine rest) abortedAfterLine notReset ht

end Sys2Proof.Exceptions
end

section
/-! PROOFS. The encoder's round trip (30_encoding.md rules R101, R105, R107), and a step by the host line it performs
(10_state.md rules R30–R37, 30_encoding.md rules R120, R122). -/

namespace Sys2Proof.HostLines

open Sys2Proof.Machine
open Sys2Proof.Exceptions (step_cons readReg_afterLine)

/-! ### Encoding -/

/-- Settles O1: six closed words, each decoded by evaluation. -/
theorem sampleWordsDecode : Obligations.SampleWordsDecode := by
  unfold Obligations.SampleWordsDecode
  decide

/-- Settles O2: the encoding of a well-formed command is accepted and its fields read back. -/
theorem decodeOfEncode : Obligations.DecodeOfEncode := fun _ => Encoding.decode_encode

/-! ### Command lines and writes -/

/-- Settles O5: the line is a CMD write, and a decoding word performs its command. -/
theorem stepRunsTheDecodedCommand : Obligations.StepRunsTheDecodedCommand :=
  fun _ _ _ _ hh decoded => (step_cons hh).trans (performWord_of_ok decoded _)

/-- Settles O6: ROW takes the integer modulo 2^32, an operand register its field image. -/
theorem hostWritesOperandsAndRow : Obligations.HostWritesOperandsAndRow := by
  intro s rest value
  refine ⟨fun hh => ?_, fun hh => ?_, fun hh => ?_, fun hh => ?_⟩ <;> rw [step_cons hh]
  · exact hostWrite_row Config.own value _
  · exact hostWrite_freg Config.own .opa value _
  · exact hostWrite_freg Config.own .opb value _
  · exact hostWrite_freg Config.own .opc value _

/-! ### Reads -/

/-- A read of an assigned cell of the grid observes it (rule R76). -/
theorem hostReadCell_of_assigned {p : Params} {a : CellAddr} {v : Nat} {s : State} (inside : ¬ OutsideGrid p a)
    (assigned : Trace.read s.trace a = some v) : hostReadCell p a s = .next (s.observe (.elem v)) := by
  simp [hostReadCell, inGrid_iff.2 inside, assigned]

/-- A read of an unassigned cell of the grid has no value (rule R76). -/
theorem hostReadCell_of_unassigned {p : Params} {a : CellAddr} {s : State} (inside : ¬ OutsideGrid p a)
    (unassigned : Trace.read s.trace a = none) : hostReadCell p a s = .fault (.hostReadUnassignedCell a) := by
  simp [hostReadCell, inGrid_iff.2 inside, unassigned]

/-- A read of a cell outside the grid is refused. -/
theorem hostReadCell_of_outside {p : Params} {a : CellAddr} {s : State} (outside : OutsideGrid p a) :
    hostReadCell p a s = .refused (.hostCellOutside a) := by
  have : inGrid p a = false := by
    rw [← Bool.not_eq_true, inGrid_iff]
    exact not_not.2 outside
  simp [hostReadCell, this]

/-- Settles O7: a register that holds a value reads as it, and so does an assigned cell of the grid. -/
theorem hostReadsObserveOnly : Obligations.HostReadsObserveOnly := by
  refine fun s rest => ⟨fun addr v hh holds => ?_, fun a v hh inside assigned => ?_⟩ <;> rw [step_cons hh]
  · obtain ⟨r, listed, notCmd, value⟩ := holds.readReg
    exact hostRead_of_value listed notCmd ((readReg_afterLine s rest r).trans value)
  · exact hostReadCell_of_assigned inside assigned

/-! ### The lines that do not go on -/

/-- The registers marked R in rule R32 stand at these addresses. -/
theorem hostWrite_of_readOnly {p : Params} {addr : Nat} (value : Int) (s : State)
    (readOnly : addr = 0x01 ∨ addr = 0x02 ∨ 0x07 ≤ addr ∧ addr ≤ 0x0A ∨ 0x10 ≤ addr ∧ addr ≤ 0x20) :
    hostWrite p addr value s = .refused (.hostWriteReadOnly addr) := by
  rcases readOnly with rfl | rfl | ⟨lo, hi⟩ | ⟨lo, hi⟩
  · rfl
  · rfl
  · interval_cases addr <;> rfl
  · obtain ⟨k, rfl⟩ := Nat.exists_eq_add_of_le lo
    have listed := ofAddr_res ⟨k, by omega⟩
    simp only [hostWrite, listed]

/-- Settles O8: the register map decides the accesses by address, and the value read decides the others. -/
theorem hostErrorsStop : Obligations.HostErrorsStop := by
  intro s rest
  have none_afterLine {r : Reg} (h : s.readReg r = none) : (s.afterLine rest).readReg r = none :=
    (readReg_afterLine s rest r).trans h
  refine ⟨fun addr hh unlisted => ?_, fun addr value hh unlisted => ?_, fun hh => ?_, fun addr value hh readOnly => ?_,
    fun addr hh holds => ?_, fun a hh inside unassigned => ?_, fun a hh outside => ?_, fun a value hh => ?_,
    fun r num hh => ?_, fun r num den hh den_pos unconfigured => ?_, fun r addr hh holds => ?_,
    fun r addr hh unlisted => ?_, fun r hh => ?_⟩ <;> rw [step_cons hh]
  · simp [hostEvent, hostRead, ofAddr_of_unlisted unlisted]
  · simp [hostEvent, hostWrite, ofAddr_of_unlisted unlisted]
  · rfl
  · exact hostWrite_of_readOnly value _ readOnly
  · obtain ⟨r, listed, notCmd, noValue⟩ := holds.readReg
    exact hostRead_of_none listed notCmd (none_afterLine noValue)
  · exact hostReadCell_of_unassigned inside unassigned
  · exact hostReadCell_of_outside outside
  · rfl
  · rfl
  · have unconfigured : (s.afterLine rest).cfgValid = false := unconfigured
    simp [hostEvent, hostFx, den_pos.ne', unconfigured]
  · obtain ⟨q, listed, notCmd, noValue⟩ := holds.readReg
    exact hostCp_of_none listed notCmd (none_afterLine noValue)
  · simp [hostEvent, hostCp, ofAddr_of_unlisted unlisted]
  · rfl

/-! ### Pseudo-instructions, the idle step and reset -/

/-- `fx` writes the nearest integer to its fraction of `δ` (rule R122). -/
theorem hostFx_of_nearest {p : Params} {reg : FReg} {num q : Int} {den : Nat} {s : State}
    (configured : s.cfgValid = true)
    (den_pos : 0 < den) (lo : 2 * (q * den) ≤ 2 * (num * delta s.m2) + den)
    (hi : 2 * (num * delta s.m2) + den < 2 * (q * den) + 2 * den) :
    hostFx p reg num den s = .next (s.setF reg (toF p.P q)) := by
  have nearest : fxInt s.m2 num den = q := rnd_unique (by exact_mod_cast den_pos) lo hi
  simp [hostFx, den_pos.ne', configured, nearest]

/-- Settles O9: `fx` by the two bounds of the nearest integer, `cp` by the value the register holds. -/
theorem pseudoInstructionsAndIdle : Obligations.PseudoInstructionsAndIdle := by
  refine fun s rest => ⟨fun r num q den hh configured den_pos lo hi => ?_, fun r addr v hh holds => ?_, fun hh => ?_,
    fun hh => stepOn_nil hh⟩ <;> rw [step_cons hh]
  · exact hostFx_of_nearest (s := s.afterLine rest) configured den_pos lo hi
  · obtain ⟨q, listed, notCmd, value⟩ := holds.readReg
    exact hostCp_of_value listed notCmd ((readReg_afterLine s rest q).trans value)
  · rfl

theorem reset_res (k : Fin 17) : State.reset.res[k] = none := by
  simp [State.reset, Ffeu.reset]

/-- Settles O10: the next state is the reset unit with the two host fields. -/
theorem resetClearsEverything : Obligations.ResetClearsEverything := fun _ _ hh =>
  ⟨_, step_cons hh, rfl, rfl, rfl, rfl, rfl, rfl, rfl, reset_res, rfl, rfl, rfl, fun _ => rfl, rfl, rfl⟩

end Sys2Proof.HostLines
end

section
/-! PROOFS. What a compute command runs in the frame of 40_control.md rule R143, what a command and a host line can do
to the state, and the invariants of every step (10_state.md rules R34–R46, 20_memory.md rules R70–R75). -/

namespace Sys2Proof.Steps

open Sys2Proof.Machine
open Sys2Proof.Exceptions (step_cons)

/-! ### The body of a compute command -/

/-- Steps 5 and 6 of rule R143 for the command `i` in the state `s`: what `runs` hands to the frame (`runs_eq`). NOP and
CONFIG have no body and stand here only to make the function total. -/
def body (i : Instr) (s : State) (e : Env) : Except FaultCode BodyOut :=
  match i with
  | .nop => .ok ⟨[], []⟩
  | .config _ _ _ => .ok ⟨[], []⟩
  | .range16 _ => do
    let v ← operand s.opa
    range16Body e v
  | .decomp _ n u => do
    let v ← operand s.opa
    decompBody e n u v
  | .rdiv _ => do
    let v ← operand s.opa
    let w ← operand s.opb
    rdivBody e v w
  | .divp _ => do
    let v ← operand s.opa
    let w ← operand s.opb
    divpBody e v w
  | .sqrt _ => do
    let v ← operand s.opa
    sqrtBody e v
  | .sqrtf _ => do
    let v ← operand s.opa
    sqrtfBody e v
  | .atan _ => do
    let v ← operand s.opa
    atanBody e v
  | .rem _ => do
    let v ← operand s.opa
    let w ← operand s.opb
    let z ← operand s.opc
    remBody e v w z
  | .tlut _ j => do
    let v ← operand s.opa
    tlutBody e j v
  | .sin _ => do
    let v ← operand s.opa
    sinBody e v
  | .cos _ => do
    let v ← operand s.opa
    cosBody e v
  | .tan _ => do
    let v ← operand s.opa
    tanBody e v
  | .expr _ => do
    let v ← operand s.opa
    exprBody e v
  | .log _ => do
    let v ← operand s.opa
    logBody e v

/-- Every compute command performs its body in the frame. -/
theorem runs_eq (p : Params) {i : Instr} (compute : i.op.isCompute = true) (s : State) :
    runs p i s = perform p i s (body i s) := by
  cases i with
  | nop => cases compute
  | config _ _ _ => cases compute
  | _ => rfl

/-! ### What each part of a body answers -/

theorem bind_eq_ok_iff {ε α β : Type} {x : Except ε α} {f : α → Except ε β} {b : β} :
    (x >>= f) = .ok b ↔ ∃ a, x = .ok a ∧ f a = .ok b := by
  refine ⟨except_bind_eq_ok, ?_⟩
  rintro ⟨a, rfl, h⟩
  exact h

theorem raiseIf_eq_ok_iff {cond : Bool} {c : FaultCode} {u : Unit} : raiseIf cond c = .ok u ↔ cond = false := by
  cases cond <;> simp

theorem operand_eq_ok_iff {r : Option Nat} {v : Nat} : operand r = .ok v ↔ r = some v := by
  refine ⟨operand_eq_ok, ?_⟩
  rintro rfl
  rfl

theorem fxop_eq_ok_iff {e : Env} {v : Nat} {x : Int} :
    fxop e v = .ok x ↔ sval e.p.P v = x ∧ mag x < e.bound := by
  constructor
  · intro h
    obtain ⟨rfl, small⟩ := fxop_eq_ok h
    exact ⟨rfl, small⟩
  · rintro ⟨rfl, small⟩
    exact fxop_ok small

theorem checkResult_eq_ok_iff {e : Env} {z : Int} {u : Unit} : checkResult e z = .ok u ↔ mag z < e.bound :=
  ⟨checkResult_eq_ok, checkResult_ok⟩

/-- Reading one operand as a fixed-point value: it holds a representable integer, on which the command goes on. -/
theorem fixed_bind_eq_ok_iff {α : Type} {p : Params} {s : State} {r : Option Nat} {f : Int → Except FaultCode α}
    {out : α} :
    (operand r >>= fun v => fxop (s.env p) v >>= f) = .ok out ↔ ∃ x, HoldsFixed p s r x ∧ f x = .ok out := by
  simp only [bind_eq_ok_iff, operand_eq_ok_iff, fxop_eq_ok_iff, HoldsFixed]
  constructor
  · rintro ⟨v, hr, x, ⟨value, small⟩, h⟩
    exact ⟨x, ⟨v, hr, value, small⟩, h⟩
  · rintro ⟨x, ⟨v, hr, value, small⟩, h⟩
    exact ⟨v, hr, x, ⟨value, small⟩, h⟩

/-! ### How a compute command ends -/

/-- What a completed compute command passed: every check of rule R143, with the answer of its body. -/
structure Commits (p : Params) (i : Instr) (s : State) (out : BodyOut) : Prop where
  running : s.abort = false
  configured : s.cfgValid = true
  position : badLimbPosition i s.m2 = false
  columns : p.minCols i.op s.m1 s.m2 ≤ s.ncols
  bounds : s.row.toNat + rows p i.op s.m1 s.m2 s.ncols ≤ p.traceRows
  free : Trace.overlaps s.trace (region p i.op s.m1 s.m2 s.ncols s.row.toNat i.build) = false
  body : body i s (s.env p) = .ok out
  sites : (slots p i.op s.m1 s.m2).all (Slot.fits out.values) = true

/-- The three ways a compute command ends (rules R143, R401, R405). -/
theorem runs_cases (p : Params) {i : Instr} (compute : i.op.isCompute = true) (s : State) :
    (s.abort = true ∧ runs p i s = s)
    ∨ (∃ out, Commits p i s out ∧ runs p i s = commit (s.env p) i s out)
    ∨ (s.abort = false ∧ ∃ c, frame p i s (body i s) = .error c ∧ runs p i s = s.raiseFault (encode i) c) := by
  rw [runs_eq p compute]
  rcases perform_cases p i s (body i s) with ignored | ⟨running, t, completed, e⟩ | fault
  · exact .inl ignored
  · obtain ⟨configured, position, columns, bounds, free, out, answer, sites, rfl⟩ := frame_eq_ok completed
    exact .inr (.inl ⟨out, ⟨running, configured, position, columns, bounds, free, answer, sites⟩, e⟩)
  · exact .inr (.inr fault)

/-- A legal CFG with VALID set holds legal limb counts (rules R35, R141). -/
theorem legal_of_cfgLegal {s : State} (legal : CfgLegal s) (configured : s.cfgValid = true) :
    Legal s.m1 ∧ Legal s.m2 := by
  rcases legal with zero | ⟨a, b, n, ha, hb, hn, cfg⟩
  · rw [State.cfgValid, zero] at configured
    cases configured
  · have fields := cfgWord_toNat (a := a) (b := b) (c := n) (by omega) (by omega) hn
    rw [State.m1, State.m2, cfg, fields]
    omega

/-- A command that completed under a legal CFG had its frame ready. -/
theorem Commits.ready {p : Params} {i : Instr} {s : State} {out : BodyOut} (h : Commits p i s out)
    (legal : CfgLegal s) : FrameReady p i s where
  running := h.running
  configured := h.configured
  m1 := (legal_of_cfgLegal legal h.configured).1
  m2 := (legal_of_cfgLegal legal h.configured).2
  position := h.position
  columns := h.columns
  bounds := h.bounds
  free := h.free

/-- A region that is free holds no assigned cell, so the commit keeps every assigned one (rules R74, R75). -/
theorem Commits.keeps_assigned {p : Params} {i : Instr} {s : State} {out : BodyOut} (h : Commits p i s out)
    {a : CellAddr} {v : Nat} (assigned : Trace.read s.trace a = some v) :
    Trace.read (commit (s.env p) i s out).trace a = some v := by
  rw [commit_trace, read_writeAll_other _ _ fun written => ?_]
  · exact assigned
  · obtain ⟨e, he, rfl⟩ := List.mem_map.1 written
    have taken := overlaps_iff.2 ⟨e.1, cellWrites_region he, v, assigned⟩
    exact Bool.false_ne_true (h.free.symm.trans taken)

/-! ### How a command and a CMD write end -/

/-- The ends of a command in this machine's configuration, with the state each leaves (rules R140, R141, R143, R401,
R405). -/
inductive CommandEnds (i : Instr) (s : State) : State → Prop where
  | ignored (aborted : s.abort = true) : CommandEnds i s s
  | counted (isNop : i = .nop) : CommandEnds i s s.count
  | configured {a b n : Nat} (isConfig : i = .config a b n) (m1 : Legal a) (m2 : Legal b) :
      CommandEnds i s (s.configured a b n)
  | committed {out : BodyOut} (compute : i.op.isCompute = true) (commits : Commits Config.own i s out) :
      CommandEnds i s (commit (s.env Config.own) i s out)
  | fault (running : s.abort = false) (c : FaultCode) : CommandEnds i s (s.raiseFault (encode i) c)

theorem configLegal_iff {a b : Nat} : configLegal a b = true ↔ Legal a ∧ Legal b := by
  simp [configLegal, Legal]

theorem exec_config_of_legal {s : State} {a b n : Nat} (running : s.abort = false) (m1 : Legal a) (m2 : Legal b) :
    exec (.config a b n) s = .next (s.configured a b n) := by
  simp [exec, execConfig, unlessAborted_of_running running, configLegal_iff.2 ⟨m1, m2⟩]

theorem exec_config_of_illegal {s : State} {a b n : Nat} (running : s.abort = false) (illegal : ¬ (Legal a ∧ Legal b)) :
    exec (.config a b n) s = .next (s.raiseFault (encode (.config a b n)) .cfgInvalid) := by
  simp [exec, execConfig, unlessAborted_of_running running, mt configLegal_iff.1 illegal]

theorem exec_nop_of_running {s : State} (running : s.abort = false) : exec .nop s = .next s.count := by
  simp [exec, execNop, unlessAborted_of_running running]

theorem exec_of_abort {i : Instr} {s : State} (aborted : s.abort = true) : exec i s = .next s := by
  obtain ⟨t, next, ends⟩ := Exceptions.exec_ends i s
  cases ends with
  | ignored => exact next
  | completed running => simp [aborted] at running
  | fault running => simp [aborted] at running

theorem exec_commandEnds (i : Instr) (s : State) : ∃ t, exec i s = .next t ∧ CommandEnds i s t := by
  cases ha : s.abort with
  | true => exact ⟨s, exec_of_abort ha, .ignored ha⟩
  | false =>
    by_cases compute : i.op.isCompute = true
    · refine ⟨_, exec_runs compute s, ?_⟩
      rcases runs_cases Config.own compute s with ⟨aborted, e⟩ | ⟨out, commits, e⟩ | ⟨running, c, -, e⟩ <;> rw [e]
      · exact .ignored aborted
      · exact .committed compute commits
      · exact .fault running c
    · cases i with
      | nop => exact ⟨_, exec_nop_of_running ha, .counted rfl⟩
      | config a b n =>
        by_cases legal : Legal a ∧ Legal b
        · exact ⟨_, exec_config_of_legal ha legal.1 legal.2, .configured rfl legal.1 legal.2⟩
        · exact ⟨_, exec_config_of_illegal ha legal, .fault ha .cfgInvalid⟩
      | _ => exact absurd rfl compute

theorem commandEnds_of_exec {i : Instr} {s t : State} (h : exec i s = .next t) : CommandEnds i s t := by
  obtain ⟨_, next, ends⟩ := exec_commandEnds i s
  cases next.symm.trans h
  exact ends

/-- A CMD write runs a well-formed command whose word it is, or takes ILLEGAL, or is ignored (rules R33, R106, R405). -/
theorem performWord_eq_next {w : Word} {s t : State} (h : performWord w s = .next t) :
    (∃ i, decode w = .ok i ∧ i.wf = true ∧ w = encode i ∧ CommandEnds i s t)
      ∨ t = s ∨ (s.abort = false ∧ t = s.raiseFault w .illegal) := by
  cases hd : decode w with
  | ok i =>
    obtain ⟨wf, word⟩ := Encoding.wf_and_eq_encode_of_decode hd
    rw [performWord_of_ok hd] at h
    exact .inl ⟨i, rfl, wf, word, commandEnds_of_exec h⟩
  | error r =>
    rw [performWord_of_error hd] at h
    cases h
    cases ha : s.abort with
    | true => exact .inr (.inl (unlessAborted_of_abort ha _))
    | false => exact .inr (.inr ⟨rfl, unlessAborted_of_running ha _⟩)

/-- Settles O16: while running, NOP is `count`. -/
theorem nopCompletes : Obligations.NopCompletes := fun _ => exec_nop_of_running

/-- Settles O17: legal limb counts configure, and the fields read back; the others take CFG_INVALID. -/
theorem configCompletes : Obligations.ConfigCompletes := by
  refine fun s a b n running hn => ⟨fun m1 m2 => ?_, exec_config_of_illegal running⟩
  obtain ⟨f1, f2, f3, f4⟩ := configured_fields s (a := a) (b := b) (n := n) (by omega) (by omega) hn
  exact ⟨_, exec_config_of_legal running m1 m2, f1, f2, f3, f4, rfl⟩

/-- Settles O36: each end of a command writes only its own registers. -/
theorem commandsKeepHostRegisters : Obligations.CommandsKeepHostRegisters := by
  intro i s t h
  cases commandEnds_of_exec h with
  | ignored => exact ⟨rfl, rfl, rfl, rfl, rfl, rfl, .inl rfl, fun _ => ⟨rfl, rfl, rfl, rfl, rfl⟩⟩
  | counted => exact ⟨rfl, rfl, rfl, rfl, rfl, rfl, .inl rfl, fun _ => ⟨rfl, rfl, rfl, rfl, rfl⟩⟩
  | configured isConfig =>
    exact ⟨rfl, rfl, rfl, rfl, rfl, rfl, .inr ⟨_, _, _, isConfig⟩, fun _ => ⟨rfl, rfl, rfl, rfl, rfl⟩⟩
  | committed compute =>
    exact ⟨rfl, rfl, rfl, rfl, rfl, rfl, .inl rfl, fun other => absurd (compute.symm.trans other) nofun⟩
  | fault => exact ⟨rfl, rfl, rfl, rfl, rfl, rfl, .inl rfl, fun _ => ⟨rfl, rfl, rfl, rfl, rfl⟩⟩

/-- Settles O37: a command is ignored, completes and counts, or takes a fault that records its word. -/
theorem ccntCountsCompletedCommands : Obligations.CcntCountsCompletedCommands := by
  intro i s
  obtain ⟨t, next, ends⟩ := Exceptions.exec_ends i s
  refine ⟨t, next, ?_⟩
  cases ends with
  | ignored aborted => exact ⟨fun _ => rfl, fun running => absurd (running.symm.trans aborted) nofun⟩
  | completed running status fcmd ccnt =>
    exact ⟨fun aborted => absurd (running.symm.trans aborted) nofun,
      fun _ => .inl ⟨(abort_of_status status).trans running, ccnt, status, fcmd⟩⟩
  | fault running c =>
    exact ⟨fun aborted => absurd (running.symm.trans aborted) nofun,
      fun _ => .inr ⟨raiseFault_abort .., rfl, rfl⟩⟩

/-! ### How a host line ends -/

/-- The ends of a host line that goes on, with the state each leaves (rules R33, R81, R120, R122, R441). -/
inductive LineEnds (p : Params) (s : State) : HostEvent → State → Prop where
  | command {value : Int} {t : State} (performed : performWord (wordOf value) s = .next t) :
      LineEnds p s (.write 0x00 value) t
  | rowSet (h : HostEvent) (w : Word) : LineEnds p s h { s with row := w }
  | operandSet (h : HostEvent) (r : FReg) (value : Int) : LineEnds p s h (s.setF r (toF p.P value))
  | observed (h : HostEvent) (v : HostValue) : LineEnds p s h (s.observe v)
  | copied (h : HostEvent) (v : HostValue) (r : FReg) (value : Int) :
      LineEnds p s h ((s.observe v).setF r (toF p.P value))
  | waited : LineEnds p s .wait s
  | reset : LineEnds p s .reset s.resetUnit

/-- CMD stands at address 0x00 only (rule R32). -/
theorem eq_zero_of_ofAddr_cmd {addr : Nat} (h : Reg.ofAddr addr = some .cmd) : addr = 0x00 := by
  unfold Reg.ofAddr at h
  split at h
  case h_1 => rfl
  case h_12 => split at h <;> cases h
  all_goals cases h

theorem lineEnds_of_hostWrite {p : Params} {addr : Nat} {value : Int} {s t : State}
    (h : hostWrite p addr value s = .next t) : LineEnds p s (.write addr value) t := by
  unfold hostWrite at h
  split at h
  case h_2 cmd =>
    obtain rfl := eq_zero_of_ofAddr_cmd cmd
    exact .command h
  case h_3 => cases h; exact .rowSet _ _
  case h_4 => cases h; exact .operandSet _ .opa value
  case h_5 => cases h; exact .operandSet _ .opb value
  case h_6 => cases h; exact .operandSet _ .opc value
  all_goals cases h

theorem lineEnds_of_hostEvent {p : Params} {h : HostEvent} {s t : State} (ht : hostEvent p h s = .next t) :
    LineEnds p s h t := by
  cases h with
  | write addr value => exact lineEnds_of_hostWrite ht
  | read addr =>
    obtain ⟨v, rfl⟩ := Exceptions.hostRead_eq_next ht
    exact .observed _ v
  | readCell a =>
    obtain ⟨v, rfl⟩ := Exceptions.hostReadCell_eq_next ht
    exact .observed _ v
  | writeCell a value => cases ht
  | fx reg num den =>
    simp only [hostEvent, hostFx, hostWrite_freg] at ht
    split at ht
    · cases ht
    · split at ht
      · cases ht; exact .operandSet _ reg _
      · cases ht
  | cp reg addr =>
    simp only [hostEvent, hostCp, hostWrite_freg] at ht
    split at ht
    · cases ht
    · cases ht
    · split at ht
      · cases ht; exact .copied _ _ reg _
      · cases ht
  | wait => cases ht; exact .waited
  | reset => cases ht; exact .reset

/-- A step keeps the idle unit, or ends as its host line does. -/
theorem step_eq_next {s t : State} (h : step s = .next t) :
    t = s ∨ ∃ line rest, s.host = line :: rest ∧ LineEnds Config.own (s.afterLine rest) line t := by
  cases hh : s.host with
  | nil =>
    cases (stepOn_nil hh).symm.trans h
    exact .inl rfl
  | cons line rest =>
    rw [step_cons hh] at h
    exact .inr ⟨line, rest, rfl, lineEnds_of_hostEvent h⟩

/-! ### The trace, TREQ and CSLOG only grow -/

/-- A command keeps every assigned cell. -/
theorem CommandEnds.keeps_assigned {i : Instr} {s t : State} (ends : CommandEnds i s t) {a : CellAddr} {v : Nat}
    (assigned : Trace.read s.trace a = some v) : Trace.read t.trace a = some v := by
  cases ends with
  | committed compute commits => exact commits.keeps_assigned assigned
  | _ => exact assigned

/-- Settles O34: only a commit and a reset write the trace, and a commit writes free cells only. -/
theorem assignedCellsPersist : Obligations.AssignedCellsPersist := by
  intro s t a v noReset h assigned
  rcases step_eq_next h with rfl | ⟨line, rest, hh, ends⟩
  · exact assigned
  · cases ends with
    | command performed =>
      rcases performWord_eq_next performed with ⟨i, -, -, -, ends⟩ | rfl | ⟨-, rfl⟩
      · exact ends.keeps_assigned (s := s.afterLine rest) assigned
      · exact assigned
      · exact assigned
    | operandSet => rwa [setF_trace]
    | copied => rwa [setF_trace]
    | reset => exact absurd hh (noReset rest)
    | _ => exact assigned

/-- A command leaves CSLOG and TREQ alone, or completed with B = 1 and added its record and its bits (rules R40,
R46). -/
theorem CommandEnds.log_cases {i : Instr} {s t : State} (ends : CommandEnds i s t) :
    (t.cslog = s.cslog ∧ t.treq = s.treq)
      ∨ (i.build = true ∧ t.ccnt = s.ccnt + 1 ∧ t.treq = s.treq ||| treqBits i.op s.m2
        ∧ t.cslog = s.cslog ++ [⟨encode i, s.row, s.m1, s.m2, s.ncols⟩]) := by
  cases ends with
  | committed compute commits =>
    cases hb : i.build with
    | true => exact .inr ⟨rfl, rfl, by rw [commit_treq, hb]; rfl, by rw [commit_cslog, hb]; rfl⟩
    | false => exact .inl ⟨by rw [commit_cslog, hb]; rfl, by rw [commit_treq, hb]; rfl⟩
  | _ => exact .inl ⟨rfl, rfl⟩

/-- The last part of O35 implies its first: bits that are added are not cleared. -/
theorem treq_grows_of_cases {s t : State} {bits : Word} (h : t.treq = s.treq ∨ t.treq = s.treq ||| bits) :
    t.treq ||| s.treq = t.treq := by
  rcases h with e | e <;> rw [e]
  · exact BitVec.or_self
  · rw [BitVec.or_comm s.treq bits, BitVec.or_assoc, BitVec.or_self]

/-- Settles O35: a host line that is no CMD write and no reset leaves both; a CMD write that adds a record is the word
of a command with B = 1 that completed. -/
theorem treqAndCslogOnlyGrow : Obligations.TreqAndCslogOnlyGrow := by
  intro s t noReset h
  have unchanged (cslog : t.cslog = s.cslog) (treq : t.treq = s.treq) : t.treq ||| s.treq = t.treq ∧
      (t.cslog = s.cslog ∧ t.treq = s.treq ∨
        ∃ value rest i, s.host = .write 0x00 value :: rest ∧ decode (BitVec.ofInt 32 value) = .ok i ∧ i.build = true
          ∧ t.ccnt = s.ccnt + 1 ∧ t.treq = s.treq ||| treqBits i.op s.m2
          ∧ t.cslog = s.cslog ++ [⟨BitVec.ofInt 32 value, s.row, s.m1, s.m2, s.ncols⟩]) :=
    ⟨treq_grows_of_cases (bits := 0) (.inl treq), .inl ⟨cslog, treq⟩⟩
  rcases step_eq_next h with rfl | ⟨line, rest, hh, ends⟩
  · exact unchanged rfl rfl
  · cases ends with
    | @command value _ performed =>
      rcases performWord_eq_next performed with ⟨i, decoded, -, word, ends⟩ | rfl | ⟨-, rfl⟩
      · rcases ends.log_cases with ⟨cslog, treq⟩ | ⟨build, ccnt, treq, cslog⟩
        · exact unchanged cslog treq
        · refine ⟨treq_grows_of_cases (.inr treq), .inr ⟨value, rest, i, hh, decoded, build, ccnt, treq, ?_⟩⟩
          rw [cslog, ← word]
          rfl
      · exact unchanged rfl rfl
      · exact unchanged rfl rfl
    | operandSet => exact unchanged (setF_cslog ..) (setF_treq ..)
    | copied => exact unchanged (setF_cslog ..) (setF_treq ..)
    | reset => exact absurd hh (noReset rest)
    | _ => exact unchanged rfl rfl

end Sys2Proof.Steps
end

section
/-! PROOFS. The bounds that the rules derive for the values of ATAN (44_atan.md rules R252–R258), of the angle sums
(46_trig.md rule R314) and of the modulo core (45_rem.md rule R290). -/

namespace Sys2Proof.Bounds

open Sys2Proof.Machine

/-! ### Rounding between bounds -/

theorem rnd_le {n d q : Int} (hd : 0 < d) (h : n ≤ q * d) : rnd n d ≤ q := by
  obtain ⟨lower, -⟩ := rnd_spec n hd
  by_contra above
  have : (q + 1) * d ≤ rnd n d * d := mul_le_mul_of_nonneg_right (by omega) hd.le
  linarith

theorem le_rnd {n d q : Int} (hd : 0 < d) (h : q * d ≤ n) : q ≤ rnd n d := by
  obtain ⟨-, upper⟩ := rnd_spec n hd
  by_contra below
  have : (rnd n d + 1) * d ≤ q * d := mul_le_mul_of_nonneg_right (by omega) hd.le
  linarith

theorem rnd_nonneg {n d : Int} (hd : 0 < d) (h : 0 ≤ n) : 0 ≤ rnd n d := le_rnd hd (by simpa using h)

theorem abs_rnd_le {n d q : Int} (hd : 0 < d) (h : |n| ≤ q * d) : |rnd n d| ≤ q := by
  obtain ⟨lower, upper⟩ := abs_le.1 h
  exact abs_le.2 ⟨le_rnd hd (by linarith), rnd_le hd upper⟩

/-- Dividing by a positive integer does not enlarge a magnitude. -/
theorem mag_rnd_le (n : Int) {d : Int} (hd : 0 < d) : mag (rnd n d) ≤ mag n := by
  rw [mag_eq_abs, mag_eq_abs]
  exact abs_rnd_le hd (le_mul_of_one_le_right (abs_nonneg n) hd)

/-! ### ATAN, stage by stage -/

/-- `gt1` is the strict comparison with 1.0 (rule R251). -/
theorem gt1_cases (m2 : Nat) (x : Int) :
    ((atanStage1 m2 x).gt1 = 1 ∧ delta m2 < mag x) ∨ ((atanStage1 m2 x).gt1 = 0 ∧ mag x ≤ delta m2) := by
  by_cases above : mag x > delta m2
  · exact .inl ⟨by simp [atanStage1, gt1Flag, flag, above], above⟩
  · exact .inr ⟨by simp [atanStage1, gt1Flag, flag, above], not_lt.1 above⟩

/-- `gt2` is the strict comparison with `ATAN_K` (rule R253). -/
theorem gt2_cases (m2 : Nat) (K t : Int) :
    ((atanStage3 m2 K t).gt2 = 1 ∧ K < t) ∨ ((atanStage3 m2 K t).gt2 = 0 ∧ t ≤ K) := by
  by_cases above : t > K
  · exact .inl ⟨by simp [atanStage3, gt2Flag, flag, above], above⟩
  · exact .inr ⟨by simp [atanStage3, gt2Flag, flag, above], not_lt.1 above⟩

theorem one_le_delta (m2 : Nat) : 1 ≤ delta m2 := delta_pos m2

/-- Stage 2 leaves `t` in `[0, δ]`: the value itself, or the reciprocal of one above `δ` (rule R252). -/
theorem atanStage2_t_mem (m2 : Nat) (x : Int) :
    0 ≤ (atanStage2 m2 (atanStage1 m2 x)).t ∧ (atanStage2 m2 (atanStage1 m2 x)).t ≤ delta m2 := by
  have δ_pos := delta_pos m2
  rcases gt1_cases m2 x with ⟨set, above⟩ | ⟨clear, below⟩
  · have reciprocal : (atanStage2 m2 (atanStage1 m2 x)).t = rnd (delta m2 ^ 2) (mag x) := by
      rw [atanStage2, if_pos set]
      rfl
    have a_pos : 0 < mag x := δ_pos.trans above
    rw [reciprocal]
    exact ⟨rnd_nonneg a_pos (by positivity), rnd_le a_pos (by nlinarith)⟩
  · have value : (atanStage2 m2 (atanStage1 m2 x)).t = mag x := by
      rw [atanStage2, if_neg (by omega)]
      rfl
    rw [value]
    exact ⟨mag_nonneg x, below⟩

section Stages

variable {m2 : Nat} {K t : Int} (hK : 0 < K ∧ K < delta m2) (ht : 0 ≤ t ∧ t ≤ delta m2)
include hK ht

/-- The divisor of stage 4: `δ² ≤ den < 2δ²` (rule R254). -/
theorem atanStage3_den_mem : delta m2 ^ 2 ≤ (atanStage3 m2 K t).den ∧ (atanStage3 m2 K t).den < 2 * delta m2 ^ 2 := by
  have e : (atanStage3 m2 K t).den = delta m2 ^ 2 + t * K := rfl
  have product_nonneg : 0 ≤ t * K := mul_nonneg ht.1 hK.1.le
  have product_le : t * K ≤ delta m2 * K := mul_le_mul_of_nonneg_right ht.2 hK.1.le
  have product_lt : delta m2 * K < delta m2 * delta m2 := mul_lt_mul_of_pos_left hK.2 (delta_pos m2)
  rw [e, pow_two]
  constructor <;> linarith

theorem atanStage3_den_pos : 0 < (atanStage3 m2 K t).den := by
  have := delta_pos m2
  have := (atanStage3_den_mem hK ht).1
  have : 0 < delta m2 ^ 2 := by positivity
  linarith

/-- Stage 4 leaves `v` in `[0, δ]`: `t`, or a quotient `(t − K)·δ² / (δ² + t·K)` of a positive dividend (rule R254). -/
theorem atanStage4_v_mem :
    0 ≤ (atanStage4 (atanStage3 m2 K t) t).v ∧ (atanStage4 (atanStage3 m2 K t) t).v ≤ delta m2 := by
  have δ_pos := delta_pos m2
  have den_pos := atanStage3_den_pos hK ht
  rcases gt2_cases m2 K t with ⟨set, above⟩ | ⟨clear, -⟩
  · have quotient : (atanStage4 (atanStage3 m2 K t) t).v
        = rnd ((t - K) * delta m2 ^ 2) (atanStage3 m2 K t).den := by
      simp only [atanStage4, set, if_true]
      rfl
    have dividend_le : (t - K) * delta m2 ^ 2 ≤ delta m2 * (atanStage3 m2 K t).den := by
      have : (t - K) * delta m2 ^ 2 ≤ delta m2 * delta m2 ^ 2 :=
        mul_le_mul_of_nonneg_right (by omega) (by positivity)
      have : delta m2 * delta m2 ^ 2 ≤ delta m2 * (atanStage3 m2 K t).den :=
        mul_le_mul_of_nonneg_left (atanStage3_den_mem hK ht).1 δ_pos.le
      linarith
    rw [quotient]
    exact ⟨rnd_nonneg den_pos (mul_nonneg (by omega) (by positivity)), rnd_le den_pos dividend_le⟩
  · have value : (atanStage4 (atanStage3 m2 K t) t).v = t := by
      simp [atanStage4, clear]
    rw [value]
    exact ht

end Stages

theorem fifteenDelta4_pos (m2 : Nat) : 0 < fifteenDelta4 m2 := by
  have := delta_pos m2
  unfold fifteenDelta4
  positivity

/-- On `[0, δ]` the Taylor polynomial of stage 5 stays in `[0, v]` (rule R255). -/
theorem atanStage5_pt_mem {m2 : Nat} {v : Int} (hv : 0 ≤ v ∧ v ≤ delta m2) :
    0 ≤ (atanStage5 m2 v).pt ∧ (atanStage5 m2 v).pt ≤ v := by
  have rounded : (atanStage5 m2 v).pt = rnd (taylorNumerator m2 v) (fifteenDelta4 m2) := rfl
  have d_pos := fifteenDelta4_pos m2
  have square_le : v ^ 2 ≤ delta m2 ^ 2 := pow_le_pow_left₀ hv.1 hv.2 2
  have cubic : 0 ≤ v ^ 3 * (5 * delta m2 ^ 2 - 3 * v ^ 2) := mul_nonneg (pow_nonneg hv.1 3) (by nlinarith)
  have linear : 0 ≤ v * delta m2 ^ 2 * (delta m2 ^ 2 - v ^ 2) :=
    mul_nonneg (mul_nonneg hv.1 (by positivity)) (by linarith)
  have quintic : 0 ≤ v ^ 5 := pow_nonneg hv.1 5
  have top : 0 ≤ v * delta m2 ^ 4 := mul_nonneg hv.1 (by positivity)
  rw [rounded]
  refine ⟨rnd_nonneg d_pos ?_, rnd_le d_pos ?_⟩ <;> simp only [taylorNumerator, fifteenDelta4] <;> nlinarith

section Run

variable {e : Env} (valid : e.p.Valid) (h1 : Legal e.m1) (h2 : Legal e.m2)
include valid h1 h2

omit valid h1 h2 in
theorem atanRun_t_mem (x : Int) : 0 ≤ (atanRun e x).s2.t ∧ (atanRun e x).s2.t ≤ delta e.m2 :=
  atanStage2_t_mem e.m2 x

theorem atanRun_den_mem (x : Int) :
    delta e.m2 ^ 2 ≤ (atanRun e x).s3.den ∧ (atanRun e x).s3.den < 2 * delta e.m2 ^ 2 :=
  atanStage3_den_mem (valid.each _ _ h1 h2).atanK (atanStage2_t_mem e.m2 x)

theorem atanRun_den_pos (x : Int) : 0 < (atanRun e x).s3.den :=
  atanStage3_den_pos (valid.each _ _ h1 h2).atanK (atanStage2_t_mem e.m2 x)

theorem atanRun_v_mem (x : Int) : 0 ≤ (atanRun e x).s4.v ∧ (atanRun e x).s4.v ≤ delta e.m2 :=
  atanStage4_v_mem (valid.each _ _ h1 h2).atanK (atanStage2_t_mem e.m2 x)

/-- The result's magnitude: `w` lies in `[0, δ + PI_6]`, and its complement to `PI_2 > δ` above `−PI_6` (rule R258). -/
theorem abs_atanRun_res_le (x : Int) : |(atanRun e x).s6.res| ≤ e.p.pi2 e.m2 + e.p.pi6 e.m2 := by
  have at_pair := valid.each _ _ h1 h2
  obtain ⟨pi2_gt, -⟩ := at_pair.pi2
  obtain ⟨pi6_pos, -⟩ := at_pair.pi6
  obtain ⟨-, v_le⟩ := atanRun_v_mem valid h1 h2 x
  have pt_mem : 0 ≤ (atanRun e x).s5.pt ∧ (atanRun e x).s5.pt ≤ (atanRun e x).s4.v :=
    atanStage5_pt_mem (atanRun_v_mem valid h1 h2 x)
  have w_mem : 0 ≤ (atanRun e x).s5.pt + (atanRun e x).s3.gt2 * e.p.pi6 e.m2
      ∧ (atanRun e x).s5.pt + (atanRun e x).s3.gt2 * e.p.pi6 e.m2 ≤ delta e.m2 + e.p.pi6 e.m2 := by
    have bit : (atanRun e x).s3.gt2 = 0 ∨ (atanRun e x).s3.gt2 = 1 := Arctangent.flag_eq _
    rcases bit with bit | bit <;> rw [bit] <;> omega
  rw [Arctangent.atanRun_res, abs_mul]
  have sign : |sgn x| = 1 := by rcases sgn_eq x with h | h <;> rw [h] <;> rfl
  rw [sign, one_mul]
  have bit : (atanRun e x).s1.gt1 = 0 ∨ (atanRun e x).s1.gt1 = 1 := Arctangent.flag_eq _
  rcases bit with bit | bit <;> rw [bit] <;> exact abs_le.2 (by omega)

omit valid h2 in
theorem three_delta_le_bound : 3 * delta e.m2 ≤ bound e.m1 e.m2 := by
  have split : bound e.m1 e.m2 = pow2 (16 * e.m1) * delta e.m2 := by
    rw [bound, delta, ← pow2_add]
    congr 1
    omega
  have large : pow2 16 ≤ pow2 (16 * e.m1) := pow2_le (by rcases h1 with h | h <;> omega)
  have : (3 : Int) ≤ pow2 16 := by decide
  have := delta_pos e.m2
  rw [split]
  nlinarith

/-- ATAN's result is representable, so its result check never faults (rule R258). -/
theorem abs_atanRun_res_lt (x : Int) : |(atanRun e x).s6.res| < bound e.m1 e.m2 := by
  have at_pair := valid.each _ _ h1 h2
  have := at_pair.pi2.2
  have := at_pair.pi6.2
  have := abs_atanRun_res_le valid h1 h2 x
  have := three_delta_le_bound h1 (e := e)
  omega

end Run

/-- Settles O42: the bounds of the stages, one after the other. -/
theorem atanStaysInRange : Obligations.AtanStaysInRange := by
  intro c m1 m2 nc x h1 h2 _ e
  have t_mem := atanRun_t_mem (e := e) x
  have v_mem := atanRun_v_mem (e := e) c.valid h1 h2 x
  exact ⟨t_mem.1, t_mem.2, v_mem.1, v_mem.2, atanRun_den_pos (e := e) c.valid h1 h2 x,
    abs_atanRun_res_le (e := e) c.valid h1 h2 x, abs_atanRun_res_lt (e := e) c.valid h1 h2 x⟩

/-! ### The angle sums -/

/-- Four factors within their bounds: a sum of two products. -/
theorem abs_mul_add_mul_le {a b c d A B : Int} (ha : |a| ≤ A) (hb : |b| ≤ B) (hc : |c| ≤ A) (hd : |d| ≤ B) :
    |a * b + c * d| ≤ 2 * (A * B) := by
  have hA : 0 ≤ A := (abs_nonneg a).trans ha
  calc |a * b + c * d| ≤ |a * b| + |c * d| := abs_add_le _ _
    _ = |a| * |b| + |c| * |d| := by rw [abs_mul, abs_mul]
    _ ≤ A * B + A * B := add_le_add (mul_le_mul ha hb (abs_nonneg b) hA) (mul_le_mul hc hd (abs_nonneg d) hA)
    _ = 2 * (A * B) := by ring

theorem abs_mul_sub_mul_le {a b c d A B : Int} (ha : |a| ≤ A) (hb : |b| ≤ B) (hc : |c| ≤ A) (hd : |d| ≤ B) :
    |a * b - c * d| ≤ 2 * (A * B) := by
  rw [sub_eq_add_neg, ← mul_neg]
  exact abs_mul_add_mul_le ha hb hc ((abs_neg d).le.trans hd)

theorem theta_lt (c : Angle) (j : Nat) : theta c j < 65536 := limb_lt c.g j

section Sums

variable {e : Env} (valid : e.p.Valid) (h1 : Legal e.m1) (h2 : Legal e.m2)
include valid h1 h2

theorem abs_entries_le (c : Angle) {j : Nat} (hj : j ≤ e.m2) :
    |sinEntry e c j| ≤ delta e.m2 ∧ |cosEntry e c j| ≤ delta e.m2 := by
  have entry := (valid.each _ _ h1 h2).trigTab j (theta c j) hj (theta_lt c j)
  rwa [mag_eq_abs, mag_eq_abs] at entry

theorem abs_pair_le (c : Angle) :
    |(scr e c).sab| ≤ 2 * (delta e.m2 * delta e.m2) ∧ |(scr e c).cab| ≤ 2 * (delta e.m2 * delta e.m2) := by
  obtain ⟨s0, c0⟩ := abs_entries_le valid h1 h2 c (Nat.zero_le e.m2)
  obtain ⟨s1, c1⟩ := abs_entries_le valid h1 h2 c (j := 1) (by rcases h2 with h | h <;> omega)
  have sab : (scr e c).sab = sinEntry e c 0 * cosEntry e c 1 + cosEntry e c 0 * sinEntry e c 1 := by
    unfold scr; split <;> rfl
  have cab : (scr e c).cab = cosEntry e c 0 * cosEntry e c 1 - sinEntry e c 0 * sinEntry e c 1 := by
    unfold scr; split <;> rfl
  rw [sab, cab]
  exact ⟨abs_mul_add_mul_le s0 c1 c0 s1, abs_mul_sub_mul_le c0 c1 s0 s1⟩

omit valid h1 h2 in
/-- With `m2 = 1` the raw sums are those of the first pair of limbs (rule R314). -/
theorem scr_of_one (c : Angle) (one : e.m2 = 1) : (scr e c).sr = (scr e c).sab ∧ (scr e c).cr = (scr e c).cab := by
  simp [scr, one]

omit valid h1 h2 in
/-- With `m2 = 2` the raw sums add the third limb (rule R314). -/
theorem scr_of_two (c : Angle) (two : e.m2 = 2) :
    (scr e c).sr = cosEntry e c 2 * (scr e c).sab + sinEntry e c 2 * (scr e c).cab
      ∧ (scr e c).cr = cosEntry e c 2 * (scr e c).cab - sinEntry e c 2 * (scr e c).sab := by
  simp [scr, two]

/-- The bounds of rule R314. -/
theorem abs_scr_le (c : Angle) :
    |(scr e c).sr| ≤ (if e.m2 = 1 then 2 * delta e.m2 ^ 2 else 4 * delta e.m2 ^ 3)
      ∧ |(scr e c).cr| ≤ (if e.m2 = 1 then 2 * delta e.m2 ^ 2 else 4 * delta e.m2 ^ 3) := by
  obtain ⟨sab, cab⟩ := abs_pair_le valid h1 h2 c
  rcases h2 with one | two
  · obtain ⟨sr, cr⟩ := scr_of_one c one
    rw [sr, cr, if_pos one, pow_two]
    exact ⟨sab, cab⟩
  · obtain ⟨sr, cr⟩ := scr_of_two c two
    obtain ⟨s2, c2⟩ := abs_entries_le valid h1 (.inr two) c (j := 2) two.ge
    have cube : 4 * delta e.m2 ^ 3 = 2 * (delta e.m2 * (2 * (delta e.m2 * delta e.m2))) := by ring
    rw [sr, cr, if_neg (by omega), cube]
    exact ⟨abs_mul_add_mul_le c2 sab s2 cab, abs_mul_sub_mul_le c2 cab s2 sab⟩

/-- The same bounds as LIMBS reads them (rule R323): `2·m2·δ·D`. -/
theorem abs_scr_le_budget (c : Angle) :
    |(scr e c).sr| ≤ 2 * (e.m2 : Int) * delta e.m2 * rescaleD e.m2
      ∧ |(scr e c).cr| ≤ 2 * (e.m2 : Int) * delta e.m2 * rescaleD e.m2 := by
  have same : (if e.m2 = 1 then 2 * delta e.m2 ^ 2 else 4 * delta e.m2 ^ 3)
      = 2 * (e.m2 : Int) * delta e.m2 * rescaleD e.m2 := by
    have power : rescaleD e.m2 = delta e.m2 ^ e.m2 := rescaleD_eq_pow2 e.m2
    rw [power]
    rcases h2 with h | h <;> rw [h] <;> norm_num <;> ring
  rw [← same]
  exact abs_scr_le valid h1 h2 c

end Sums

/-- Settles O43: the two-limb sums add two products of entries, and the three-limb sums two products of an entry and a
two-limb sum. -/
theorem rawSumsAreBounded : Obligations.RawSumsAreBounded :=
  fun c _ _ _ _ h1 h2 => abs_scr_le (e := ⟨c.params, _, _, _, {}⟩) c.valid h1 h2 _

theorem rescaleD_pos (m2 : Nat) : 0 < rescaleD m2 := pow2_pos _

/-- A raw sum rescaled by `D` is representable, so SIN's result check never faults (rule R320). -/
theorem abs_rescaled_lt {m1 m2 : Nat} (h1 : Legal m1) (h2 : Legal m2) {n : Int}
    (h : |n| ≤ 2 * (m2 : Int) * delta m2 * rescaleD m2) : |(rdm n (rescaleD m2)).q| < bound m1 m2 := by
  have quotient_le : |rnd n (rescaleD m2)| ≤ 2 * (m2 : Int) * delta m2 := abs_rnd_le (rescaleD_pos m2) h
  have room : 2 * (m2 : Int) * delta m2 < bound m1 m2 := by
    rcases h1 with rfl | rfl <;> rcases h2 with rfl | rfl <;> decide
  exact quotient_le.trans_lt room

/-! ### The modulo core -/

/-- The quotient's magnitude is at most the dividend's. -/
theorem mag_rm_a_le (x xs : Int) {y : Int} (hy : y ≠ 0) : (rm x y xs).a ≤ |x * xs| := by
  obtain ⟨identity, -, small⟩ := rm_spec x xs hy
  have quotient : (rm x y xs).a = |(rm x y xs).sa * (rm x y xs).a| := by
    have a_nonneg : 0 ≤ (rm x y xs).a := mag_nonneg _
    have sign : |(rm x y xs).sa| = 1 := by
      rcases sgn_eq (rm x y xs).q with h | h
      · exact congrArg abs h
      · exact congrArg abs h
    rw [abs_mul, sign, one_mul, abs_of_nonneg a_nonneg]
  generalize (rm x y xs).sa * (rm x y xs).a = q at *
  rw [quotient]
  rw [mag_eq_abs, mag_eq_abs] at small
  by_contra above
  have y_pos : 1 ≤ |y| := Int.one_le_abs hy
  have product : |q| * |y| = |x * xs - (rm x y xs).z| := by rw [← abs_mul]; congr 1; linarith
  have triangle := abs_sub (x * xs) (rm x y xs).z
  have := mul_nonneg (show 0 ≤ |q| - 1 by have := abs_nonneg (x * xs); omega) (show 0 ≤ |y| - 1 by omega)
  linarith

/-- The gap `|y| − |z| − 1` of C-RM-5 is a magnitude below `|y|`. -/
theorem rm_gap_mem (x xs : Int) {y : Int} (hy : y ≠ 0) :
    0 ≤ mag y - mag (rm x y xs).z - 1 ∧ mag y - mag (rm x y xs).z - 1 < mag y := by
  obtain ⟨-, -, small⟩ := rm_spec x xs hy
  have := mag_nonneg (rm x y xs).z
  omega

end Sys2Proof.Bounds
end

section
/-! PROOFS. What the body of each command answers, and that no internal decomposition site of an answering body faults
(40_control.md rule R146). -/

namespace Sys2Proof.Answers

open Sys2Proof.Machine Sys2Proof.Steps Sys2Proof.Bounds

/-! ### The answers -/

section Bodies

variable {p : Params} {s : State} {out : BodyOut} {b : Bool}

theorem body_range16_eq_ok_iff : body (.range16 b) s (s.env p) = .ok out ↔
    ∃ v, s.opa = some v ∧ out = ⟨[rangeFlag s.tables v], [own .v v, own .flag (rangeFlag s.tables v)]⟩ := by
  simp only [body, range16Body, bind_eq_ok_iff, operand_eq_ok_iff, Except.ok.injEq, eq_comm (b := out)]

theorem body_decomp_eq_ok_iff {n : Nat} {u : Bool} : body (.decomp b n u) s (s.env p) = .ok out ↔
    ∃ v, s.opa = some v ∧ mag (sval p.P v) < pow2 (16 * n) ∧ (u = true → 0 ≤ sval p.P v)
      ∧ out = ⟨sgn (sval p.P v) :: limbList n (sval p.P v), decompValues (sval p.P v) n u⟩ := by
  simp only [body, decompBody, bind_eq_ok_iff, operand_eq_ok_iff, except_pure, Except.ok.injEq]
  constructor
  · rintro ⟨v, opa, d, h, rfl⟩
    obtain ⟨rfl, budget, sign⟩ := dec_eq_ok h
    exact ⟨v, opa, budget, sign, rfl⟩
  · rintro ⟨v, opa, budget, sign, rfl⟩
    exact ⟨v, opa, _, dec_ok budget sign, rfl⟩

theorem body_rdiv_eq_ok_iff : body (.rdiv b) s (s.env p) = .ok out ↔
    ∃ x y, HoldsFixed p s s.opa x ∧ HoldsFixed p s s.opb y ∧ 0 < y ∧ mag (rdm x y).q < bound s.m1 s.m2
      ∧ out = ⟨[(rdm x y).q, (rdm x y).r], divisionValues .q x y (rdm x y)⟩ := by
  simp only [body, rdivBody, bind_eq_ok_iff, operand_eq_ok_iff, fxop_eq_ok_iff, raiseIf_eq_ok_iff,
    checkResult_eq_ok_iff, except_pure, Except.ok.injEq, decide_eq_false_iff_not, not_le]
  constructor
  · rintro ⟨v, opa, w, opb, x, hx, y, hy, -, pos, -, small, rfl⟩
    exact ⟨x, y, ⟨v, opa, hx⟩, ⟨w, opb, hy⟩, pos, small, rfl⟩
  · rintro ⟨x, y, ⟨v, opa, hx⟩, ⟨w, opb, hy⟩, pos, small, rfl⟩
    exact ⟨v, opa, w, opb, x, hx, y, hy, (), pos, (), small, rfl⟩

theorem body_divp_eq_ok_iff : body (.divp b) s (s.env p) = .ok out ↔
    ∃ x y, HoldsFixed p s s.opa x ∧ HoldsFixed p s s.opb y ∧ 0 < y
      ∧ mag (rdm (x * delta s.m2) y).q < bound s.m1 s.m2
      ∧ out = ⟨[(rdm (x * delta s.m2) y).q], divisionValues .z x y (rdm (x * delta s.m2) y)⟩ := by
  simp only [body, divpBody, bind_eq_ok_iff, operand_eq_ok_iff, fxop_eq_ok_iff, raiseIf_eq_ok_iff,
    checkResult_eq_ok_iff, except_pure, Except.ok.injEq, decide_eq_false_iff_not, not_le]
  constructor
  · rintro ⟨v, opa, w, opb, x, hx, y, hy, -, pos, -, small, rfl⟩
    exact ⟨x, y, ⟨v, opa, hx⟩, ⟨w, opb, hy⟩, pos, small, rfl⟩
  · rintro ⟨x, y, ⟨v, opa, hx⟩, ⟨w, opb, hy⟩, pos, small, rfl⟩
    exact ⟨v, opa, w, opb, x, hx, y, hy, (), pos, (), small, rfl⟩

theorem body_sqrt_eq_ok_iff : body (.sqrt b) s (s.env p) = .ok out ↔
    ∃ x, HoldsFixed p s s.opa x ∧ 0 ≤ x ∧ out = ⟨[(sq s.m2 x).y, (sq s.m2 x).r], sqrtValues x (sq s.m2 x)⟩ := by
  simp only [body, sqrtBody, fixed_bind_eq_ok_iff]
  simp only [bind_eq_ok_iff, raiseIf_eq_ok_iff, except_pure, Except.ok.injEq,
    decide_eq_false_iff_not, not_lt, exists_const, eq_comm (b := out)]
  rfl

theorem body_sqrtf_eq_ok_iff : body (.sqrtf b) s (s.env p) = .ok out ↔
    ∃ x, HoldsFixed p s s.opa x ∧ 0 ≤ x ∧ out = ⟨[(sq s.m2 x).f], sqrtfValues x (sq s.m2 x)⟩ := by
  simp only [body, sqrtfBody, fixed_bind_eq_ok_iff]
  simp only [bind_eq_ok_iff, raiseIf_eq_ok_iff, except_pure, Except.ok.injEq,
    decide_eq_false_iff_not, not_lt, exists_const, eq_comm (b := out)]
  rfl

theorem body_atan_eq_ok_iff : body (.atan b) s (s.env p) = .ok out ↔
    ∃ x, HoldsFixed p s s.opa x ∧ mag (atanRun (s.env p) x).s6.res < bound s.m1 s.m2
      ∧ out = ⟨[(atanRun (s.env p) x).s6.res, (atanRun (s.env p) x).s1.gt1, (atanRun (s.env p) x).s3.gt2],
          atanValues x (atanRun (s.env p) x)⟩ := by
  simp only [body, atanBody, fixed_bind_eq_ok_iff]
  simp only [bind_eq_ok_iff, checkResult_eq_ok_iff, except_pure,
    Except.ok.injEq, exists_const, eq_comm (b := out)]
  rfl

theorem body_rem_eq_ok_iff : body (.rem b) s (s.env p) = .ok out ↔
    ∃ x y xs, HoldsFixed p s s.opa x ∧ HoldsFixed p s s.opb y ∧ HoldsFixed p s s.opc xs ∧ y ≠ 0 ∧ 1 ≤ xs
      ∧ out = ⟨[(rm x y xs).z, (rm x y xs).q], remValues .own x y xs⟩ := by
  simp only [body, remBody, bind_eq_ok_iff, operand_eq_ok_iff, fxop_eq_ok_iff, raiseIf_eq_ok_iff, except_pure,
    Except.ok.injEq, decide_eq_false_iff_not, not_lt]
  constructor
  · rintro ⟨v, opa, w, opb, z, opc, x, hx, y, hy, xs, hxs, -, nonzero, -, pos, rfl⟩
    exact ⟨x, y, xs, ⟨v, opa, hx⟩, ⟨w, opb, hy⟩, ⟨z, opc, hxs⟩, nonzero, pos, rfl⟩
  · rintro ⟨x, y, xs, ⟨v, opa, hx⟩, ⟨w, opb, hy⟩, ⟨z, opc, hxs⟩, nonzero, pos, rfl⟩
    exact ⟨v, opa, w, opb, z, opc, x, hx, y, hy, xs, hxs, (), nonzero, (), pos, rfl⟩

theorem body_tlut_eq_ok_iff {j : Nat} : body (.tlut b j) s (s.env p) = .ok out ↔
    ∃ k, s.opa = some k ∧ k < 65536 ∧ out = ⟨[(p.trigTab s.m2 j k).1, (p.trigTab s.m2 j k).2],
      [own .k k, own .tS (p.trigTab s.m2 j k).1, own .tC (p.trigTab s.m2 j k).2]⟩ := by
  simp only [body, tlutBody, bind_eq_ok_iff, operand_eq_ok_iff, raiseIf_eq_ok_iff, except_pure, Except.ok.injEq,
    decide_eq_false_iff_not, not_le, exists_const, eq_comm (b := out)]
  rfl

theorem body_sin_eq_ok_iff : body (.sin b) s (s.env p) = .ok out ↔
    ∃ x, HoldsFixed p s s.opa x
      ∧ mag ((ang (s.env p) x).s * (rdm (scr (s.env p) (ang (s.env p) x)).sr (rescaleD s.m2)).q) < bound s.m1 s.m2
      ∧ out = ⟨[(ang (s.env p) x).s * (rdm (scr (s.env p) (ang (s.env p) x)).sr (rescaleD s.m2)).q],
          angleValues (s.env p) x ++ rescaleValues s.m2 (rdm (scr (s.env p) (ang (s.env p) x)).sr (rescaleD s.m2))
            ((ang (s.env p) x).s * (rdm (scr (s.env p) (ang (s.env p) x)).sr (rescaleD s.m2)).q)⟩ := by
  simp only [body, sinBody, fixed_bind_eq_ok_iff]
  simp only [bind_eq_ok_iff, checkResult_eq_ok_iff, except_pure,
    Except.ok.injEq, exists_const, eq_comm (b := out)]
  rfl

theorem body_cos_eq_ok_iff : body (.cos b) s (s.env p) = .ok out ↔
    ∃ x, HoldsFixed p s s.opa x
      ∧ out = ⟨[(rdm (scr (s.env p) (ang (s.env p) x)).cr (rescaleD s.m2)).q],
          angleValues (s.env p) x ++ rescaleValues s.m2 (rdm (scr (s.env p) (ang (s.env p) x)).cr (rescaleD s.m2))
            (rdm (scr (s.env p) (ang (s.env p) x)).cr (rescaleD s.m2)).q⟩ := by
  simp only [body, cosBody, fixed_bind_eq_ok_iff, except_pure, Except.ok.injEq, eq_comm (b := out)]
  rfl

/-- TAN's division: `δ` times the sine sum, with the cosine sum's sign moved to the dividend (rule R323). -/
def tanDivision (e : Env) (x : Int) : Rdm :=
  rdm (sgn (scr e (ang e x)).cr * e.delta * (scr e (ang e x)).sr) (mag (scr e (ang e x)).cr)

theorem body_tan_eq_ok_iff : body (.tan b) s (s.env p) = .ok out ↔
    ∃ x, HoldsFixed p s s.opa x ∧ (scr (s.env p) (ang (s.env p) x)).cr ≠ 0
      ∧ mag ((ang (s.env p) x).s * (tanDivision (s.env p) x).q) < bound s.m1 s.m2
      ∧ out = ⟨[(ang (s.env p) x).s * (tanDivision (s.env p) x).q],
          angleValues (s.env p) x ++ tanValues (sgn (scr (s.env p) (ang (s.env p) x)).cr)
            (mag (scr (s.env p) (ang (s.env p) x)).cr) (tanDivision (s.env p) x)
            ((ang (s.env p) x).s * (tanDivision (s.env p) x).q)⟩ := by
  simp only [body, tanBody, fixed_bind_eq_ok_iff]
  simp only [bind_eq_ok_iff, raiseIf_eq_ok_iff, checkResult_eq_ok_iff,
    except_pure, Except.ok.injEq, decide_eq_false_iff_not, exists_const, eq_comm (b := out)]
  rfl

theorem body_expr_eq_ok_iff : body (.expr b) s (s.env p) = .ok out ↔
    ∃ x, HoldsFixed p s s.opa x ∧ mag (clip (s.env p) x).V < bound s.m1 s.m2
      ∧ out = ⟨[(clip (s.env p) x).V, (clip (s.env p) x).lt, (clip (s.env p) x).gt],
          exprValues (s.env p) .own x⟩ := by
  simp only [body, exprBody, fixed_bind_eq_ok_iff]
  simp only [bind_eq_ok_iff, checkResult_eq_ok_iff, except_pure,
    Except.ok.injEq, exists_const, eq_comm (b := out)]
  rfl

theorem reaches_eq_false_iff {e : Env} {x y : Int} : reaches e x y = false ↔ (clip e y).V < x := by
  simp [reaches]

theorem logAt_eq_ok_iff {e : Env} {x y : Int} : logAt e x y = .ok out ↔
    (clip e (y - 1)).V < x ∧ mag (clip e y).V < e.bound ∧ mag (clip e (y - 1)).V < e.bound
      ∧ out = ⟨[y], logValues e x y⟩ := by
  simp only [logAt, bind_eq_ok_iff, raiseIf_eq_ok_iff, reaches_eq_false_iff, checkResult_eq_ok_iff, except_pure,
    Except.ok.injEq, exists_const, eq_comm (b := out)]

theorem body_log_eq_ok_iff : body (.log b) s (s.env p) = .ok out ↔
    ∃ x y, HoldsFixed p s s.opa x ∧ 0 < x ∧ logLeast (s.env p) x = some y ∧ (clip (s.env p) (y - 1)).V < x
      ∧ mag (clip (s.env p) y).V < bound s.m1 s.m2 ∧ mag (clip (s.env p) (y - 1)).V < bound s.m1 s.m2
      ∧ out = ⟨[y], logValues (s.env p) x y⟩ := by
  simp only [body, logBody, fixed_bind_eq_ok_iff]
  simp only [bind_eq_ok_iff, raiseIf_eq_ok_iff, decide_eq_false_iff_not, not_le,
    exists_const]
  constructor
  · rintro ⟨x, hx, pos, h⟩
    cases least : logLeast (s.env p) x with
    | none => simp [least] at h
    | some y =>
      rw [least] at h
      obtain ⟨strict, e1, e0, rfl⟩ := logAt_eq_ok_iff.1 h
      exact ⟨x, y, hx, pos, least, strict, e1, e0, rfl⟩
  · rintro ⟨x, y, hx, pos, least, strict, e1, e0, rfl⟩
    refine ⟨x, hx, pos, ?_⟩
    rw [least]
    exact logAt_eq_ok_iff.2 ⟨strict, e1, e0, rfl⟩

/-- A body's results fit RES0 … RES16 (rule R38): DECOMP has the most, a sign and up to 16 limbs. -/
theorem results_length_le {i : Instr} (wf : i.wf = true) (h : body i s (s.env p) = .ok out) :
    out.results.length ≤ 17 := by
  cases i with
  | nop => cases h; decide
  | config => cases h; decide
  | range16 => obtain ⟨_, -, rfl⟩ := body_range16_eq_ok_iff.1 h; simp
  | decomp b n u =>
    simp only [Instr.wf, Bool.and_eq_true, decide_eq_true_eq] at wf
    obtain ⟨_, -, -, -, rfl⟩ := body_decomp_eq_ok_iff.1 h
    simpa using Nat.lt_succ_of_le (padded_le wf.2)
  | rdiv => obtain ⟨_, _, -, -, -, -, rfl⟩ := body_rdiv_eq_ok_iff.1 h; simp
  | divp => obtain ⟨_, _, -, -, -, -, rfl⟩ := body_divp_eq_ok_iff.1 h; simp
  | sqrt => obtain ⟨_, -, -, rfl⟩ := body_sqrt_eq_ok_iff.1 h; simp
  | sqrtf => obtain ⟨_, -, -, rfl⟩ := body_sqrtf_eq_ok_iff.1 h; simp
  | atan => obtain ⟨_, -, -, rfl⟩ := body_atan_eq_ok_iff.1 h; simp
  | rem => obtain ⟨_, _, _, -, -, -, -, -, rfl⟩ := body_rem_eq_ok_iff.1 h; simp
  | tlut => obtain ⟨_, -, -, rfl⟩ := body_tlut_eq_ok_iff.1 h; simp
  | sin => obtain ⟨_, -, -, rfl⟩ := body_sin_eq_ok_iff.1 h; simp
  | cos => obtain ⟨_, -, rfl⟩ := body_cos_eq_ok_iff.1 h; simp
  | tan => obtain ⟨_, -, -, -, rfl⟩ := body_tan_eq_ok_iff.1 h; simp
  | expr => obtain ⟨_, -, -, rfl⟩ := body_expr_eq_ok_iff.1 h; simp
  | log => obtain ⟨_, _, -, -, -, -, -, -, rfl⟩ := body_log_eq_ok_iff.1 h; simp

end Bodies

/-! ### Values by their names -/

@[simp] theorem valueOf_nil (key : Key) : valueOf [] key = none := rfl

theorem valueOf_cons (key' : Key) (v : Int) (values : List (Key × Int)) (key : Key) :
    valueOf ((key', v) :: values) key = if key = key' then some v else valueOf values key := by
  by_cases h : key = key'
  · simp [valueOf, h]
  · have : (key == key') = false := by simpa using h
    simp [valueOf, List.lookup, this, h]

theorem valueOf_append (front back : List (Key × Int)) (key : Key) :
    valueOf (front ++ back) key = (valueOf front key).or (valueOf back key) :=
  List.lookup_append

theorem valueOf_append_of_none {front back : List (Key × Int)} {key : Key} (h : valueOf front key = none) :
    valueOf (front ++ back) key = valueOf back key := by
  rw [valueOf_append, h, Option.none_or]

theorem valueOf_append_of_some {front : List (Key × Int)} (back : List (Key × Int)) {key : Key} {v : Int}
    (h : valueOf front key = some v) : valueOf (front ++ back) key = some v := by
  rw [valueOf_append, h, Option.some_or]

theorem valueOf_eq_none {values : List (Key × Int)} {key : Key} (h : ∀ kv ∈ values, kv.1 ≠ key) :
    valueOf values key = none := by
  simp only [valueOf, List.lookup_eq_none_iff, bne_iff_ne]
  exact fun kv hkv => (h kv hkv).symm

/-- A name with an index in a range of names of its kind. -/
theorem valueOf_range_map {name : Nat → Sym} (injective : ∀ j k, name j = name k → j = k) (g : Gadget)
    (value : Nat → Int) {n k : Nat} (h : k < n) :
    valueOf ((List.range n).map fun j => (⟨g, name j⟩, value j)) ⟨g, name k⟩ = some (value k) := by
  induction n with
  | zero => omega
  | succ n ih =>
    rw [List.range_succ, List.map_append, valueOf_append]
    by_cases earlier : k < n
    · rw [ih earlier, Option.some_or]
    · obtain rfl : k = n := by omega
      rw [valueOf_eq_none, Option.none_or]
      · simp [valueOf_cons]
      · rintro _ hkv e
        obtain ⟨j, hj, rfl⟩ := List.mem_map.1 hkv
        obtain rfl := injective _ _ (Key.mk.inj e).2
        exact absurd (List.mem_range.1 hj) (lt_irrefl _)

/-! ### Sites that hold -/

@[simp] theorem fits_scalar (values : List (Key × Int)) (g : Gadget) (name : Sym) :
    (scalar g name).fits values = true := by
  unfold Slot.fits
  cases valueOf values (scalar g name).key <;> rfl

theorem all_fits_scalars (values : List (Key × Int)) (g : Gadget) (name : Nat → Sym) (n : Nat) :
    ((List.range n).map fun j => scalar g (name j)).all (Slot.fits values) = true := by
  simp

/-- A site fits where it holds the value of its name. -/
theorem fits_of_holds {values : List (Key × Int)} {s : Slot} {v : Int} (value : valueOf values s.key = some v)
    (holds : siteHolds s.limbs s.signed v = true) : s.fits values = true := by
  simp [Slot.fits, value, holds]

/-- An unsigned site holds the values of `[0, top]` that its budget holds. -/
theorem siteHolds_of_mem {n : Nat} {v top : Int} (budget : Holds n top) (mem : 0 ≤ v ∧ v ≤ top) :
    siteHolds n false v = true := by
  have small : v < pow2 (16 * n) := mem.2.trans_lt budget
  simp [siteHolds, mag_of_nonneg mem.1, small, mem.1]

theorem siteHolds_of_lt {n : Nat} {v : Int} (mem : 0 ≤ v ∧ v < pow2 (16 * n)) : siteHolds n false v = true := by
  simp [siteHolds, mag_of_nonneg mem.1, mem]

theorem siteHolds_signed {n : Nat} {v : Int} (small : mag v < pow2 (16 * n)) : siteHolds n true v = true := by
  simp [siteHolds, small]

/-- The three sites of a rounding division by `0 < y < B` (rules R192, R194). -/
theorem division_sites {n : Sym → Nat} {B : Int} (fit : ∀ site ∈ [Sym.r, .gap, .h], Holds (n site) (B - 1)) (x : Int)
    {y : Int} (y_pos : 0 < y) (y_lt : y < B) :
    siteHolds (n .r) false (rdm x y).r = true ∧ siteHolds (n .h) false (half y) = true
      ∧ siteHolds (n .gap) false (y - (rdm x y).r - 1) = true := by
  obtain ⟨-, r_nonneg, r_lt, -, -⟩ := rdm_spec x y_pos
  have halved := half_eq y
  exact ⟨siteHolds_of_mem (fit .r (by simp)) (by omega), siteHolds_of_mem (fit .h (by simp)) (by omega),
    siteHolds_of_mem (fit .gap (by simp)) (by omega)⟩

/-- The sites of SQRT and SQRTF have `m` limbs each (rules R222, R223). -/
theorem sqrt_sites {m1 m2 : Nat} (h1 : Legal m1) {x : Int} (x_nonneg : 0 ≤ x) (x_lt : x < bound m1 m2) :
    siteHolds (m1 + m2) false x = true
      ∧ siteHolds (m1 + m2) false ((sq m2 x).N - (sq m2 x).f * (sq m2 x).f) = true
      ∧ siteHolds (m1 + m2) false (((sq m2 x).f + 1) * ((sq m2 x).f + 1) - (sq m2 x).N - 1) = true
      ∧ siteHolds (m1 + m2) false (roundingSide (sq m2 x)) = true := by
  obtain ⟨a1, a2⟩ := SquareRoot.sq_aux_bounds m2 x_nonneg
  have a3 := SquareRoot.roundingSide_bounds m2 x_nonneg
  have f_lt := SquareRoot.sq_f_lt x_nonneg x_lt
  have room := SquareRoot.two_mul_rootBound_le h1 m2
  have top : 2 * (sq m2 x).f < pow2 (16 * (m1 + m2)) := by
    have : bound m1 m2 = pow2 (16 * (m1 + m2)) := rfl
    linarith
  exact ⟨siteHolds_of_lt ⟨x_nonneg, x_lt⟩, siteHolds_of_lt ⟨a1.1, a1.2.trans_lt top⟩,
    siteHolds_of_lt ⟨a2.1, a2.2.trans_lt top⟩, siteHolds_of_lt ⟨a3.1, a3.2.trans_lt top⟩⟩

/-- The sites of a modulo of representable values (rule R291). -/
theorem rem_sites {m : Nat} {x y xs : Int} (hx : mag x < pow2 (16 * m)) (hy : mag y < pow2 (16 * m))
    (hxs : mag xs < pow2 (16 * m)) (nonzero : y ≠ 0) :
    siteHolds m true y = true ∧ siteHolds m true (rm x y xs).z = true ∧ siteHolds (2 * m) false (rm x y xs).a = true
      ∧ siteHolds m false (mag y - mag (rm x y xs).z - 1) = true := by
  obtain ⟨-, -, z_small⟩ := rm_spec x xs nonzero
  have quotient : (rm x y xs).a < pow2 (16 * (2 * m)) := by
    have square : pow2 (16 * (2 * m)) = pow2 (16 * m) * pow2 (16 * m) := by
      rw [← pow2_add]
      congr 1
      omega
    rw [mag_eq_abs] at hx hxs
    have := mag_rm_a_le x xs nonzero
    rw [abs_mul] at this
    have := mul_lt_mul'' hx hxs (abs_nonneg x) (abs_nonneg xs)
    rw [square]
    omega
  obtain ⟨gap_nonneg, gap_lt⟩ := rm_gap_mem x xs nonzero
  exact ⟨siteHolds_signed hy, siteHolds_signed (z_small.trans hy), siteHolds_of_lt ⟨mag_nonneg _, quotient⟩,
    siteHolds_of_lt ⟨gap_nonneg, gap_lt.trans hy⟩⟩

section AtPair

variable {e : Env} (valid : e.p.Valid) (h1 : Legal e.m1) (h2 : Legal e.m2)
include valid h1 h2

/-- The sites of ATAN's first two stages: every value lies below the operand's bound (rules R251, R252). -/
theorem atan_reciprocal_sites {x : Int} (hx : mag x < bound e.m1 e.m2) :
    siteHolds (e.p.limbs .atan .d1 e.m1 e.m2) false (atanRun e x).s1.d1 = true
      ∧ siteHolds (e.p.limbs .atan .r1 e.m1 e.m2) false (atanRun e x).s2.r1 = true
      ∧ siteHolds (e.p.limbs .atan .h1 e.m1 e.m2) false (atanRun e x).s2.h1 = true
      ∧ siteHolds (e.p.limbs .atan .gap1 e.m1 e.m2) false (atanRun e x).s2.gap1 = true := by
  have fit := (valid.each _ _ h1 h2).limbs.atan1
  have δ_pos := delta_pos e.m2
  have δ_le := three_delta_le_bound h1 (e := e)
  have a_nonneg := mag_nonneg x
  obtain ⟨d1, r1, gap1, h1'⟩ : Holds _ _ ∧ Holds _ _ ∧ Holds _ _ ∧ Holds _ _ :=
    ⟨fit .d1 (by simp), fit .r1 (by simp), fit .gap1 (by simp), fit .h1 (by simp)⟩
  have e1 : (atanRun e x).s1 = atanStage1 e.m2 x := rfl
  have e2 : (atanRun e x).s2 = atanStage2 e.m2 (atanStage1 e.m2 x) := rfl
  have ea : (atanStage1 e.m2 x).a = mag x := rfl
  rcases gt1_cases e.m2 x with ⟨set, above⟩ | ⟨clear, below⟩
  · obtain ⟨-, r_nonneg, r_lt, -, -⟩ := rdm_spec (delta e.m2 ^ 2) (δ_pos.trans above)
    have halved := half_eq (mag x)
    have d1_eq : (atanStage1 e.m2 x).d1 = mag x - delta e.m2 - 1 := if_pos set
    rw [e1, e2, d1_eq, atanStage2, if_pos set, ea]
    dsimp only
    exact ⟨siteHolds_of_mem d1 (by omega), siteHolds_of_mem r1 (by omega), siteHolds_of_mem h1' (by omega),
      siteHolds_of_mem gap1 (by omega)⟩
  · have unset : ¬ (atanStage1 e.m2 x).gt1 = 1 := by omega
    have d1_eq : (atanStage1 e.m2 x).d1 = delta e.m2 - mag x := if_neg unset
    rw [e1, e2, d1_eq, atanStage2, if_neg unset]
    dsimp only
    exact ⟨siteHolds_of_mem d1 (by omega), siteHolds_of_mem r1 (by omega), siteHolds_of_mem h1' (by omega),
      siteHolds_of_mem gap1 (by omega)⟩

/-- The sites of ATAN's last divisions (rules R253–R255). -/
theorem atan_division_sites (x : Int) :
    siteHolds (e.p.limbs .atan .d2 e.m1 e.m2) false (atanRun e x).s3.d2 = true
      ∧ siteHolds (e.p.limbs .atan .r2 e.m1 e.m2) false (atanRun e x).s4.r2 = true
      ∧ siteHolds (e.p.limbs .atan .h2 e.m1 e.m2) false (atanRun e x).s4.h2 = true
      ∧ siteHolds (e.p.limbs .atan .gap2 e.m1 e.m2) false (atanRun e x).s4.gap2 = true
      ∧ siteHolds (e.p.limbs .atan .r5 e.m1 e.m2) false (atanRun e x).s5.r5 = true
      ∧ siteHolds (e.p.limbs .atan .gap5 e.m1 e.m2) false (atanRun e x).s5.gap5 = true := by
  have fit := (valid.each _ _ h1 h2).limbs
  obtain ⟨K_pos, K_lt⟩ := (valid.each _ _ h1 h2).atanK
  obtain ⟨t_nonneg, t_le⟩ := atanRun_t_mem (e := e) x
  obtain ⟨-, den_lt⟩ := atanRun_den_mem valid h1 h2 x
  have den_pos := atanRun_den_pos valid h1 h2 x
  have d2 : 0 ≤ (atanRun e x).s3.d2 ∧ (atanRun e x).s3.d2 ≤ delta e.m2 := by
    rcases gt2_cases e.m2 (e.p.atanK e.m2) (atanRun e x).s2.t with ⟨set, above⟩ | ⟨clear, below⟩
    · have : (atanRun e x).s3.d2 = (atanRun e x).s2.t - e.p.atanK e.m2 - 1 := if_pos set
      omega
    · have unset : ¬ (atanStage3 e.m2 (e.p.atanK e.m2) (atanRun e x).s2.t).gt2 = 1 := by omega
      have : (atanRun e x).s3.d2 = e.p.atanK e.m2 - (atanRun e x).s2.t := if_neg unset
      omega
  obtain ⟨-, r2_nonneg, r2_lt, -, -⟩ := rdm_spec (atanRun e x).s3.num den_pos
  obtain ⟨-, r5_nonneg, r5_lt, -, -⟩ := rdm_spec (taylorNumerator e.m2 (atanRun e x).s4.v) (fifteenDelta4_pos e.m2)
  have halved : (atanRun e x).s4.h2 = (atanRun e x).s3.den / 2 := half_eq _
  have gap2 : (atanRun e x).s4.gap2 = (atanRun e x).s3.den - (atanRun e x).s4.r2 - 1 := rfl
  have gap5 : (atanRun e x).s5.gap5 = 15 * delta e.m2 ^ 4 - (atanRun e x).s5.r5 - 1 := rfl
  have r2_eq : (atanRun e x).s4.r2 = (rdm (atanRun e x).s3.num (atanRun e x).s3.den).r := rfl
  have r5_eq : (atanRun e x).s5.r5
      = (rdm (taylorNumerator e.m2 (atanRun e x).s4.v) (fifteenDelta4 e.m2)).r := rfl
  have d5_eq : fifteenDelta4 e.m2 = 15 * delta e.m2 ^ 4 := rfl
  exact ⟨siteHolds_of_mem fit.atan3 d2, siteHolds_of_mem (fit.atan4 .r2 (by simp)) (by omega),
    siteHolds_of_mem fit.atan4Half (by omega), siteHolds_of_mem (fit.atan4 .gap2 (by simp)) (by omega),
    siteHolds_of_mem (fit.atan5 .r5 (by simp)) (by omega), siteHolds_of_mem (fit.atan5 .gap5 (by simp)) (by omega)⟩

omit valid h1 h2 in
/-- The sites of the rescale by `D` (rules R320, R321). -/
theorem rescale_sites {n : Sym → Nat} (fit : ∀ site ∈ [Sym.r, .gap], Holds (n site) (rescaleD e.m2 - 1)) (sum : Int) :
    siteHolds (n .r) false (rdm sum (rescaleD e.m2)).r = true
      ∧ siteHolds (n .gap) false (rescaleD e.m2 - (rdm sum (rescaleD e.m2)).r - 1) = true := by
  obtain ⟨-, r_nonneg, r_lt, -, -⟩ := rdm_spec sum (rescaleD_pos e.m2)
  exact ⟨siteHolds_of_mem (fit .r (by simp)) (by omega), siteHolds_of_mem (fit .gap (by simp)) (by omega)⟩

/-- The sites of TAN's division: its divisor is a raw sum (rules R314, R323). -/
theorem tan_sites {x : Int} (nonzero : (scr e (ang e x)).cr ≠ 0) :
    siteHolds (e.p.limbs .tan .c e.m1 e.m2) false (mag (scr e (ang e x)).cr) = true
      ∧ siteHolds (e.p.limbs .tan .r e.m1 e.m2) false (tanDivision e x).r = true
      ∧ siteHolds (e.p.limbs .tan .h e.m1 e.m2) false (half (mag (scr e (ang e x)).cr)) = true
      ∧ siteHolds (e.p.limbs .tan .gap e.m1 e.m2) false
          (mag (scr e (ang e x)).cr - (tanDivision e x).r - 1) = true := by
  have fit := (valid.each _ _ h1 h2).limbs.tan
  have c_le := (abs_scr_le_budget valid h1 h2 (ang e x)).2
  rw [← mag_eq_abs] at c_le
  have c_pos : 0 < mag (scr e (ang e x)).cr := by rw [mag_eq_abs]; exact abs_pos.2 nonzero
  obtain ⟨-, r_nonneg, r_lt, -, -⟩ := rdm_spec (sgn (scr e (ang e x)).cr * e.delta * (scr e (ang e x)).sr) c_pos
  have r_eq : (tanDivision e x).r
      = (rdm (sgn (scr e (ang e x)).cr * e.delta * (scr e (ang e x)).sr) (mag (scr e (ang e x)).cr)).r := rfl
  have halved := half_eq (mag (scr e (ang e x)).cr)
  exact ⟨siteHolds_of_mem (fit .c (by simp)) (by omega), siteHolds_of_mem (fit .r (by simp)) (by omega),
    siteHolds_of_mem (fit .h (by simp)) (by omega), siteHolds_of_mem (fit .gap (by simp)) (by omega)⟩

/-- The two comparisons of the clip stay in budget for a representable operand (rule R362). -/
theorem expr_sites {x : Int} (hx : mag x < bound e.m1 e.m2) :
    siteHolds (e.p.limbs .expr .dlo e.m1 e.m2) false
        ((clip e x).lt * (e.p.expLo e.m1 e.m2 - x - 1) + (1 - (clip e x).lt) * (x - e.p.expLo e.m1 e.m2)) = true
      ∧ siteHolds (e.p.limbs .expr .dhi e.m1 e.m2) false
        ((clip e x).gt * (x - e.p.expHi e.m1 e.m2 - 1) + (1 - (clip e x).gt) * (e.p.expHi e.m1 e.m2 - x)) = true := by
  have fit := (valid.each _ _ h1 h2).limbs.expr
  have window := (valid.each _ _ h1 h2).window
  have dlo := fit .dlo (by simp)
  have dhi := fit .dhi (by simp)
  rw [mag_lt_iff] at hx
  simp only [mag] at dlo dhi
  by_cases below : x < e.p.expLo e.m1 e.m2
  · rw [clip_below window below]
    dsimp only
    exact ⟨siteHolds_of_mem dlo (by omega), siteHolds_of_mem dhi (by omega)⟩
  · by_cases above : e.p.expHi e.m1 e.m2 < x
    · rw [clip_above window above]
      dsimp only
      exact ⟨siteHolds_of_mem dlo (by omega), siteHolds_of_mem dhi (by omega)⟩
    · rw [clip_inside (by omega) (by omega)]
      dsimp only
      exact ⟨siteHolds_of_mem dlo (by omega), siteHolds_of_mem dhi (by omega)⟩

/-- LOG's two sites: `e1 ≥ x > 0` and `e0 < x`, all representable (rule R363). -/
theorem log_sites {x e1 e0 : Int} (x_pos : 0 < x) (hx : mag x < bound e.m1 e.m2) (he1 : mag e1 < bound e.m1 e.m2)
    (he0 : mag e0 < bound e.m1 e.m2) (reached : x ≤ e1) (strict : e0 < x) :
    siteHolds (e.p.limbs .log .g1 e.m1 e.m2) false (e1 - x) = true
      ∧ siteHolds (e.p.limbs .log .g2 e.m1 e.m2) false (x - e0 - 1) = true := by
  have fit := (valid.each _ _ h1 h2).limbs
  obtain ⟨-, x_lt⟩ := mag_lt_iff.1 hx
  rw [mag_lt_iff] at he1 he0
  exact ⟨siteHolds_of_mem fit.logAbove (by omega), siteHolds_of_mem fit.logBelow (by omega)⟩

end AtPair

end Sys2Proof.Answers
end

section
/-! PROOFS. No internal site of an answering body faults (40_control.md rule R146), and the first condition of the
spec's order is the fault a command takes (60_exceptions.md rule R403). -/

namespace Sys2Proof.FaultOrder

open Sys2Proof.Machine Sys2Proof.Steps Sys2Proof.Bounds Sys2Proof.Answers

/-! ### The values of shared parts, by their gadget -/

theorem valueOf_of_gadget_ne {values : List (Key × Int)} {g : Gadget} {name : Sym}
    (h : ∀ kv ∈ values, kv.1.gadget ≠ g) : valueOf values ⟨g, name⟩ = none :=
  valueOf_eq_none fun kv hkv e => h kv hkv (by rw [e])

theorem remValues_gadget {gd : Gadget} {x y xs : Int} {kv : Key × Int} (h : kv ∈ remValues gd x y xs) :
    kv.1.gadget = gd := by
  simp only [remValues, List.mem_cons, List.not_mem_nil, or_false] at h
  rcases h with rfl | rfl | rfl | rfl | rfl | rfl | rfl | rfl | rfl <;> rfl

theorem exprValues_gadget {e : Env} {gd : Gadget} {x : Int} {kv : Key × Int} (h : kv ∈ exprValues e gd x) :
    kv.1.gadget = gd := by
  simp only [exprValues, List.mem_append, List.mem_cons, List.not_mem_nil, or_false] at h
  rcases h with (rfl | rfl | rfl | rfl | rfl | rfl | rfl | rfl) | h
  case inr =>
    split at h
    · obtain ⟨_, -, rfl⟩ := List.mem_map.1 h
      rfl
    · cases h
  all_goals rfl

/-- The angle's own values: all of `angleValues` but the sub-gadget's. -/
def ownAngleValues (e : Env) (x : Int) : List (Key × Int) :=
  [own .x x, own .s (ang e x).s]
  ++ ((List.range (angleLimbs e.m2)).map fun j => own (.theta j) (theta (ang e x) j))
  ++ ((List.range (angleLimbs e.m2)).map fun j => own (.sj j) (sinEntry e (ang e x) j))
  ++ ((List.range (angleLimbs e.m2)).map fun j => own (.cj j) (cosEntry e (ang e x) j))
  ++ [own .sab (scr e (ang e x)).sab, own .cab (scr e (ang e x)).cab, own .sr (scr e (ang e x)).sr,
      own .cr (scr e (ang e x)).cr]

theorem angleValues_eq (e : Env) (x : Int) : angleValues e x = ownAngleValues e x
    ++ if e.m1 = 2 then remValues .rem x (e.p.twoPiY e.m2) (e.p.xScaler e.m2) else [] := rfl

/-- The names of the angle: none of the division's. -/
theorem ownAngleValues_key {e : Env} {x : Int} {kv : Key × Int} (h : kv ∈ ownAngleValues e x) :
    kv.1.gadget = .own ∧ (kv.1.sym ∈ [Sym.x, .s, .sab, .cab, .sr, .cr]
      ∨ ∃ j, kv.1.sym = .theta j ∨ kv.1.sym = .sj j ∨ kv.1.sym = .cj j) := by
  simp only [ownAngleValues, List.mem_append, List.mem_map] at h
  rcases h with (((h | ⟨j, -, rfl⟩) | ⟨j, -, rfl⟩) | ⟨j, -, rfl⟩) | h
  · simp only [List.mem_cons, List.not_mem_nil, or_false] at h
    rcases h with rfl | rfl <;> exact ⟨rfl, .inl (by simp [own])⟩
  · exact ⟨rfl, .inr ⟨j, .inl rfl⟩⟩
  · exact ⟨rfl, .inr ⟨j, .inr (.inl rfl)⟩⟩
  · exact ⟨rfl, .inr ⟨j, .inr (.inr rfl)⟩⟩
  · simp only [List.mem_cons, List.not_mem_nil, or_false] at h
    rcases h with rfl | rfl | rfl | rfl <;> exact ⟨rfl, .inl (by simp [own])⟩

/-- A name of the division that follows the angle has no value among the angle's. -/
theorem valueOf_angleValues_eq_none (e : Env) (x : Int) {name : Sym}
    (other : name ∈ [Sym.q, .r, .gap, .res, .sigma, .c, .p, .h]) : valueOf (angleValues e x) ⟨.own, name⟩ = none := by
  rw [angleValues_eq, valueOf_append_of_none]
  · split
    · exact valueOf_of_gadget_ne fun kv hkv => by rw [remValues_gadget hkv]; nofun
    · rfl
  · refine valueOf_eq_none fun kv hkv e => ?_
    obtain ⟨-, names⟩ := ownAngleValues_key hkv
    rw [e] at names
    simp only [List.mem_cons, List.not_mem_nil, or_false] at other
    rcases other with rfl | rfl | rfl | rfl | rfl | rfl | rfl | rfl <;> simp at names

/-- With `m1 = 2` the sub-gadget's names have the values of its modulo (rule R322). -/
theorem valueOf_angleValues_rem {e : Env} (two : e.m1 = 2) (x : Int) (back : List (Key × Int))
    (own_back : ∀ kv ∈ back, kv.1.gadget = .own) (name : Sym) :
    valueOf (angleValues e x ++ back) ⟨.rem, name⟩
      = valueOf (remValues .rem x (e.p.twoPiY e.m2) (e.p.xScaler e.m2)) ⟨.rem, name⟩ := by
  have front : valueOf (ownAngleValues e x) ⟨.rem, name⟩ = none :=
    valueOf_of_gadget_ne fun kv hkv => by rw [(ownAngleValues_key hkv).1]; nofun
  have tail : valueOf back ⟨.rem, name⟩ = none :=
    valueOf_of_gadget_ne fun kv hkv => by rw [own_back kv hkv]; nofun
  rw [valueOf_append, tail, Option.or_none, angleValues_eq, if_pos two, valueOf_append_of_none front]

/-! ### The Witness lists fit -/

theorem division_fits {p : Params} {op : Op} {quot : Sym} {m1 m2 : Nat} (named : quot = .q ∨ quot = .z)
    (fit : ∀ site ∈ [Sym.r, .gap, .h], Holds (p.limbs op site m1 m2) (bound m1 m2 - 1)) (x n : Int) {y : Int}
    (y_pos : 0 < y) (y_lt : y < bound m1 m2) :
    (divisionSlots p op quot m1 m2).all (Slot.fits (divisionValues quot x y (rdm n y))) = true := by
  obtain ⟨r, h, gap⟩ := division_sites (n := fun site => p.limbs op site m1 m2) fit n y_pos y_lt
  rcases named with rfl | rfl <;>
    simp only [divisionSlots, List.all_cons, List.all_nil, fits_scalar, Bool.and_true, Bool.true_and,
      Bool.and_eq_true] <;>
    exact ⟨fits_of_holds rfl r, fits_of_holds rfl h, fits_of_holds rfl gap⟩

theorem rem_fits {gd : Gadget} {m : Nat} {x y xs : Int} {values : List (Key × Int)}
    (named : ∀ name, valueOf values ⟨gd, name⟩ = valueOf (remValues gd x y xs) ⟨gd, name⟩)
    (hx : mag x < pow2 (16 * m)) (hy : mag y < pow2 (16 * m)) (hxs : mag xs < pow2 (16 * m)) (nonzero : y ≠ 0) :
    (remSlots gd m).all (Slot.fits values) = true := by
  obtain ⟨ys, zs, as, gs⟩ := rem_sites hx hy hxs nonzero
  simp only [remSlots, List.all_cons, List.all_nil, fits_scalar, Bool.and_true, Bool.true_and, Bool.and_eq_true]
  refine ⟨fits_of_holds (v := y) ?_ ys, fits_of_holds (v := (rm x y xs).z) ?_ zs,
    fits_of_holds (v := (rm x y xs).a) ?_ as, fits_of_holds (v := mag y - mag (rm x y xs).z - 1) ?_ gs⟩ <;>
    refine (named _).trans ?_ <;> simp [remValues, valueOf_cons]

section AtPair

variable {e : Env} (valid : e.p.Valid) (h1 : Legal e.m1) (h2 : Legal e.m2)
include valid h1 h2

/-- The divisor and the pre-scale of the angle reduction are representable (rule R322). -/
theorem reduction_operands (two : e.m1 = 2) : 0 < e.p.twoPiY e.m2 ∧ mag (e.p.twoPiY e.m2) < bound e.m1 e.m2
    ∧ mag (e.p.xScaler e.m2) < bound e.m1 e.m2 := by
  obtain ⟨y_pos, y_lt⟩ := (valid.each _ _ h1 h2).twoPiY
  obtain ⟨xs_pos, xs_lt⟩ := (valid.each _ _ h1 h2).xScaler two
  have room : pow2 (16 * angleLimbs e.m2) ≤ bound e.m1 e.m2 := pow2_le (by rw [angleLimbs, two]; omega)
  rw [mag_of_nonneg y_pos.le, mag_of_nonneg (by omega)]
  omega

theorem angle_fits {x : Int} (hx : mag x < bound e.m1 e.m2) {values back : List (Key × Int)}
    (split : values = angleValues e x ++ back) (own_back : ∀ kv ∈ back, kv.1.gadget = .own) :
    (angleSlots e.m1 e.m2).all (Slot.fits values) = true := by
  have reduction : (if e.m1 = 2 then remSlots .rem (e.m1 + e.m2) else []).all (Slot.fits values) = true := by
    split_ifs with two
    · obtain ⟨y_pos, y_lt, xs_lt⟩ := reduction_operands valid h1 h2 two
      rw [split]
      exact rem_fits (valueOf_angleValues_rem two x back own_back) hx y_lt xs_lt y_pos.ne'
    · rfl
  simp only [angleSlots, List.all_append, List.all_cons, List.all_nil, all_fits_scalars, fits_scalar, reduction,
    Bool.and_true]

theorem expr_fits {gd : Gadget} {x : Int} (hx : mag x < bound e.m1 e.m2) {values : List (Key × Int)}
    (named : ∀ name, valueOf values ⟨gd, name⟩ = valueOf (exprValues e gd x) ⟨gd, name⟩) :
    (exprSlots e.p gd e.m1 e.m2).all (Slot.fits values) = true := by
  obtain ⟨dlo, dhi⟩ := expr_sites valid h1 h2 hx
  simp only [exprSlots, List.all_append, List.all_cons, List.all_nil, all_fits_scalars, fits_scalar, Bool.and_true,
    Bool.true_and, Bool.and_eq_true]
  refine ⟨fits_of_holds ((named .dlo).trans (valueOf_append_of_some _ ?_)) dlo,
    fits_of_holds ((named .dhi).trans (valueOf_append_of_some _ ?_)) dhi⟩ <;> simp [valueOf_cons]

theorem atan_fits {x : Int} (hx : mag x < bound e.m1 e.m2) :
    (atanSlots e.p e.m1 e.m2).all (Slot.fits (atanValues x (atanRun e x))) = true := by
  obtain ⟨d1, r1, h1', gap1⟩ := atan_reciprocal_sites valid h1 h2 hx
  obtain ⟨d2, r2, h2', gap2, r5, gap5⟩ := atan_division_sites valid h1 h2 x
  simp only [atanSlots, List.all_cons, List.all_nil, fits_scalar, Bool.and_true, Bool.true_and, Bool.and_eq_true]
  exact ⟨fits_of_holds rfl (siteHolds_signed hx), fits_of_holds rfl d1, fits_of_holds rfl r1, fits_of_holds rfl h1',
    fits_of_holds rfl gap1, fits_of_holds rfl d2, fits_of_holds rfl r2, fits_of_holds rfl h2', fits_of_holds rfl gap2,
    fits_of_holds rfl r5, fits_of_holds rfl gap5⟩

theorem rescale_fits {op : Op} (fit : ∀ site ∈ [Sym.r, .gap], Holds (e.p.limbs op site e.m1 e.m2) (rescaleD e.m2 - 1))
    {x : Int} (hx : mag x < bound e.m1 e.m2) (sum res : Int) :
    (rescaleSlots e.p op e.m1 e.m2).all
      (Slot.fits (angleValues e x ++ rescaleValues e.m2 (rdm sum (rescaleD e.m2)) res)) = true := by
  obtain ⟨r, gap⟩ := rescale_sites (e := e) (n := fun site => e.p.limbs op site e.m1 e.m2) fit sum
  have own_back : ∀ kv ∈ rescaleValues e.m2 (rdm sum (rescaleD e.m2)) res, kv.1.gadget = .own := by
    simp [rescaleValues, own]
  simp only [rescaleSlots, List.all_append, List.all_cons, List.all_nil, fits_scalar, Bool.and_true, Bool.true_and,
    Bool.and_eq_true]
  exact ⟨angle_fits valid h1 h2 hx rfl own_back,
    fits_of_holds (valueOf_append_of_none (valueOf_angleValues_eq_none e x (by simp))) r,
    fits_of_holds (valueOf_append_of_none (valueOf_angleValues_eq_none e x (by simp))) gap⟩

theorem tan_fits {x : Int} (hx : mag x < bound e.m1 e.m2) (nonzero : (scr e (ang e x)).cr ≠ 0) (σ res : Int) :
    (tanSlots e.p e.m1 e.m2).all (Slot.fits (angleValues e x
      ++ tanValues σ (mag (scr e (ang e x)).cr) (tanDivision e x) res)) = true := by
  obtain ⟨c, r, h, gap⟩ := tan_sites valid h1 h2 nonzero
  have own_back : ∀ kv ∈ tanValues σ (mag (scr e (ang e x)).cr) (tanDivision e x) res, kv.1.gadget = .own := by
    simp [tanValues, own]
  simp only [tanSlots, List.all_append, List.all_cons, List.all_nil, fits_scalar, Bool.and_true, Bool.true_and,
    Bool.and_eq_true]
  exact ⟨angle_fits valid h1 h2 hx rfl own_back,
    fits_of_holds (valueOf_append_of_none (valueOf_angleValues_eq_none e x (by simp))) c,
    fits_of_holds (valueOf_append_of_none (valueOf_angleValues_eq_none e x (by simp))) r,
    fits_of_holds (valueOf_append_of_none (valueOf_angleValues_eq_none e x (by simp))) h,
    fits_of_holds (valueOf_append_of_none (valueOf_angleValues_eq_none e x (by simp))) gap⟩

end AtPair

theorem sqrt_fits {m1 m2 : Nat} (h1 : Legal m1) {x : Int} (x_nonneg : 0 ≤ x) (x_lt : x < bound m1 m2) :
    (sqrtSlots (m1 + m2)).all (Slot.fits (sqrtValues x (sq m2 x))) = true
      ∧ (sqrtfSlots (m1 + m2)).all (Slot.fits (sqrtfValues x (sq m2 x))) = true := by
  obtain ⟨xs, a1, a2, a3⟩ := sqrt_sites h1 x_nonneg x_lt
  simp only [sqrtSlots, sqrtfSlots, List.all_cons, List.all_nil, fits_scalar, Bool.and_true, Bool.true_and,
    Bool.and_eq_true]
  exact ⟨⟨fits_of_holds rfl xs, fits_of_holds rfl a1, fits_of_holds rfl a2, fits_of_holds rfl a3⟩,
    fits_of_holds rfl xs, fits_of_holds rfl a1, fits_of_holds rfl a2⟩

/-- The `y` and `y − 1` of LOG are representable: `y` lies in `[−B + 2, B − 1]` (rule R363). -/
theorem log_root_small {e : Env} {x y : Int} (least : IsLeast (LogSet e x) y) :
    mag y < e.bound ∧ mag (y - 1) < e.bound := by
  obtain ⟨lower, upper, -⟩ := least.1
  rw [mag_lt_iff, mag_lt_iff]
  omega

theorem two_le_bound {m1 : Nat} (h1 : Legal m1) (m2 : Nat) : 2 ≤ bound m1 m2 := by
  have : pow2 16 ≤ bound m1 m2 := pow2_le (by rcases h1 with h | h <;> omega)
  exact le_trans (by decide) this

/-- LOG's search in a configuration finds the least element of its set (rule R363). -/
theorem logLeast_isLeast {e : Env} (valid : e.p.Valid) (h1 : Legal e.m1) (h2 : Legal e.m2) (x : Int) :
    (∀ y, logLeast e x = some y → IsLeast (LogSet e x) y) ∧ (logLeast e x = none → LogSet e x = ∅) :=
  logLeast_spec (valid.each _ _ h1 h2).window (two_le_bound h1 _) x

theorem log_fits {e : Env} (valid : e.p.Valid) (h1 : Legal e.m1) (h2 : Legal e.m2) {x y : Int} (x_pos : 0 < x)
    (hx : mag x < bound e.m1 e.m2) (least : IsLeast (LogSet e x) y) (strict : (clip e (y - 1)).V < x)
    (he1 : mag (clip e y).V < bound e.m1 e.m2) (he0 : mag (clip e (y - 1)).V < bound e.m1 e.m2) :
    (logSlots e.p e.m1 e.m2).all (Slot.fits (logValues e x y)) = true := by
  obtain ⟨g1, g2⟩ := log_sites valid h1 h2 x_pos hx he1 he0 least.1.2.2 strict
  obtain ⟨y_small, ym1_small⟩ := log_root_small least
  have valY (name : Sym) : valueOf (logValues e x y) ⟨.expY, name⟩ = valueOf (exprValues e .expY y) ⟨.expY, name⟩ := by
    have tail : valueOf (exprValues e .expYm1 (y - 1)) ⟨.expY, name⟩ = none :=
      valueOf_of_gadget_ne fun kv hkv => by rw [exprValues_gadget hkv]; nofun
    rw [logValues, valueOf_append, tail, Option.or_none, valueOf_append_of_none]
    exact valueOf_of_gadget_ne (by simp [own])
  have valYm1 (name : Sym) :
      valueOf (logValues e x y) ⟨.expYm1, name⟩ = valueOf (exprValues e .expYm1 (y - 1)) ⟨.expYm1, name⟩ := by
    refine valueOf_append_of_none ((valueOf_append_of_none ?_).trans ?_)
    · exact valueOf_of_gadget_ne (by simp [own])
    · exact valueOf_of_gadget_ne fun kv hkv => by rw [exprValues_gadget hkv]; nofun
  simp only [logSlots, List.all_append, List.all_cons, List.all_nil, fits_scalar, Bool.and_true, Bool.true_and,
    Bool.and_eq_true]
  exact ⟨⟨⟨fits_of_holds rfl g1, fits_of_holds rfl g2⟩, expr_fits valid h1 h2 y_small valY⟩,
    expr_fits valid h1 h2 ym1_small valYm1⟩

theorem HoldsFixed.small {p : Params} {s : State} {r : Option Nat} {x : Int} (h : HoldsFixed p s r x) :
    mag x < bound s.m1 s.m2 := by
  obtain ⟨_, -, -, small⟩ := h
  exact small

/-- No internal site of an answering body faults (rule R146). -/
theorem sites_fit {p : Params} (valid : p.Valid) {i : Instr} {s : State} (h1 : Legal s.m1) (h2 : Legal s.m2)
    {out : BodyOut} (h : body i s (s.env p) = .ok out) :
    (slots p i.op s.m1 s.m2).all (Slot.fits out.values) = true := by
  have fit := (valid.each _ _ h1 h2).limbs
  cases i with
  | nop => rfl
  | config => rfl
  | range16 => simp [slots, Instr.op]
  | decomp => simp [slots, Instr.op, decompSlots]
  | rdiv =>
    obtain ⟨x, y, -, hy, pos, -, rfl⟩ := body_rdiv_eq_ok_iff.1 h
    exact division_fits (.inl rfl) fit.rdiv x x pos (mag_lt_iff.1 (HoldsFixed.small hy)).2
  | divp =>
    obtain ⟨x, y, -, hy, pos, -, rfl⟩ := body_divp_eq_ok_iff.1 h
    exact division_fits (.inr rfl) fit.divp x _ pos (mag_lt_iff.1 (HoldsFixed.small hy)).2
  | sqrt =>
    obtain ⟨x, hx, x_nonneg, rfl⟩ := body_sqrt_eq_ok_iff.1 h
    exact (sqrt_fits h1 x_nonneg (mag_lt_iff.1 (HoldsFixed.small hx)).2).1
  | sqrtf =>
    obtain ⟨x, hx, x_nonneg, rfl⟩ := body_sqrtf_eq_ok_iff.1 h
    exact (sqrt_fits h1 x_nonneg (mag_lt_iff.1 (HoldsFixed.small hx)).2).2
  | atan =>
    obtain ⟨x, hx, -, rfl⟩ := body_atan_eq_ok_iff.1 h
    exact atan_fits (e := s.env p) valid h1 h2 (HoldsFixed.small hx)
  | rem =>
    obtain ⟨x, y, xs, hx, hy, hxs, nonzero, -, rfl⟩ := body_rem_eq_ok_iff.1 h
    exact rem_fits (fun _ => rfl) (HoldsFixed.small hx) (HoldsFixed.small hy) (HoldsFixed.small hxs) nonzero
  | tlut => simp [slots, Instr.op]
  | sin =>
    obtain ⟨x, hx, -, rfl⟩ := body_sin_eq_ok_iff.1 h
    exact rescale_fits (e := s.env p) valid h1 h2 fit.sin (HoldsFixed.small hx) _ _
  | cos =>
    obtain ⟨x, hx, rfl⟩ := body_cos_eq_ok_iff.1 h
    exact rescale_fits (e := s.env p) valid h1 h2 fit.cos (HoldsFixed.small hx) _ _
  | tan =>
    obtain ⟨x, hx, nonzero, -, rfl⟩ := body_tan_eq_ok_iff.1 h
    exact tan_fits (e := s.env p) valid h1 h2 (HoldsFixed.small hx) nonzero _ _
  | expr =>
    obtain ⟨x, hx, -, rfl⟩ := body_expr_eq_ok_iff.1 h
    exact expr_fits (e := s.env p) valid h1 h2 (HoldsFixed.small hx) fun _ => rfl
  | log =>
    obtain ⟨x, y, hx, x_pos, found, strict, he1, he0, rfl⟩ := body_log_eq_ok_iff.1 h
    have least := (logLeast_isLeast (e := s.env p) valid h1 h2 x).1 y found
    exact log_fits (e := s.env p) valid h1 h2 x_pos (HoldsFixed.small hx) least strict he1 he0

/-- A ready command whose body answers completes with that answer (rule R143). -/
theorem completed_of_body {p : Params} (valid : p.Valid) {i : Instr} (compute : i.op.isCompute = true) {s : State}
    (ready : FrameReady p i s) {out : BodyOut} (h : body i s (s.env p) = .ok out) :
    Completed p i s out.results out.values (runs p i s) := by
  rw [runs_eq p compute]
  exact perform_completed valid ready h (sites_fit valid ready.m1 ready.m2 h)

end Sys2Proof.FaultOrder
end

section
/-! PROOFS. The order of faults (60_exceptions.md rules R400, R403): a sequence of checks takes the fault of the first
condition that holds, check by check. -/

namespace Sys2Proof.FaultOrder

open Sys2Proof.Machine Sys2Proof.Steps Sys2Proof.Bounds Sys2Proof.Answers

/-! ### A sequence of checks against a list of conditions -/

/-- The fault a sequence of checks raises, if it raises one. -/
def faultOf {α : Type} : Except FaultCode α → Option FaultCode
  | .ok _ => none
  | .error c => some c

@[simp] theorem faultOf_ok {α : Type} (a : α) : faultOf (.ok a : Except FaultCode α) = none := rfl
@[simp] theorem faultOf_error {α : Type} (c : FaultCode) : faultOf (.error c : Except FaultCode α) = some c := rfl

theorem faultOf_eq_none_iff {α : Type} {x : Except FaultCode α} : faultOf x = none ↔ ∃ a, x = .ok a := by
  cases x <;> simp

theorem faultOf_eq_some_iff {α : Type} {x : Except FaultCode α} {c : FaultCode} :
    faultOf x = some c ↔ x = .error c := by
  cases x <;> simp

/-- A condition that holds decides. -/
theorem firstFault_of_holds {cond : Prop} {c : FaultCode} {rest : FaultList} (h : cond) :
    FirstFault ((cond, c) :: rest) (some c) := .inl ⟨h, rfl⟩

/-- A condition that fails leaves the decision to the rest. -/
theorem firstFault_of_fails {cond : Prop} {c : FaultCode} {rest : FaultList} {r : Option FaultCode} (h : ¬ cond)
    (later : FirstFault rest r) : FirstFault ((cond, c) :: rest) r := .inr ⟨h, later⟩

/-- Two conditions in a row with one fault are one condition. -/
theorem firstFault_or {A B : Prop} {c : FaultCode} {rest : FaultList} {r : Option FaultCode}
    (h : FirstFault ((A, c) :: (B, c) :: rest) r) : FirstFault ((A ∨ B, c) :: rest) r := by
  rcases h with ⟨a, rfl⟩ | ⟨na, ⟨b, rfl⟩ | ⟨nb, later⟩⟩
  · exact firstFault_of_holds (.inl a)
  · exact firstFault_of_holds (.inr b)
  · exact firstFault_of_fails (not_or.2 ⟨na, nb⟩) later

/-- Conditions decide by what they say. -/
theorem firstFault_congr {A B : Prop} {c : FaultCode} {rest : FaultList} {r : Option FaultCode} (iff : A ↔ B)
    (h : FirstFault ((A, c) :: rest) r) : FirstFault ((B, c) :: rest) r := by
  rwa [propext iff] at h

theorem firstFault_append_some {l l' : FaultList} {c : FaultCode} (h : FirstFault l (some c)) :
    FirstFault (l ++ l') (some c) := by
  induction l with
  | nil => cases h
  | cons head rest ih =>
    rcases h with ⟨holds, e⟩ | ⟨fails, later⟩
    · exact .inl ⟨holds, e⟩
    · exact .inr ⟨fails, ih later⟩

theorem firstFault_append_none {l l' : FaultList} {r : Option FaultCode} (h : FirstFault l none)
    (later : FirstFault l' r) : FirstFault (l ++ l') r := by
  induction l with
  | nil => exact later
  | cons head rest ih =>
    rcases h with ⟨-, e⟩ | ⟨fails, h⟩
    · cases e
    · exact .inr ⟨fails, ih h⟩

/-- Two sequences of checks, one after the other. -/
theorem firstFault_bind {α β : Type} {l l' : FaultList} {x : Except FaultCode α} {f : α → Except FaultCode β}
    (hx : FirstFault l (faultOf x)) (hf : ∀ a, x = .ok a → FirstFault l' (faultOf (f a))) :
    FirstFault (l ++ l') (faultOf (x >>= f)) := by
  cases x with
  | ok a => exact firstFault_append_none hx (hf a rfl)
  | error c => exact firstFault_append_some hx

/-- A step that cannot fault adds no condition. -/
theorem firstFault_ok_bind {α β : Type} {l : FaultList} {x : Except FaultCode α} {f : α → Except FaultCode β} {a : α}
    (hx : x = .ok a) (h : FirstFault l (faultOf (f a))) : FirstFault l (faultOf (x >>= f)) := by
  rw [hx]
  exact h

theorem firstFault_operand {α : Type} {r : Option Nat} {f : Nat → Except FaultCode α} {l : FaultList}
    (h : ∀ v, r = some v → FirstFault l (faultOf (f v))) :
    FirstFault ((r = none, .unset) :: l) (faultOf (operand r >>= f)) := by
  cases r with
  | none => exact firstFault_of_holds rfl
  | some v => exact firstFault_of_fails nofun (h v rfl)

theorem firstFault_raiseIf {α : Type} {cond : Prop} [Decidable cond] {c : FaultCode} {f : Unit → Except FaultCode α}
    {l : FaultList} (h : ¬ cond → FirstFault l (faultOf (f ()))) :
    FirstFault ((cond, c) :: l) (faultOf (raiseIf (decide cond) c >>= f)) := by
  by_cases holds : cond
  · rw [decide_eq_true holds]
    exact firstFault_of_holds holds
  · rw [decide_eq_false holds]
    exact firstFault_of_fails holds (h holds)

/-- A check that compares with a Boolean. -/
theorem firstFault_raiseIf_bool {α : Type} {cond : Prop} {test : Bool} {c : FaultCode} {f : Unit → Except FaultCode α}
    {l : FaultList} (iff : test = true ↔ cond) (h : FirstFault l (faultOf (f ()))) :
    FirstFault ((cond, c) :: l) (faultOf (raiseIf test c >>= f)) := by
  cases test with
  | true => exact firstFault_of_holds (iff.1 rfl)
  | false => exact firstFault_of_fails (mt iff.2 nofun) h

theorem firstFault_checkResult {α : Type} {e : Env} {z : Int} {f : Unit → Except FaultCode α} {l : FaultList}
    (h : mag z < e.bound → FirstFault l (faultOf (f ()))) :
    FirstFault ((e.bound ≤ mag z, .range) :: l) (faultOf (checkResult e z >>= f)) :=
  firstFault_raiseIf fun small => h (not_le.1 small)

theorem firstFault_fxop {α : Type} {e : Env} {v : Nat} {f : Int → Except FaultCode α} {l : FaultList}
    (h : mag (sval e.p.P v) < e.bound → FirstFault l (faultOf (f (sval e.p.P v)))) :
    FirstFault ((e.bound ≤ mag (sval e.p.P v), .range) :: l) (faultOf (fxop e v >>= f)) := by
  by_cases large : e.bound ≤ mag (sval e.p.P v)
  · rw [fxop_error large]
    exact firstFault_of_holds large
  · rw [fxop_ok (not_le.1 large)]
    exact firstFault_of_fails large (h (not_le.1 large))

/-! ### Step 5 and the operand checks, by the number of operands -/

section Operands

variable {α : Type} {p : Params} {i : Instr} {s : State} {l : FaultList}

theorem firstFault_one_raw (reads : operandsRead i = [.opa]) {f : Nat → Except FaultCode α}
    (h : ∀ v, s.opa = some v → FirstFault l (faultOf (f v))) :
    FirstFault (unsetFaults i s ++ l) (faultOf (operand s.opa >>= f)) := by
  refine firstFault_congr (A := s.opa = none) ?_ (firstFault_operand h)
  simp [reads, State.freg]

/-- One fixed-point operand: `⊥`, then out of range. -/
theorem firstFault_one_fixed (reads : operandsRead i = [.opa]) {f : Int → Except FaultCode α}
    (h : mag (s.operandValue p .opa) < bound s.m1 s.m2 → FirstFault l (faultOf (f (s.operandValue p .opa)))) :
    FirstFault (unsetFaults i s ++ (operandFaults p i s ++ l))
      (faultOf (operand s.opa >>= fun v => fxop (s.env p) v >>= f)) := by
  refine firstFault_one_raw reads fun v opa => ?_
  have value : s.operandValue p .opa = sval p.P v := by simp [State.operandValue, State.freg, opa]
  refine firstFault_congr (A := bound s.m1 s.m2 ≤ mag (s.operandValue p .opa)) (by simp [reads]) ?_
  rw [value] at h ⊢
  exact firstFault_fxop (e := s.env p) h

/-- Two fixed-point operands: both are read before either is checked (rule R403). -/
theorem firstFault_two_fixed (reads : operandsRead i = [.opa, .opb]) {f : Int → Int → Except FaultCode α}
    (h : mag (s.operandValue p .opa) < bound s.m1 s.m2 → mag (s.operandValue p .opb) < bound s.m1 s.m2 →
      FirstFault l (faultOf (f (s.operandValue p .opa) (s.operandValue p .opb)))) :
    FirstFault (unsetFaults i s ++ (operandFaults p i s ++ l))
      (faultOf (operand s.opa >>= fun v => operand s.opb >>= fun w =>
        fxop (s.env p) v >>= fun x => fxop (s.env p) w >>= f x)) := by
  refine firstFault_congr (A := s.opa = none ∨ s.opb = none) (by simp [reads, State.freg]) (firstFault_or ?_)
  refine firstFault_operand fun v opa => firstFault_operand fun w opb => ?_
  have xv : s.operandValue p .opa = sval p.P v := by simp [State.operandValue, State.freg, opa]
  have yv : s.operandValue p .opb = sval p.P w := by simp [State.operandValue, State.freg, opb]
  refine firstFault_congr (A := bound s.m1 s.m2 ≤ mag (s.operandValue p .opa)
    ∨ bound s.m1 s.m2 ≤ mag (s.operandValue p .opb)) (by simp [reads]) (firstFault_or ?_)
  rw [xv, yv] at h ⊢
  exact firstFault_fxop (e := s.env p) fun hx => firstFault_fxop (e := s.env p) fun hy => h hx hy

/-- Three fixed-point operands. -/
theorem firstFault_three_fixed (reads : operandsRead i = [.opa, .opb, .opc])
    {f : Int → Int → Int → Except FaultCode α}
    (h : mag (s.operandValue p .opa) < bound s.m1 s.m2 → mag (s.operandValue p .opb) < bound s.m1 s.m2 →
      mag (s.operandValue p .opc) < bound s.m1 s.m2 →
      FirstFault l (faultOf (f (s.operandValue p .opa) (s.operandValue p .opb) (s.operandValue p .opc)))) :
    FirstFault (unsetFaults i s ++ (operandFaults p i s ++ l))
      (faultOf (operand s.opa >>= fun v => operand s.opb >>= fun w => operand s.opc >>= fun z =>
        fxop (s.env p) v >>= fun x => fxop (s.env p) w >>= fun y => fxop (s.env p) z >>= f x y)) := by
  refine firstFault_congr (A := s.opa = none ∨ s.opb = none ∨ s.opc = none) (by simp [reads, State.freg])
    (firstFault_or ?_)
  refine firstFault_operand fun v opa => firstFault_or ?_
  refine firstFault_operand fun w opb => firstFault_operand fun z opc => ?_
  have xv : s.operandValue p .opa = sval p.P v := by simp [State.operandValue, State.freg, opa]
  have yv : s.operandValue p .opb = sval p.P w := by simp [State.operandValue, State.freg, opb]
  have zv : s.operandValue p .opc = sval p.P z := by simp [State.operandValue, State.freg, opc]
  refine firstFault_congr (A := bound s.m1 s.m2 ≤ mag (s.operandValue p .opa)
    ∨ bound s.m1 s.m2 ≤ mag (s.operandValue p .opb) ∨ bound s.m1 s.m2 ≤ mag (s.operandValue p .opc)) (by simp [reads])
    (firstFault_or ?_)
  rw [xv, yv, zv] at h ⊢
  exact firstFault_fxop (e := s.env p) fun hx => firstFault_or (firstFault_fxop (e := s.env p) fun hy =>
    firstFault_fxop (e := s.env p) fun hz => h hx hy hz)

end Operands

/-! ### The bodies, one by one -/

/-- A sign does not change a magnitude. -/
theorem mag_sign_mul {σ : Int} (sign : σ = 1 ∨ σ = -1) (q : Int) : mag (σ * q) = mag q := by
  rcases sign with rfl | rfl <;> simp

theorem ang_sign (e : Env) (x : Int) : (ang e x).s = 1 ∨ (ang e x).s = -1 := by
  unfold ang
  split
  · exact sgn_eq x
  · exact .inl rfl

/-- TAN's quotient is the signed rounding division of rule R323. -/
theorem tanDivision_q (e : Env) (x : Int) : (tanDivision e x).q
    = rnds (e.delta * (scr e (ang e x)).sr) (scr e (ang e x)).cr := by
  have quotient : (tanDivision e x).q
      = rnd (sgn (scr e (ang e x)).cr * e.delta * (scr e (ang e x)).sr) (mag (scr e (ang e x)).cr) := rfl
  rw [quotient, rnds]
  split_ifs with neg
  · rw [sgn, if_pos neg, mag_eq_abs, abs_of_neg neg, neg_one_mul, neg_mul]
  · rw [sgn, if_neg neg, mag_of_nonneg (not_lt.1 neg), one_mul]

/-- DEC's faults: over the budget, then negative where it is unsigned (rule R160). -/
theorem firstFault_dec (v : Int) (n : Nat) (u : Bool) :
    FirstFault [(pow2 (16 * n) ≤ mag v, .range), (u = true ∧ v < 0, .negative)] (faultOf (dec v n u)) :=
  firstFault_raiseIf fun _ => firstFault_raiseIf_bool (by simp) rfl

/-- LOG's faults after the operand check (rule R363). -/
theorem logBody_firstFault {e : Env} (valid : e.p.Valid) (h1 : Legal e.m1) (h2 : Legal e.m2) (x : Int) :
    FirstFault (logFaults e x) (faultOf (do
      raiseIf (decide (x ≤ 0)) .negative
      match logLeast e x with
      | none => Except.error FaultCode.noSolution
      | some y => logAt e x y)) := by
  obtain ⟨found, missing⟩ := logLeast_isLeast valid h1 h2 x
  refine firstFault_raiseIf fun _ => ?_
  cases least : logLeast e x with
  | none => exact firstFault_of_holds (missing least)
  | some y =>
    have isLeast := found y least
    have only {Q : Int → Prop} : (∃ z, IsLeast (LogSet e x) z ∧ Q z) ↔ Q y :=
      ⟨fun ⟨z, hz, q⟩ => hz.unique isLeast ▸ q, fun q => ⟨y, isLeast, q⟩⟩
    refine firstFault_of_fails (Set.Nonempty.ne_empty ⟨y, isLeast.1⟩) ?_
    refine firstFault_raiseIf_bool (by rw [only]; simp [reaches]) ?_
    refine firstFault_congr only.symm (firstFault_or ?_)
    exact firstFault_checkResult fun _ => firstFault_checkResult fun _ => rfl

/-- Steps 5 and 6 of rule R143 raise the first of the command's own conditions, in the order of rule R403. -/
theorem body_firstFault {p : Params} (valid : p.Valid) {i : Instr} (compute : i.op.isCompute = true) {s : State}
    (h1 : Legal s.m1) (h2 : Legal s.m2) :
    FirstFault (unsetFaults i s ++ bodyFaults p i s) (faultOf (body i s (s.env p))) := by
  cases i with
  | nop => cases compute
  | config => cases compute
  | range16 => exact firstFault_one_raw rfl fun _ _ => rfl
  | decomp b n u =>
    refine firstFault_one_raw rfl fun v opa => ?_
    have value : s.operandValue p .opa = sval p.P v := by simp [State.operandValue, State.freg, opa]
    rw [bodyFaults, value]
    exact firstFault_bind (l' := []) (firstFault_dec _ n u) fun _ _ => rfl
  | rdiv =>
    refine firstFault_two_fixed rfl fun hx hy => firstFault_raiseIf fun nonpos => ?_
    have y_pos := not_le.1 nonpos
    exact firstFault_ok_bind (checkResult_ok ((mag_rnd_le _ y_pos).trans_lt hx)) rfl
  | divp =>
    refine firstFault_two_fixed rfl fun _ _ => firstFault_raiseIf fun _ => ?_
    exact firstFault_checkResult (e := s.env p) fun _ => rfl
  | sqrt => exact firstFault_one_fixed rfl fun _ => firstFault_raiseIf fun _ => rfl
  | sqrtf => exact firstFault_one_fixed rfl fun _ => firstFault_raiseIf fun _ => rfl
  | atan =>
    have small : mag (atanRun (s.env p) (s.operandValue p .opa)).s6.res < (s.env p).bound := by
      rw [mag_eq_abs]
      exact abs_atanRun_res_lt (e := s.env p) valid h1 h2 _
    rw [bodyFaults, ← List.append_nil (operandFaults _ _ _)]
    exact firstFault_one_fixed rfl fun _ => firstFault_ok_bind (checkResult_ok small) rfl
  | rem =>
    exact firstFault_three_fixed rfl fun _ _ _ => firstFault_raiseIf fun _ => firstFault_raiseIf fun _ => rfl
  | tlut b j =>
    refine firstFault_one_raw rfl fun v opa => ?_
    have value : (s.freg .opa).getD 0 = v := by simp [State.freg, opa]
    rw [bodyFaults, value]
    exact firstFault_raiseIf fun _ => rfl
  | sin =>
    have small : mag ((ang (s.env p) (s.operandValue p .opa)).s
        * (rdm (scr (s.env p) (ang (s.env p) (s.operandValue p .opa))).sr (rescaleD s.m2)).q) < (s.env p).bound := by
      rw [mag_sign_mul (ang_sign _ _), mag_eq_abs]
      exact abs_rescaled_lt h1 h2 (abs_scr_le_budget (e := s.env p) valid h1 h2 _).1
    rw [bodyFaults, ← List.append_nil (operandFaults _ _ _)]
    exact firstFault_one_fixed rfl fun _ => firstFault_ok_bind (checkResult_ok small) rfl
  | cos =>
    rw [bodyFaults, ← List.append_nil (operandFaults _ _ _)]
    exact firstFault_one_fixed rfl fun _ => rfl
  | tan =>
    refine firstFault_one_fixed rfl fun _ => firstFault_raiseIf fun _ => ?_
    rw [← tanDivision_q, ← mag_sign_mul (ang_sign (s.env p) (s.operandValue p .opa))]
    exact firstFault_checkResult (e := s.env p) fun _ => rfl
  | expr => exact firstFault_one_fixed rfl fun _ => firstFault_checkResult (e := s.env p) fun _ => rfl
  | log => exact firstFault_one_fixed rfl fun _ => logBody_firstFault (e := s.env p) valid h1 h2 _

end Sys2Proof.FaultOrder
end

section
/-! PROOFS. The fault a compute command takes (60_exceptions.md rule R403), the machine's invariant (10_state.md rules
R34–R46), LOG's bracket (47_exp_log.md rule R364), and what the build bit adds (30_encoding.md rule R102). -/

namespace Sys2Proof.Lifecycle

open Sys2Proof.Machine Sys2Proof.Steps Sys2Proof.Answers Sys2Proof.FaultOrder
open Sys2Proof.Exceptions (afterLine_abort)

/-! ### The first fault decides -/

theorem constructionChecks_firstFault (p : Params) (i : Instr) (s : State) :
    FirstFault (constructionFaults p i s) (faultOf (constructionChecks (s.env p) i s)) :=
  firstFault_raiseIf_bool (by simp) (firstFault_raiseIf_bool Iff.rfl (by
    rw [← bind_pure (raiseIf _ _)]
    exact firstFault_raiseIf fun _ => rfl))

theorem regionChecks_firstFault (p : Params) (i : Instr) (s : State) :
    FirstFault (regionFaults p i s) (faultOf (regionChecks (s.env p) i s)) :=
  firstFault_raiseIf fun _ => by
    rw [← bind_pure (raiseIf _ _)]
    exact firstFault_raiseIf_bool Iff.rfl rfl

/-- The frame raises the first of all the spec's conditions: construction checks, operands, body, region. Between the
body and the region no site adds one (rule R146). -/
theorem frame_firstFault {p : Params} (valid : p.Valid) {i : Instr} (compute : i.op.isCompute = true) {s : State}
    (legal : CfgLegal s) : FirstFault (faultList p i s) (faultOf (frame p i s (body i s))) := by
  rw [faultList, List.append_assoc _ (unsetFaults i s), List.append_assoc]
  refine firstFault_bind (constructionChecks_firstFault p i s) fun _ passed => ?_
  obtain ⟨h1, h2⟩ := legal_of_cfgLegal legal (constructionChecks_eq_ok passed).1
  refine firstFault_bind (body_firstFault valid compute h1 h2) fun out answer => ?_
  refine firstFault_ok_bind (a := ()) (by rw [sites_fit valid h1 h2 answer]; rfl) ?_
  rw [← List.append_nil (regionFaults p i s)]
  exact firstFault_bind (l' := []) (regionChecks_firstFault p i s) fun _ _ => rfl

/-- A command that completed under a legal CFG did all of step 9. -/
theorem Commits.completed {p : Params} (valid : p.Valid) {i : Instr} {s : State} {out : BodyOut}
    (h : Commits p i s out) (legal : CfgLegal s) :
    Completed p i s out.results out.values (commit (s.env p) i s out) :=
  commit_completed ((h.ready legal).layoutFits valid)

/-- The first condition of `faultList` that holds is the fault taken; if none holds the command completes. -/
theorem firstFault_decides (c : Config) {i : Instr} (compute : i.op.isCompute = true) {s : State}
    (running : s.abort = false) (legal : CfgLegal s) {r : Option FaultCode} :
    FirstFault (faultList c.params i s) r → exec i s = .next (runs Config.own i s) ∧
      match r with
      | some code => runs c.params i s = { s with status := BitVec.ofNat 32 (256 + code.code), fcmd := encode i }
      | none => ∃ results values, Completed c.params i s results values (runs c.params i s) := by
  refine fun first => ⟨exec_runs compute s, ?_⟩
  have answer := first.unique (frame_firstFault c.valid compute legal)
  rcases runs_cases c.params compute s with ⟨aborted, -⟩ | ⟨out, commits, e⟩ | ⟨-, code, fault, e⟩
  · exact absurd (running.symm.trans aborted) nofun
  · have ok := frame_ok commits.configured commits.position commits.columns commits.body commits.sites commits.bounds
      commits.free
    rw [ok] at answer
    subst answer
    exact ⟨_, _, e ▸ Commits.completed c.valid commits legal⟩
  · rw [fault] at answer
    subst answer
    exact e

/-- A list of compute commands by their mnemonics. -/
theorem isCompute_of_mem {op : Op} {ops : List Op} (h : op ∈ ops) (all : ops.all Op.isCompute = true) :
    op.isCompute = true := List.all_eq_true.1 all op h

/-- Settles O13: the conditions are met in the frame's own order. -/
theorem firstFaultDecidesArithmetic : Obligations.FirstFaultDecidesArithmetic :=
  fun c _ _ _ hop _ running legal first => firstFault_decides c (isCompute_of_mem hop rfl) running legal first

/-- Settles O14: the conditions are met in the frame's own order. -/
theorem firstFaultDecidesTrig : Obligations.FirstFaultDecidesTrig :=
  fun c _ _ _ hop running legal first => firstFault_decides c (isCompute_of_mem hop rfl) running legal first

/-- Settles O15: the conditions are met in the frame's own order. -/
theorem firstFaultDecidesExpLog : Obligations.FirstFaultDecidesExpLog :=
  fun c _ _ _ hop running legal first => firstFault_decides c (isCompute_of_mem hop rfl) running legal first

/-! ### A completed LOG -/

theorem ne_add_one (w : Word) : w ≠ w + 1 := by bv_omega

/-- A command that counted completed: neither an ignored command nor a fault counts (rule R39). -/
theorem commits_of_ccnt {p : Params} {i : Instr} (compute : i.op.isCompute = true) {s : State}
    (counted : (runs p i s).ccnt = s.ccnt + 1) :
    ∃ out, Commits p i s out ∧ runs p i s = commit (s.env p) i s out := by
  rcases runs_cases p compute s with ⟨-, e⟩ | completed | ⟨-, c, -, e⟩
  · rw [e] at counted
    exact absurd counted (ne_add_one _)
  · exact completed
  · rw [e, raiseFault_ccnt] at counted
    exact absurd counted (ne_add_one _)

/-- Settles O45: a LOG that counted found the least `y` of its set, with `CLIP(y − 1).V < x`. -/
theorem logBracketsItsOperand : Obligations.LogBracketsItsOperand := by
  intro c b s v running legal opa counted e x
  obtain ⟨out, commits, eq⟩ := commits_of_ccnt (i := .log b) rfl counted
  obtain ⟨h1, h2⟩ := legal_of_cfgLegal legal commits.configured
  obtain ⟨x', y, ⟨v', opa', value, -⟩, -, found, strict, -, -, rfl⟩ := body_log_eq_ok_iff.1 commits.body
  obtain rfl : v = v' := Option.some.inj (opa.symm.trans opa')
  obtain rfl : x = x' := value
  have least := (logLeast_isLeast (e := e) c.valid h1 h2 x).1 y found
  refine ⟨y, ?_, strict, least.1.2.2, ?_, fun y' lower below => ?_⟩
  · exact (congrArg (fun t : State => t.res[0]) eq).trans (loadResults_get c.params.P [y] 0)
  · rw [← mag_eq_abs]
    exact (log_root_small least).1
  · by_contra reached
    have upper := least.1.2.1
    have := least.2 ⟨lower, by omega, not_lt.1 reached⟩
    omega

/-! ### The invariant -/

/-- A region lies in the grid: witness columns below NCOLS, constant columns below NCONST, rows below TRACE_ROWS
(20_memory.md rules R70, R71). -/
theorem region_inGrid {p : Params} (valid : p.Valid) {i : Instr} {s : State} (ready : FrameReady p i s) {a : CellAddr}
    (h : a ∈ region p i.op s.m1 s.m2 s.ncols s.row.toNat i.build) : inGrid p a = true := by
  have layout := ready.layoutFits valid
  have bounds := ready.bounds
  have columns := ncols_lt s
  obtain ⟨n, hn, rfl⟩ := List.mem_map.1 h
  rcases List.mem_append.1 hn with hw | hc
  · obtain ⟨cls, col, row⟩ := layout.witness n hw
    simp only [inGrid, cellOf, cls, Bool.and_eq_true, decide_eq_true_eq]
    omega
  · have hc : n ∈ constantNames p i.op s.m1 s.m2 := by
      split at hc
      · exact hc
      · cases hc
    obtain ⟨cls, col, row⟩ := layout.constant n hc
    simp only [inGrid, cellOf, cls, Bool.and_eq_true, decide_eq_true_eq]
    omega

theorem treqBits_lt (op : Op) (m2 : Nat) : (treqBits op m2).toNat < 16 := by
  unfold treqBits
  split_ifs <;> decide

theorem isElem_loadResults {p : Params} (pos : 0 < p.P) (results : List Int) (k : Fin 17) :
    IsElem p (loadResults p.P results)[k] := by
  intro v hv
  rw [loadResults_get] at hv
  obtain ⟨z, -, rfl⟩ := Option.map_eq_some_iff.1 hv
  exact toF_lt pos z

section Invariant

variable {p : Params} {s : State} (inv : s.Inv p)
include inv

theorem inv_raiseFault (w : Word) (c : FaultCode) : (s.raiseFault w c).Inv p :=
  { inv with
    status := .inr ⟨c, rfl⟩
    fcmd := fun running => absurd ((raiseFault_abort s w c).symm.trans running) nofun }

theorem inv_count : s.count.Inv p := { inv with }

theorem inv_configured {a b n : Nat} (ha : Legal a) (hb : Legal b) (hn : n < 256) : (s.configured a b n).Inv p :=
  { inv with cfg := .inr ⟨a, b, n, ha, hb, hn, rfl⟩ }

theorem inv_observe (v : HostValue) : (s.observe v).Inv p := { inv with }

theorem inv_afterLine (rest : List HostEvent) : (s.afterLine rest).Inv p := { inv with }

theorem inv_setRow (w : Word) : ({ s with row := w } : State).Inv p := { inv with }

theorem inv_setF {v : Nat} (elem : v < p.P) (r : FReg) : (s.setF r v).Inv p := by
  have stored : IsElem p (some v) := fun w hw => Option.some.inj hw ▸ elem
  obtain ⟨opa, opb, opc⟩ := inv.operands
  cases r with
  | opa => exact { inv with operands := ⟨stored, opb, opc⟩ }
  | opb => exact { inv with operands := ⟨opa, stored, opc⟩ }
  | opc => exact { inv with operands := ⟨opa, opb, stored⟩ }

/-- A commit keeps the invariant: its results are elements and fit RES0 … RES16, its cells lie in the grid, and its
record is one a command can append. -/
theorem inv_commit (valid : p.Valid) {i : Instr} (wf : i.wf = true) (compute : i.op.isCompute = true) {out : BodyOut}
    (commits : Commits p i s out) : (commit (s.env p) i s out).Inv p := by
  have ready := commits.ready inv.cfg
  have length := results_length_le wf commits.body
  have resn : (BitVec.ofNat 32 out.results.length).toNat = out.results.length := by
    rw [BitVec.toNat_ofNat]
    omega
  refine { inv with treq := ?_, resn := ?_, resAssigned := fun k => ?_, resElem := ?_, traceForm := ?_,
                    traceCells := fun e he => ?_, cslog := fun r hr => ?_ }
  · rw [commit_treq]
    split
    · rw [BitVec.toNat_or]
      exact Nat.or_lt_two_pow (n := 4) inv.treq (treqBits_lt i.op _)
    · exact inv.treq
  · rw [commit_resn, resn]
    exact length
  · rw [commit_resn, resn, commit_res, loadResults_get]
    simp
  · exact isElem_loadResults valid.pos out.results
  · exact wf_writeAll _ _ inv.traceForm
  · rcases mem_writeAll he with written | kept
    · refine ⟨region_inGrid valid ready (cellWrites_region written), ?_⟩
      obtain ⟨nv, -, rfl⟩ := List.mem_map.1 written
      exact toF_lt valid.pos nv.2
    · exact inv.traceCells e kept
  · rw [commit_cslog] at hr
    split at hr
    · next build =>
      rcases List.mem_append.1 hr with old | new
      · exact inv.cslog r old
      · obtain rfl := List.mem_singleton.1 new
        exact ⟨i, Encoding.decode_encode wf, compute, build, ready.m1, ready.m2, ncols_lt s, ready.columns,
          ready.bounds⟩
    · exact inv.cslog r hr

end Invariant

/-- The reset state, and with it a reset unit, meets the invariant at every choice of the parameters. -/
theorem inv_resetUnit (p : Params) (s : State) : s.resetUnit.Inv p where
  status := .inl rfl
  fcmd _ := rfl
  cfg := .inl rfl
  treq := show (0 : Nat) < 16 by decide
  resn := show (0 : Nat) ≤ 17 by decide
  resAssigned k := by
    rw [show s.resetUnit.res[k] = none from HostLines.reset_res k]
    exact ⟨nofun, fun below => absurd below (Nat.not_lt_zero _)⟩
  resElem k v hv := nomatch (HostLines.reset_res k).symm.trans hv
  operands := ⟨nofun, nofun, nofun⟩
  traceForm := rfl
  traceCells := nofun
  cslog := nofun

/-- Settles O33: the reset state is a reset unit. -/
theorem resetMeetsTheInvariant : Obligations.ResetMeetsTheInvariant := inv_resetUnit Config.own State.reset

/-- A command keeps the invariant, whichever way it ends. -/
theorem CommandEnds.keeps_inv {i : Instr} {s t : State} (ends : CommandEnds i s t) (wf : i.wf = true)
    (inv : s.Inv Config.own) : t.Inv Config.own := by
  cases ends with
  | ignored => exact inv
  | counted => exact inv_count inv
  | configured isConfig m1 m2 =>
    subst isConfig
    simp only [Instr.wf, Bool.and_eq_true, decide_eq_true_eq] at wf
    exact inv_configured inv m1 m2 wf.2
  | committed compute commits => exact inv_commit inv Config.own_valid wf compute commits
  | fault _ c => exact inv_raiseFault inv _ c

/-- Settles O32: each end of a host line keeps every clause; a CMD write runs a well-formed command or takes ILLEGAL. -/
theorem stepKeepsTheInvariant : Obligations.StepKeepsTheInvariant := by
  intro s t inv h
  have elem (value : Int) : toF Config.own.P value < Config.own.P := toF_lt Config.own_valid.pos value
  rcases step_eq_next h with rfl | ⟨line, rest, -, ends⟩
  · exact inv
  · have inv := inv_afterLine inv rest
    cases ends with
    | command performed =>
      rcases performWord_eq_next performed with ⟨i, -, wf, -, ends⟩ | rfl | ⟨-, rfl⟩
      · exact CommandEnds.keeps_inv ends wf inv
      · exact inv
      · exact inv_raiseFault inv _ .illegal
    | rowSet _ w => exact inv_setRow inv w
    | operandSet _ r value => exact inv_setF inv (elem value) r
    | observed _ v => exact inv_observe inv v
    | copied _ v r value => exact inv_setF (inv_observe inv v) (elem value) r
    | waited => exact inv
    | reset => exact inv_resetUnit _ _

/-! ### The build bit -/

theorem body_withBuild (b : Bool) (i : Instr) (s : State) : body (i.withBuild b) s = body i s := by
  cases i <;> rfl

/-- With B = 1 the region has the constant cells too (rule R143 step 8). -/
theorem region_true (p : Params) (op : Op) (m1 m2 nc start : Nat) : region p op m1 m2 nc start true
    = region p op m1 m2 nc start false ++ (constantNames p op m1 m2).map (cellOf p op m1 m2 nc start) := by
  simp [region]

theorem overlaps_append (t : List TraceEntry) (cells cells' : List CellAddr) :
    Trace.overlaps t (cells ++ cells') = (Trace.overlaps t cells || Trace.overlaps t cells') := List.any_append

/-- The constant cells of a command are those of its constants. -/
theorem constantCells_eq (p : Params) (i : Instr) (s : State) :
    (constantNames p i.op s.m1 s.m2).map (cellOf p i.op s.m1 s.m2 s.ncols s.row.toNat)
      = (constantsOf (s.env p) i.op).map fun nv => nameCell p i s nv.1 := by
  simp only [constantNames, constantsOf, List.map_map]
  rfl

/-- Some constant cell is assigned. -/
theorem constants_overlap_iff {p : Params} {i : Instr} {s : State} :
    Trace.overlaps s.trace ((constantNames p i.op s.m1 s.m2).map (cellOf p i.op s.m1 s.m2 s.ncols s.row.toNat)) = true
      ↔ ∃ nv ∈ constantsOf (s.env p) i.op, Trace.read s.trace (nameCell p i s nv.1) ≠ none := by
  rw [constantCells_eq, overlaps_iff]
  simp [Option.ne_none_iff_exists']

section Build

variable {p : Params} {i : Instr} (compute : i.op.isCompute = true) {s : State}
include compute

theorem runs_withBuild (b : Bool) :
    runs p (i.withBuild b) s = perform p (i.withBuild b) s (body i s) := by
  rw [runs_eq p (by rwa [withBuild_op]), body_withBuild]

/-- What both forms share, and the region that B enlarges: the frame, step by step. -/
theorem frame_withBuild (b : Bool) : frame p (i.withBuild b) s (body i s) =
    (constructionChecks (s.env p) i s >>= fun _ => body i s (s.env p) >>= fun out =>
      raiseIf (!(slots p i.op s.m1 s.m2).all (Slot.fits out.values)) .range >>= fun _ =>
      raiseIf (decide (p.traceRows < s.row.toNat + rows p i.op s.m1 s.m2 s.ncols)) .traceBounds >>= fun _ =>
      raiseIf (Trace.overlaps s.trace (region p i.op s.m1 s.m2 s.ncols s.row.toNat b)) .traceOverlap >>= fun _ =>
      Except.ok (commit (s.env p) (i.withBuild b) s out)) := by
  simp only [frame, constructionChecks, regionChecks, withBuild_op, withBuild_badLimbPosition,
    withBuild_build compute, bind_assoc, except_pure]
  rfl

/-- Every fault of the form with B = 0 is the fault of the form with B = 1. -/
theorem frame_withBuild_error {c : FaultCode} (h : frame p (i.withBuild false) s (body i s) = .error c) :
    frame p (i.withBuild true) s (body i s) = .error c := by
  rw [frame_withBuild compute] at h ⊢
  cases hc : constructionChecks (s.env p) i s with
  | error d => rw [hc] at h; exact h
  | ok _ =>
    rw [hc, except_bind_ok] at h
    rw [except_bind_ok]
    cases hb : body i s (s.env p) with
    | error d => rw [hb] at h; exact h
    | ok out =>
      rw [hb, except_bind_ok] at h
      rw [except_bind_ok]
      cases hs : (slots p i.op s.m1 s.m2).all (Slot.fits out.values) with
      | false => rw [hs] at h; exact h
      | true =>
        rw [hs] at h
        cases hr : decide (p.traceRows < s.row.toNat + rows p i.op s.m1 s.m2 s.ncols) with
        | true => rw [hr] at h; exact h
        | false =>
          rw [hr] at h
          cases ho : Trace.overlaps s.trace (region p i.op s.m1 s.m2 s.ncols s.row.toNat false) with
          | false => rw [ho] at h; cases h
          | true =>
            rw [ho] at h
            rw [region_true, overlaps_append, ho]
            exact h

/-- Where the form with B = 0 completes, the form with B = 1 meets the same checks but for the constant cells. -/
theorem Commits.frame_withBuild_true {out : BodyOut} (commits : Commits p (i.withBuild false) s out) :
    frame p (i.withBuild true) s (body i s) =
      raiseIf (Trace.overlaps s.trace ((constantNames p i.op s.m1 s.m2).map
        (cellOf p i.op s.m1 s.m2 s.ncols s.row.toNat))) .traceOverlap >>= fun _ =>
      Except.ok (commit (s.env p) (i.withBuild true) s out) := by
  have position := commits.position
  have columns := commits.columns
  have bounds := commits.bounds
  have free := commits.free
  have answer := commits.body
  have sites := commits.sites
  rw [withBuild_badLimbPosition] at position
  rw [withBuild_op] at columns bounds sites
  rw [withBuild_op, withBuild_build compute] at free
  rw [body_withBuild] at answer
  have construction := constructionChecks_ok (e := s.env p) (i := i) commits.configured position columns
  rw [frame_withBuild compute, construction, except_bind_ok, answer, except_bind_ok, sites, region_true,
    overlaps_append, free, Bool.false_or, decide_eq_false (not_lt.2 bounds)]
  rfl

/-- A command that is not aborted afterwards completed: a fault sets ABORT. -/
theorem commits_of_running (running : s.abort = false) (still : (runs p i s).abort = false) :
    ∃ out, Commits p i s out ∧ runs p i s = commit (s.env p) i s out := by
  rcases runs_cases p compute s with ⟨aborted, -⟩ | completed | ⟨-, c, -, e⟩
  · exact absurd (running.symm.trans aborted) nofun
  · exact completed
  · rw [e, raiseFault_abort] at still
    cases still

end Build

theorem code_injective {c d : FaultCode} (h : c.code = d.code) : c = d := by
  cases c <;> cases d <;> first | rfl | cases h

/-- STATUS after a fault tells its code. -/
theorem statusOf_injective {c d : FaultCode} (h : statusOf c = statusOf d) : c = d := by
  have numbers := congrArg BitVec.toNat h
  rw [statusOf_toNat, statusOf_toNat] at numbers
  exact code_injective (by omega)

theorem writeAll_append (t ws ws' : List TraceEntry) :
    Trace.writeAll t (ws ++ ws') = Trace.writeAll (Trace.writeAll t ws) ws' := by
  induction ws generalizing t with
  | nil => rfl
  | cons e rest ih => exact ih _

/-- The commit with B = 1 writes what the commit with B = 0 writes, and then the constants (rule R75). -/
theorem commit_withBuild_trace {p : Params} {i : Instr} (compute : i.op.isCompute = true) (s : State) (out : BodyOut) :
    (commit (s.env p) (i.withBuild true) s out).trace =
      Trace.writeAll (commit (s.env p) (i.withBuild false) s out).trace
        ((constantsOf (s.env p) i.op).map fun nv => (nameCell p i s nv.1, toF p.P nv.2)) := by
  rw [commit_trace, commit_trace, ← writeAll_append]
  simp only [cellWrites, withBuild_op, withBuild_build compute, if_true, Bool.false_eq_true, if_false,
    List.append_nil, List.map_append]
  rfl

/-- The constant cells of a command are different cells (rule R71). -/
theorem constantCells_nodup {p : Params} {i : Instr} (compute : i.op.isCompute = true) {s : State}
    (layout : LayoutFits p i.op s.m1 s.m2 s.ncols) :
    ((constantsOf (s.env p) i.op).map fun nv => nameCell p i s nv.1).Nodup := by
  have nodup := stored_nodup (i := i.withBuild true) [] (by rwa [withBuild_op])
  simp only [storedNames, withBuild_build compute, if_true, List.map_append, nameCell, withBuild_op] at nodup
  exact (List.nodup_append.1 nodup).2.1

/-- Settles O55: both forms meet the same checks in the same order, but for the constant cells in the last one, and a
commit with B = 1 adds the constants, the record and the bits. -/
theorem buildBitOnlyAdds : Obligations.BuildBitOnlyAdds := by
  intro c i s compute running legal plain built consts
  have plain_eq : plain = perform c.params (i.withBuild false) s (body i s) := runs_withBuild compute false
  have built_eq : built = perform c.params (i.withBuild true) s (body i s) := runs_withBuild compute true
  have compute' (b : Bool) : (i.withBuild b).op.isCompute = true := by rwa [withBuild_op]
  refine ⟨fun code fault => ?_, fun still taken => ?_, fun still free => ?_⟩
  · have plain_fault : plain = s.raiseFault (encode (i.withBuild false)) code := fault
    cases hf : frame c.params (i.withBuild false) s (body i s) with
    | ok t =>
      obtain ⟨-, -, -, -, -, out, -, -, rfl⟩ := frame_eq_ok hf
      rw [plain_eq, perform_of_ok running hf] at plain_fault
      have aborted := congrArg State.abort plain_fault
      rw [raiseFault_abort, abort_of_status (commit_status _ _ s _), running] at aborted
      cases aborted
    | error d =>
      rw [plain_eq, perform_of_error running hf] at plain_fault
      obtain rfl : d = code := statusOf_injective (congrArg (fun t : State => t.status) plain_fault)
      rw [built_eq, perform_of_error running (frame_withBuild_error compute hf)]
      rfl
  · obtain ⟨out, commits, -⟩ := commits_of_running (compute' false) running still
    have fault := Commits.frame_withBuild_true compute commits
    rw [constants_overlap_iff.2 taken] at fault
    rw [built_eq, perform_of_error running fault]
    rfl
  · obtain ⟨out, commits, plain_commit⟩ := commits_of_running (compute' false) running still
    have untaken : Trace.overlaps s.trace ((constantNames c.params i.op s.m1 s.m2).map
        (cellOf c.params i.op s.m1 s.m2 s.ncols s.row.toNat)) = false := by
      rw [← Bool.not_eq_true, constants_overlap_iff]
      rintro ⟨nv, hnv, assigned⟩
      exact assigned (free nv hnv)
    have ok := Commits.frame_withBuild_true compute commits
    rw [untaken] at ok
    have built_commit : built = commit (s.env c.params) (i.withBuild true) s out :=
      built_eq.trans (perform_of_ok running ok)
    have trace : built.trace = Trace.writeAll plain.trace (consts.map fun nv =>
        (nameCell c.params i s nv.1, toF c.params.P nv.2)) := by
      rw [built_commit, show plain = _ from plain_commit]
      exact commit_withBuild_trace compute s out
    refine ⟨?_, fun nv hnv => ?_, fun a other => ?_⟩
    · rw [built_commit, show plain = _ from plain_commit]
      simp only [commit, withBuild_build compute, withBuild_op]
      rfl
    · have layout := (commits.ready legal).layoutFits c.valid
      rw [withBuild_op] at layout
      rw [trace]
      refine read_writeAll_mem _ _ ?_ (List.mem_map.2 ⟨nv, hnv, rfl⟩)
      rw [List.map_map]
      exact constantCells_nodup compute layout
    · rw [trace]
      refine read_writeAll_other _ _ fun written => ?_
      obtain ⟨_, he, rfl⟩ := List.mem_map.1 written
      obtain ⟨nv, hnv, rfl⟩ := List.mem_map.1 he
      exact other nv hnv rfl

end Sys2Proof.Lifecycle
end

section
/-! PROOFS. Every command completes with the results and the witness its rule states (40_control.md rule R143): the
values of the model in closed form, and uniqueness of the quotients and roots that the rules describe by conditions. -/

namespace Sys2Proof.Completion

open Sys2Proof.Machine Sys2Proof.Steps Sys2Proof.Bounds Sys2Proof.Answers Sys2Proof.FaultOrder

/-! ### Closed forms and uniqueness -/

theorem flag_decide (cond : Prop) [Decidable cond] : flag (decide cond) = if cond then 1 else 0 := by
  simp [flag]

theorem limb_eq (v : Int) (k : Nat) : (limb v k : Int) = |v| / 2 ^ (16 * k) % 2 ^ 16 := by
  simp [limb]

theorem limb_eq_toNat {v : Int} (nonneg : 0 ≤ v) (k : Nat) : limb v k = (v / 2 ^ (16 * k) % 2 ^ 16).toNat := by
  rw [← Int.toNat_natCast (limb v k), limb_eq, abs_of_nonneg nonneg]

/-- The division that rule R190's identity and bounds describe is `RDM`. -/
theorem rdm_eq {x y q r : Int} (y_pos : 0 < y) (r_nonneg : 0 ≤ r) (r_lt : r < y)
    (identity : 2 * x + y - y % 2 = 2 * q * y + 2 * r) : rdm x y = ⟨q, r, y % 2⟩ := by
  have parity := RoundingDivision.rdm_p x y
  obtain ⟨spec, -, -, -, -⟩ := rdm_spec x y_pos
  have quotient : (rdm x y).q = q := by
    have := Int.emod_two_eq y
    refine rnd_unique y_pos ?_ ?_ <;> rw [← mul_assoc] <;> omega
  rw [quotient, parity, ← mul_assoc] at spec
  have remainder : (rdm x y).r = r := by omega
  calc rdm x y = ⟨(rdm x y).q, (rdm x y).r, (rdm x y).p⟩ := rfl
    _ = ⟨q, r, y % 2⟩ := by rw [quotient, remainder, parity]

theorem half_eq_sub_parity (y : Int) : half y = (y - y % 2) / 2 := by
  rw [half_eq]
  omega

/-- A floor root is unique. -/
theorem floorRoot_unique {N f g : Int} (hf : 0 ≤ f) (hg : 0 ≤ g) (f_lower : f * f ≤ N) (f_upper : N < (f + 1) * (f + 1))
    (g_lower : g * g ≤ N) (g_upper : N < (g + 1) * (g + 1)) : f = g := by
  have below : f < g + 1 := lt_of_mul_self_lt_mul_self₀ (by omega) (f_lower.trans_lt g_upper)
  have above : g < f + 1 := lt_of_mul_self_lt_mul_self₀ (by omega) (g_lower.trans_lt f_upper)
  omega

/-- `SQ` rounds up when `N` lies above the middle of its bracket (rule R220). -/
theorem sq_r_eq (m2 : Nat) (x : Int) :
    (sq m2 x).r = if x * delta m2 - (sq m2 x).f * (sq m2 x).f > (sq m2 x).f then 1 else 0 := rfl

/-- The floor root that a bracket describes is the `f` of `SQ` (rule R220). -/
theorem sq_f_eq {m2 : Nat} {x f : Int} (x_nonneg : 0 ≤ x) (f_nonneg : 0 ≤ f) (lower : f * f ≤ x * delta m2)
    (upper : x * delta m2 < (f + 1) * (f + 1)) : (sq m2 x).f = f := by
  obtain ⟨lower', upper'⟩ := SquareRoot.sq_floor m2 x_nonneg
  exact floorRoot_unique (SquareRoot.sq_f_nonneg m2 x) f_nonneg lower' upper' lower upper

/-- Floor division in its two signs is unique. -/
theorem divF_eq {X y q z : Int} (identity : X = q * y + z) (pos : 0 < y → 0 ≤ z ∧ z < y) (neg : y < 0 → y < z ∧ z ≤ 0)
    (nonzero : y ≠ 0) : divF X y = q := by
  have spec := divF_modF X y
  have close : |modF X y - z| < |y| := by
    rcases lt_or_gt_of_ne nonzero with y_neg | y_pos
    · have := modF_of_neg X y_neg
      have := neg y_neg
      rw [abs_of_neg y_neg, abs_lt]
      omega
    · have := modF_of_pos X y_pos
      have := pos y_pos
      rw [abs_of_pos y_pos, abs_lt]
      omega
  have multiple : modF X y - z = y * (q - divF X y) := by linarith
  have zero : modF X y - z = 0 := Int.eq_zero_of_abs_lt_dvd ((abs_dvd y _).2 ⟨_, multiple⟩) close
  rw [zero, eq_comm, mul_eq_zero] at multiple
  have := multiple.resolve_left nonzero
  omega

theorem rm_z_eq_modF (x y xs : Int) : (rm x y xs).z = modF (x * xs) y := by
  simp only [rm, modF]
  ring

/-! ### RANGE16, DECOMP and TLUT -/

theorem rangeFlag_eq (bank : LookupBank) (v : Nat) : rangeFlag bank v = if v ≤ 65535 then 1 else 0 := by
  rw [rangeFlag, LookupBank.hasRange_eq, flag_decide]
  exact if_congr Nat.lt_succ_iff rfl rfl

/-- Settles O18: the flag is membership of RANGE_TABLE. -/
theorem range16Completes : Obligations.Range16Completes := by
  intro c b s v ready opa flag
  have completed := completed_of_body c.valid rfl ready (body_range16_eq_ok_iff.2 ⟨v, opa, rfl⟩)
  rw [rangeFlag_eq] at completed
  exact ⟨rfl, completed⟩

/-- Settles O19: DEC answers within its budget, and its limbs are the digits of the magnitude. -/
theorem decompCompletes : Obligations.DecompCompletes := by
  intro c b n u s v x ready opa value _ _ budget unsigned sign ell
  subst value
  have small : mag (sval c.params.P v) < pow2 (16 * n) := by rwa [mag_eq_abs, pow2_eq]
  have completed := completed_of_body c.valid rfl ready (body_decomp_eq_ok_iff.2 ⟨v, opa, small, unsigned, rfl⟩)
  have digits : ∀ k, (limb (sval c.params.P v) k : Int) = ell k := limb_eq _
  simp only [limbList, decompValues, digits] at completed
  exact ⟨rfl, completed⟩

/-- Settles O26: an index below 65536 is looked up; the position check is part of a ready frame. -/
theorem tlutCompletes : Obligations.TlutCompletes := by
  intro c b j s k ready opa small
  have position : j ≤ s.m2 := by simpa [badLimbPosition] using ready.position
  exact ⟨position, rfl, completed_of_body c.valid rfl ready (body_tlut_eq_ok_iff.2 ⟨k, opa, small, rfl⟩)⟩

/-! ### RDIV, DIVP and REM -/

/-- Settles O20: the identity and the bounds determine RDM, and dividing does not enlarge a magnitude. -/
theorem rdivCompletes : Obligations.RdivCompletes := by
  intro c b s x y q r ready hx hy y_pos r_nonneg r_lt identity
  have division := rdm_eq y_pos r_nonneg r_lt identity
  have small : mag (rdm x y).q < bound s.m1 s.m2 := (mag_rnd_le x y_pos).trans_lt (HoldsFixed.small hx)
  have completed := completed_of_body c.valid rfl ready (body_rdiv_eq_ok_iff.2 ⟨x, y, hx, hy, y_pos, small, rfl⟩)
  simp only [divisionValues, division, half_eq_sub_parity] at completed
  exact ⟨rfl, completed⟩

/-- Settles O21: as RDIV on the dividend `x·δ`. -/
theorem divpCompletes : Obligations.DivpCompletes := by
  intro c b s x y z r ready hx hy y_pos r_nonneg r_lt identity z_lt
  have division := rdm_eq y_pos r_nonneg r_lt identity
  have small : mag (rdm (x * delta s.m2) y).q < bound s.m1 s.m2 := by
    rw [division, mag_eq_abs]
    exact z_lt
  have completed := completed_of_body c.valid rfl ready (body_divp_eq_ok_iff.2 ⟨x, y, hx, hy, y_pos, small, rfl⟩)
  simp only [divisionValues, division, half_eq_sub_parity] at completed
  exact ⟨rfl, completed⟩

/-- Settles O25: the identity and the bounds determine the floor quotient for either sign of `y`. -/
theorem remCompletes : Obligations.RemCompletes := by
  intro c b s x y xs q z ready hx hy hxs nonzero xs_pos identity pos neg
  have quotient : divF (x * xs) y = q := divF_eq identity pos neg nonzero
  have remainder : x * xs - q * y = z := by linarith
  have completed := completed_of_body c.valid rfl ready
    (body_rem_eq_ok_iff.2 ⟨x, y, xs, hx, hy, hxs, nonzero, xs_pos, rfl⟩)
  simp only [remValues, rm, quotient, remainder, mag_eq_abs] at completed
  exact ⟨rfl, completed⟩

/-! ### SQRT and SQRTF -/

/-- Settles O22: the bracket determines the floor root. -/
theorem sqrtCompletes : Obligations.SqrtCompletes := by
  intro c b s x f ready hx x_nonneg f_nonneg lower upper N r
  have root := sq_f_eq x_nonneg f_nonneg lower upper
  have flag : (sq s.m2 x).r = r := by
    rw [sq_r_eq, root]
  have completed := completed_of_body c.valid rfl ready (body_sqrt_eq_ok_iff.2 ⟨x, hx, x_nonneg, rfl⟩)
  simp only [sqrtValues, roundingSide, SquareRoot.sq_y, SquareRoot.sq_N, root, flag] at completed
  exact ⟨rfl, completed⟩

/-- Settles O23: the bracket determines the floor root. -/
theorem sqrtfCompletes : Obligations.SqrtfCompletes := by
  intro c b s x y ready hx x_nonneg y_nonneg lower upper
  have root := sq_f_eq x_nonneg y_nonneg lower upper
  have completed := completed_of_body c.valid rfl ready (body_sqrtf_eq_ok_iff.2 ⟨x, hx, x_nonneg, rfl⟩)
  simp only [sqrtfValues, SquareRoot.sq_N, root] at completed
  exact ⟨rfl, completed⟩

/-! ### ATAN -/

/-- A rounding division by a positive divisor, field by field. -/
theorem rdm_closed (n : Int) {d : Int} (hd : 0 < d) :
    (rdm n d).q = (2 * n + d) / (2 * d) ∧ (rdm n d).r = n + d / 2 - (2 * n + d) / (2 * d) * d
      ∧ (rdm n d).p = d % 2 := by
  have quotient : (rdm n d).q = (2 * n + d) / (2 * d) := rnd_eq n hd
  exact ⟨quotient, by rw [RoundingDivision.rdm_r_eq, quotient], RoundingDivision.rdm_p n d⟩

/-- Stage 2 in closed form, for a `gt1` that tells `a > δ` (rule R252). -/
theorem atanStage2_closed {m2 : Nat} {c : AtanStage1} (positive : c.gt1 = 1 → 0 < c.a) :
    atanStage2 m2 c =
      let t := if c.gt1 = 1 then (2 * delta m2 ^ 2 + c.a) / (2 * c.a) else c.a
      let r1 := if c.gt1 = 1 then delta m2 ^ 2 + c.a / 2 - t * c.a else 0
      ⟨t, r1, if c.gt1 = 1 then c.a % 2 else 0, if c.gt1 = 1 then c.a / 2 else 0,
        if c.gt1 = 1 then c.a - r1 - 1 else 0⟩ := by
  by_cases set : c.gt1 = 1
  · obtain ⟨q, r, p⟩ := rdm_closed (delta m2 ^ 2) (positive set)
    simp only [atanStage2, set, if_true, q, r, p, half_eq]
  · simp only [atanStage2, set, if_false]

/-- Stage 4 in closed form, for a positive divisor (rule R254). -/
theorem atanStage4_closed {c : AtanStage3} (positive : 0 < c.den) (t : Int) :
    atanStage4 c t =
      let u := (2 * c.num + c.den) / (2 * c.den)
      let r2 := c.num + c.den / 2 - u * c.den
      ⟨u, r2, c.den % 2, c.den / 2, c.den - r2 - 1, if c.gt2 = 1 then u else t⟩ := by
  obtain ⟨q, r, p⟩ := rdm_closed c.num positive
  simp only [atanStage4, q, r, p, half_eq]

/-- Stage 5 in closed form (rule R255). -/
theorem atanStage5_closed (m2 : Nat) (v : Int) :
    atanStage5 m2 v =
      let n5 := 15 * v * delta m2 ^ 4 - 5 * v ^ 3 * delta m2 ^ 2 + 3 * v ^ 5
      let d5 := 15 * delta m2 ^ 4
      let pt := (2 * n5 + d5) / (2 * d5)
      let r5 := n5 + d5 / 2 - pt * d5
      ⟨pt, r5, d5 - r5 - 1⟩ := by
  obtain ⟨q, r, -⟩ := rdm_closed (taylorNumerator m2 v) (fifteenDelta4_pos m2)
  simp only [atanStage5, q, r]
  rfl

/-- Settles O24: each stage in closed form, its divisors positive, and the result in range. -/
theorem atanCompletes : Obligations.AtanCompletes := by
  intro c b s x ready hx δ K sign a gt1 t gt2 num den u v n5 d5 pt r1 r2 r5 w w2
  have small : mag (atanRun (s.env c.params) x).s6.res < bound s.m1 s.m2 := by
    rw [mag_eq_abs]
    exact abs_atanRun_res_lt (e := s.env c.params) c.valid ready.m1 ready.m2 x
  have completed := completed_of_body c.valid rfl ready (body_atan_eq_ok_iff.2 ⟨x, hx, small, rfl⟩)
  have den_pos := atanRun_den_pos (e := s.env c.params) c.valid ready.m1 ready.m2 x
  have stage1 : (atanRun (s.env c.params) x).s1 = ⟨sign, a, gt1, if gt1 = 1 then a - δ - 1 else δ - a⟩ := by
    show atanStage1 s.m2 x = _
    simp only [atanStage1, gt1Flag, flag_decide, mag_eq_abs]
    rfl
  have positive : gt1 = 1 → 0 < a := fun set => by
    have above : a > δ := by
      by_contra below
      rw [show gt1 = 0 from if_neg below] at set
      cases set
    exact (delta_pos s.m2).trans above
  have stage2 : (atanRun (s.env c.params) x).s2 = ⟨t, r1, if gt1 = 1 then a % 2 else 0, if gt1 = 1 then a / 2 else 0,
      if gt1 = 1 then a - r1 - 1 else 0⟩ := by
    show atanStage2 s.m2 (atanRun (s.env c.params) x).s1 = _
    rw [stage1]
    exact atanStage2_closed positive
  have stage3 : (atanRun (s.env c.params) x).s3 = ⟨gt2, if gt2 = 1 then t - K - 1 else K - t, num, den⟩ := by
    show atanStage3 s.m2 K (atanRun (s.env c.params) x).s2.t = _
    rw [stage2]
    simp only [atanStage3, gt2Flag, flag_decide]
    rfl
  have stage4 : (atanRun (s.env c.params) x).s4 = ⟨u, r2, den % 2, den / 2, den - r2 - 1, v⟩ := by
    show atanStage4 (atanRun (s.env c.params) x).s3 (atanRun (s.env c.params) x).s2.t = _
    rw [atanStage4_closed den_pos, stage3, stage2]
  have stage5 : (atanRun (s.env c.params) x).s5 = ⟨pt, r5, d5 - r5 - 1⟩ := by
    show atanStage5 s.m2 (atanRun (s.env c.params) x).s4.v = _
    rw [stage4]
    exact atanStage5_closed s.m2 v
  have stage6 : (atanRun (s.env c.params) x).s6 = ⟨w, w2, sign * w2⟩ := by
    show atanStage6 _ _ (atanRun (s.env c.params) x).s1 (atanRun (s.env c.params) x).s3.gt2
      (atanRun (s.env c.params) x).s5.pt = _
    rw [stage1, stage3, stage5]
    rfl
  simp only [atanValues, stage1, stage2, stage3, stage4, stage5, stage6] at completed
  exact ⟨rfl, completed⟩

/-! ### SIN, COS and TAN -/

section Angle

variable {e : Env} (valid : e.p.Valid) (h1 : Legal e.m1) (h2 : Legal e.m2)
include valid h1 h2

/-- The angle in closed form: sign and magnitude, or the reduction modulo TWO_PI_Y (rule R313). -/
theorem ang_closed (x : Int) : ang e x = ⟨if e.m1 = 1 ∧ x < 0 then -1 else 1,
    if e.m1 = 1 then |x| else x * e.p.xScaler e.m2 % e.p.twoPiY e.m2⟩ := by
  by_cases one : e.m1 = 1
  · simp [ang, one, sgn, mag_eq_abs]
  · have y_pos := ((valid.each _ _ h1 h2).twoPiY).1
    have reduced : (rm x (e.p.twoPiY e.m2) (e.p.xScaler e.m2)).z = x * e.p.xScaler e.m2 % e.p.twoPiY e.m2 := by
      rw [rm_z_eq_modF, modF_eq_fmod, Int.fmod_eq_emod_of_nonneg _ y_pos.le]
    simp [ang, one, reduced]

theorem ang_g_nonneg (x : Int) : 0 ≤ (ang e x).g := by
  have y_pos := ((valid.each _ _ h1 h2).twoPiY).1
  rw [ang_closed valid h1 h2]
  dsimp only
  split
  · exact abs_nonneg x
  · exact Int.emod_nonneg _ y_pos.ne'

omit valid h1 h2 in
/-- The table entries of a non-negative angle's limbs (rules R313, R314). -/
theorem entries_closed {c : Angle} (nonneg : 0 ≤ c.g) (j : Nat) :
    sinEntry e c j = (e.p.trigTab e.m2 j (c.g / 2 ^ (16 * j) % 2 ^ 16).toNat).1
      ∧ cosEntry e c j = (e.p.trigTab e.m2 j (c.g / 2 ^ (16 * j) % 2 ^ 16).toNat).2 := by
  rw [← limb_eq_toNat nonneg]
  exact ⟨rfl, rfl⟩

omit valid h1 h2 in
/-- The raw sums in terms of the entries (rule R314). -/
theorem scr_closed {c : Angle} {S C : Nat → Int} (sin : ∀ j, sinEntry e c j = S j) (cos : ∀ j, cosEntry e c j = C j) :
    (scr e c).sr = (if e.m2 = 1 then S 0 * C 1 + C 0 * S 1
        else C 2 * (S 0 * C 1 + C 0 * S 1) + S 2 * (C 0 * C 1 - S 0 * S 1))
      ∧ (scr e c).cr = (if e.m2 = 1 then C 0 * C 1 - S 0 * S 1
        else C 2 * (C 0 * C 1 - S 0 * S 1) - S 2 * (S 0 * C 1 + C 0 * S 1)) := by
  simp only [scr, sin, cos]
  split <;> exact ⟨rfl, rfl⟩

end Angle

/-- `D` is even, so its parity bit is 0 (rule R315). -/
theorem rescaleD_even {m2 : Nat} (h2 : Legal m2) : rescaleD m2 % 2 = 0 := by
  rcases h2 with rfl | rfl <;> decide

/-- The rescale that the identity and the bounds describe (rule R315). -/
theorem rescale_eq {m2 : Nat} (h2 : Legal m2) {n q r : Int} (r_nonneg : 0 ≤ r) (r_lt : r < delta m2 ^ m2)
    (identity : 2 * n + delta m2 ^ m2 = 2 * q * delta m2 ^ m2 + 2 * r) : rdm n (rescaleD m2) = ⟨q, r, 0⟩ := by
  have power : rescaleD m2 = delta m2 ^ m2 := rescaleD_eq_pow2 m2
  have even := rescaleD_even h2
  rw [← power] at r_lt identity
  rw [rdm_eq (q := q) (rescaleD_pos m2) r_nonneg r_lt (by rw [even]; linarith), even]

theorem env_m1 (s : State) (p : Params) : (s.env p).m1 = s.m1 := rfl
theorem env_m2 (s : State) (p : Params) : (s.env p).m2 = s.m2 := rfl
theorem env_p (s : State) (p : Params) : (s.env p).p = p := rfl

section AngleOf

variable {p : Params} (valid : p.Valid) {s : State} (h1 : Legal s.m1) (h2 : Legal s.m2) (x : Int)
include valid h1 h2

/-- The sign and the raw sums of a state's operand, in the words of the completion statements. -/
theorem angle_closed :
    let g := if s.m1 = 1 then |x| else x * p.xScaler s.m2 % p.twoPiY s.m2
    let S := fun j : Nat => (p.trigTab s.m2 j (g / 2 ^ (16 * j) % 2 ^ 16).toNat).1
    let C := fun j : Nat => (p.trigTab s.m2 j (g / 2 ^ (16 * j) % 2 ^ 16).toNat).2
    (ang (s.env p) x).s = (if s.m1 = 1 ∧ x < 0 then -1 else 1)
      ∧ (scr (s.env p) (ang (s.env p) x)).sr = (if s.m2 = 1 then S 0 * C 1 + C 0 * S 1
          else C 2 * (S 0 * C 1 + C 0 * S 1) + S 2 * (C 0 * C 1 - S 0 * S 1))
      ∧ (scr (s.env p) (ang (s.env p) x)).cr = (if s.m2 = 1 then C 0 * C 1 - S 0 * S 1
          else C 2 * (C 0 * C 1 - S 0 * S 1) - S 2 * (S 0 * C 1 + C 0 * S 1)) := by
  intro g S C
  have closed := ang_closed (e := s.env p) valid h1 h2 x
  have nonneg := ang_g_nonneg (e := s.env p) valid h1 h2 x
  have angle : (ang (s.env p) x).g = g := by rw [closed]; rfl
  have entries := entries_closed (e := s.env p) nonneg
  rw [angle] at entries
  exact ⟨by rw [closed]; rfl, scr_closed (fun j => (entries j).1) (fun j => (entries j).2)⟩

end AngleOf

/-- Settles O27: the raw sine sum, rescaled once, with the angle's sign. -/
theorem sinCompletes : Obligations.SinCompletes := by
  intro c b s x q r ready hx g sign S C sab cab Sr D r_nonneg r_lt identity
  obtain ⟨sign_eq, sum_eq, -⟩ := angle_closed c.valid ready.m1 ready.m2 x
  have division : rdm (scr (s.env c.params) (ang (s.env c.params) x)).sr (rescaleD s.m2) = ⟨q, r, 0⟩ := by
    rw [sum_eq]
    exact rescale_eq ready.m2 r_nonneg r_lt identity
  have small := abs_rescaled_lt ready.m1 ready.m2
    (abs_scr_le_budget (e := s.env c.params) c.valid ready.m1 ready.m2 (ang (s.env c.params) x)).1
  rw [← mag_eq_abs, ← mag_sign_mul (ang_sign (s.env c.params) x)] at small
  have completed := completed_of_body c.valid rfl ready (body_sin_eq_ok_iff.2 ⟨x, hx, small, rfl⟩)
  have power : rescaleD s.m2 = D := rescaleD_eq_pow2 s.m2
  rw [division, sign_eq, rescaleValues, power] at completed
  exact ⟨rfl, completed⟩

/-- Settles O28: the raw cosine sum, rescaled once. -/
theorem cosCompletes : Obligations.CosCompletes := by
  intro c b s x q r ready hx g S C sab cab Cr D r_nonneg r_lt identity
  obtain ⟨-, -, sum_eq⟩ := angle_closed c.valid ready.m1 ready.m2 x
  have division : rdm (scr (s.env c.params) (ang (s.env c.params) x)).cr (rescaleD s.m2) = ⟨q, r, 0⟩ := by
    rw [sum_eq]
    exact rescale_eq ready.m2 r_nonneg r_lt identity
  have completed := completed_of_body c.valid rfl ready (body_cos_eq_ok_iff.2 ⟨x, hx, rfl⟩)
  have power : rescaleD s.m2 = D := rescaleD_eq_pow2 s.m2
  rw [division, rescaleValues, power] at completed
  exact ⟨rfl, completed⟩

/-- Settles O29: the raw sums divided with the cosine's sign on the dividend. -/
theorem tanCompletes : Obligations.TanCompletes := by
  intro c b s x q r ready hx g sign S C sab cab Sr Cr σ nonzero r_nonneg r_lt identity q_lt
  obtain ⟨sign_eq, sin_eq, cos_eq⟩ := angle_closed c.valid ready.m1 ready.m2 x
  have cos_eq : (scr (s.env c.params) (ang (s.env c.params) x)).cr = Cr := cos_eq
  have division : tanDivision (s.env c.params) x = ⟨q, r, |Cr| % 2⟩ := by
    unfold tanDivision
    rw [sin_eq, cos_eq, mag_eq_abs]
    exact rdm_eq (abs_pos.2 nonzero) r_nonneg r_lt identity
  have small : mag ((ang (s.env c.params) x).s * (tanDivision (s.env c.params) x).q) < bound s.m1 s.m2 := by
    rw [mag_sign_mul (ang_sign _ _), division, mag_eq_abs]
    exact q_lt
  have completed := completed_of_body c.valid rfl ready
    (body_tan_eq_ok_iff.2 ⟨x, hx, by rwa [cos_eq], small, rfl⟩)
  simp only [tanValues, division, sign_eq, cos_eq, mag_eq_abs, half_eq_sub_parity] at completed
  exact ⟨rfl, completed⟩

/-! ### EXPR and LOG -/

/-- Settles O30: below, inside and above the window the clip has its closed form (rule R361). -/
theorem exprCompletes : Obligations.ExprCompletes := by
  intro c b s x ready hx lo hi V lt gt V_lt
  have window : lo ≤ hi := (c.valid.each _ _ ready.m1 ready.m2).window
  have closed : clip (s.env c.params) x = ⟨V, lt, gt, 1 - lt - gt⟩ := by
    by_cases below : x < lo
    · have notAbove : ¬ hi < x := by omega
      rw [clip_below window below]
      simp [V, lt, gt, below, notAbove]
      rfl
    · by_cases above : hi < x
      · rw [clip_above window above]
        simp [V, lt, gt, below, above]
        rfl
      · rw [clip_inside (not_lt.1 below) (not_lt.1 above)]
        simp [V, lt, gt, below, above]
        rfl
  have small : mag (clip (s.env c.params) x).V < bound s.m1 s.m2 := by
    rw [closed, mag_eq_abs]
    exact V_lt
  have completed := completed_of_body c.valid rfl ready (body_expr_eq_ok_iff.2 ⟨x, hx, small, rfl⟩)
  have inside : 1 - lt - gt = 1 ↔ lo ≤ x ∧ x ≤ hi := by
    simp only [lt, gt]
    split_ifs <;> omega
  have dlo : lt * (lo - x - 1) + (1 - lt) * (x - lo) = if x < lo then lo - x - 1 else x - lo := by
    simp only [lt]
    split_ifs <;> ring
  have dhi : gt * (x - hi - 1) + (1 - gt) * (hi - x) = if hi < x then x - hi - 1 else hi - x := by
    simp only [gt]
    split_ifs <;> ring
  have values : exprValues (s.env c.params) .own x =
      [own .x x, own .y V, own .lt lt, own .gt gt, own .inside (1 - lt - gt),
        own .dlo (if x < lo then lo - x - 1 else x - lo), own .dhi (if hi < x then x - hi - 1 else hi - x),
        own .e (if lo ≤ x ∧ x ≤ hi then c.params.expFn s.m1 s.m2 x else 0)]
      ++ if lo ≤ x ∧ x ≤ hi then (List.range (c.params.expWitCount s.m1 s.m2)).map fun i =>
          own (.ext i) (c.params.expWit s.m1 s.m2 x i)
        else [] := by
    simp only [exprValues, expCell, closed, inside]
    rw [← dlo, ← dhi]
    rfl
  rw [values, closed] at completed
  exact ⟨rfl, completed⟩

/-- Settles O31: the search finds the least element that the statement describes. -/
theorem logCompletes : Obligations.LogCompletes := by
  intro c b s x y ready hx e x_pos least strict e1_lt e0_lt
  have found : logLeast e x = some y := by
    obtain ⟨some_case, none_case⟩ := logLeast_isLeast (e := e) c.valid ready.m1 ready.m2 x
    cases search : logLeast e x with
    | none => exact absurd (none_case search) (Set.Nonempty.ne_empty ⟨y, least.1⟩)
    | some z => rw [(some_case z search).unique least]
  rw [← mag_eq_abs] at e1_lt e0_lt
  exact ⟨rfl, completed_of_body c.valid rfl ready
    (body_log_eq_ok_iff.2 ⟨x, y, hx, x_pos, found, strict, e1_lt, e0_lt, rfl⟩)⟩

/-! ### The symmetries of the angle (rule R325) -/

/-- With `m1 = 1` negation turns the sign of the angle and keeps its magnitude. -/
theorem ang_neg_s {e : Env} (one : e.m1 = 1) {x : Int} (hx : x ≠ 0) : (ang e (-x)).s = -(ang e x).s := by
  simp only [ang, one, if_true, Arctangent.sgn_neg hx]

theorem ang_neg_g {e : Env} (one : e.m1 = 1) (x : Int) : (ang e (-x)).g = (ang e x).g := by
  simp only [ang, one, if_true, mag_neg]

/-- The raw sums see the angle's magnitude only. -/
theorem scr_congr (e : Env) {c c' : Angle} (h : c.g = c'.g) : scr e c = scr e c' := by
  obtain ⟨s, g⟩ := c
  obtain ⟨s', g'⟩ := c'
  cases h
  rfl

theorem scr_ang_neg {e : Env} (one : e.m1 = 1) (x : Int) : scr e (ang e (-x)) = scr e (ang e x) :=
  scr_congr e (ang_neg_g one x)

theorem sinBody_eq_ok_iff {e : Env} {a : Nat} {out : BodyOut} : sinBody e a = .ok out ↔
    mag (sval e.p.P a) < e.bound
      ∧ mag ((ang e (sval e.p.P a)).s * (rdm (scr e (ang e (sval e.p.P a))).sr (rescaleD e.m2)).q) < e.bound
      ∧ out = ⟨[(ang e (sval e.p.P a)).s * (rdm (scr e (ang e (sval e.p.P a))).sr (rescaleD e.m2)).q],
          angleValues e (sval e.p.P a) ++ rescaleValues e.m2 (rdm (scr e (ang e (sval e.p.P a))).sr (rescaleD e.m2))
            ((ang e (sval e.p.P a)).s * (rdm (scr e (ang e (sval e.p.P a))).sr (rescaleD e.m2)).q)⟩ := by
  simp only [sinBody, bind_eq_ok_iff, fxop_eq_ok_iff, checkResult_eq_ok_iff, except_pure, Except.ok.injEq,
    exists_const, and_assoc, exists_eq_left', eq_comm (b := out)]

theorem cosBody_eq_ok_iff {e : Env} {a : Nat} {out : BodyOut} : cosBody e a = .ok out ↔
    mag (sval e.p.P a) < e.bound
      ∧ out = ⟨[(rdm (scr e (ang e (sval e.p.P a))).cr (rescaleD e.m2)).q],
          angleValues e (sval e.p.P a) ++ rescaleValues e.m2 (rdm (scr e (ang e (sval e.p.P a))).cr (rescaleD e.m2))
            (rdm (scr e (ang e (sval e.p.P a))).cr (rescaleD e.m2)).q⟩ := by
  simp only [cosBody, bind_eq_ok_iff, fxop_eq_ok_iff, except_pure, Except.ok.injEq, and_assoc, exists_eq_left',
    eq_comm (b := out)]

theorem tanBody_eq_ok_iff {e : Env} {a : Nat} {out : BodyOut} : tanBody e a = .ok out ↔
    mag (sval e.p.P a) < e.bound ∧ (scr e (ang e (sval e.p.P a))).cr ≠ 0
      ∧ mag ((ang e (sval e.p.P a)).s * (tanDivision e (sval e.p.P a)).q) < e.bound
      ∧ out = ⟨[(ang e (sval e.p.P a)).s * (tanDivision e (sval e.p.P a)).q],
          angleValues e (sval e.p.P a) ++ tanValues (sgn (scr e (ang e (sval e.p.P a))).cr)
            (mag (scr e (ang e (sval e.p.P a))).cr) (tanDivision e (sval e.p.P a))
            ((ang e (sval e.p.P a)).s * (tanDivision e (sval e.p.P a)).q)⟩ := by
  simp only [tanBody, bind_eq_ok_iff, raiseIf_eq_ok_iff, fxop_eq_ok_iff, checkResult_eq_ok_iff, except_pure,
    Except.ok.injEq, decide_eq_false_iff_not, exists_const, and_assoc, exists_eq_left', eq_comm (b := out)]
  rfl

/-- The remainder of the negated dividend: 0, or mirrored at the divisor. -/
theorem modF_neg {X y : Int} (y_pos : 0 < y) : modF (-X) y = if modF X y = 0 then 0 else y - modF X y := by
  rw [modF_eq_fmod, modF_eq_fmod, Int.fmod_eq_emod_of_nonneg _ y_pos.le, Int.fmod_eq_emod_of_nonneg _ y_pos.le,
    Int.neg_emod, Int.natAbs_of_nonneg y_pos.le]
  exact if_congr Int.dvd_iff_emod_eq_zero rfl rfl

/-- Settles O44: the raw sums depend on the magnitude of the angle, and the results take its sign. -/
theorem trigSymmetry : Obligations.TrigSymmetry := by
  intro c m2 nc a a' h2 negated
  have sums := scr_ang_neg (e := ⟨c.params, 1, m2, nc, {}⟩) rfl (sval c.params.P a)
  have turned := ang_neg_s (e := ⟨c.params, 1, m2, nc, {}⟩) rfl (x := sval c.params.P a)
  refine ⟨fun out nonzero h => ?_, fun out h => ?_, fun out nonzero h => ?_, fun x => ?_⟩
  · obtain ⟨small, result, rfl⟩ := sinBody_eq_ok_iff.1 h
    refine ⟨_, sinBody_eq_ok_iff.2 ⟨?_, ?_, rfl⟩, ?_⟩
    · simpa [negated] using small
    · simpa [negated, sums, turned nonzero] using result
    · simp [negated, sums, turned nonzero]
  · obtain ⟨small, rfl⟩ := cosBody_eq_ok_iff.1 h
    refine ⟨_, cosBody_eq_ok_iff.2 ⟨?_, rfl⟩, ?_⟩
    · simpa [negated] using small
    · simp [negated, sums]
  · obtain ⟨small, cosine, result, rfl⟩ := tanBody_eq_ok_iff.1 h
    refine ⟨_, tanBody_eq_ok_iff.2 ⟨?_, ?_, ?_, rfl⟩, ?_⟩
    · simpa [negated] using small
    · simpa [negated, sums] using cosine
    · simpa [negated, tanDivision, sums, turned nonzero] using result
    · simp [negated, tanDivision, sums, turned nonzero]
  · have y_pos := (c.valid.each 2 m2 (.inr rfl) h2).twoPiY.1
    have reduced (x : Int) : (ang ⟨c.params, 2, m2, nc, {}⟩ x).g
        = modF (x * c.params.xScaler m2) (c.params.twoPiY m2) := rm_z_eq_modF _ _ _
    rw [reduced, reduced, neg_mul, modF_neg y_pos]

end Sys2Proof.Completion
end

section
/-! PROOFS. What a completed building command wrote satisfies the constraints its CSLOG record registers (10_state.md
rule R46): the cells carry the witness, and the witness satisfies each gate over the integers, hence in F. -/

namespace Sys2Proof.Acceptance

open Sys2Proof.Machine Sys2Proof.Steps Sys2Proof.Bounds Sys2Proof.Answers Sys2Proof.FaultOrder

/-! ### Cells that carry a witness -/

/-- The assignment gives the names of a slot the value `v`: the cell its element, the limb cells its limbs (rules R75,
R161). -/
structure CarriesValue (P : Nat) (w : Assignment) (slot : Slot) (v : Int) : Prop where
  cell : slot.cell = true → w ⟨slot.key, .whole⟩ = (toF P v : Int)
  limbs : ∀ k, k < slot.limbs → w ⟨slot.key, .limb k⟩ = (limb v k : Int)

/-- The assignment gives the names of a slot their witness. -/
def Carries (P : Nat) (values : List (Key × Int)) (w : Assignment) (slot : Slot) : Prop :=
  ∀ v, valueOf values slot.key = some v → CarriesValue P w slot v

section Carried

variable {P : Nat} {values : List (Key × Int)} {w : Assignment} {g : Gadget} {name : Sym} {n : Nat} {v : Int}

theorem Carries.scalar (h : Carries P values w (scalar g name)) (value : valueOf values ⟨g, name⟩ = some v) :
    w.val g name = (toF P v : Int) := (h v value).cell rfl

theorem Carries.site (h : Carries P values w (scalarSite g name n)) (value : valueOf values ⟨g, name⟩ = some v) :
    w.val g name = (toF P v : Int) ∧ ∀ k, k < n → w.lim g name k = (limb v k : Int) :=
  ⟨(h v value).cell rfl, (h v value).limbs⟩

theorem Carries.signed (h : Carries P values w (signedSite g name n)) (value : valueOf values ⟨g, name⟩ = some v) :
    w.val g name = (toF P v : Int) ∧ ∀ k, k < n → w.lim g name k = (limb v k : Int) :=
  ⟨(h v value).cell rfl, (h v value).limbs⟩

theorem Carries.bare (h : Carries P values w (bareSite g name n)) (value : valueOf values ⟨g, name⟩ = some v) :
    ∀ k, k < n → w.lim g name k = (limb v k : Int) := (h v value).limbs

end Carried

/-- The Witness list of a completed command is what every agreeing assignment gives its names. -/
theorem carries_of_agrees {p : Params} (valid : p.Valid) {i : Instr} {s t : State} {results : List Int}
    {values : List (Key × Int)} (completed : Completed p i s results values t) {w : Assignment}
    (agree : agrees p t.trace i ⟨encode i, s.row, s.m1, s.m2, s.ncols⟩ w) :
    ∀ slot ∈ slots p i.op s.m1 s.m2, Carries p.P values w slot := by
  intro slot hslot v value
  have written : ∀ nv ∈ slot.cells values, w nv.1 = (toF p.P nv.2 : Int) := fun nv hnv => by
    have listed : nv ∈ witnessOf (s.env p) i.op values := List.mem_flatMap.2 ⟨slot, hslot, hnv⟩
    exact agree _ _ (completed.stored nv (List.mem_append_left _ listed)) (witnessOf_names listed)
  have cells : slot.cells values = (if slot.cell then [(⟨slot.key, .whole⟩, v)] else [])
      ++ (List.range slot.limbs).map fun k => (⟨slot.key, .limb k⟩, (limb v k : Int)) := by
    simp only [Slot.cells, value]
  refine ⟨fun cell => written (⟨slot.key, .whole⟩, v) (by simp [cells, cell]), fun k hk => ?_⟩
  have small : limb v k < p.P :=
    (limb_lt v k).trans ((by norm_num : 2 ^ 16 < 2 ^ 172).trans valid.large)
  have stored := written (⟨slot.key, .limb k⟩, (limb v k : Int)) (by simp [cells, hk])
  rwa [toF_of_elem small] at stored

/-- A command that builds and completes leaves a record whose constraints every agreeing assignment satisfies, if its
gates hold of every assignment that carries its witness. -/
theorem lastRecordHolds_of_gates {p : Params} (valid : p.Valid) {i : Instr} (compute : i.op.isCompute = true)
    (wf : i.wf = true) (build : i.build = true) {s : State} (ready : FrameReady p i s) {results : List Int}
    {values : List (Key × Int)} (completed : Completed p i s results values (runs p i s))
    (accepted : ∀ out, body i s (s.env p) = .ok out → ∀ w,
      (∀ slot ∈ slots p i.op s.m1 s.m2, Carries p.P out.values w slot) → gates p i s.m1 s.m2 w) :
    LastRecordHolds p i (runs p i s) := by
  obtain ⟨out, commits, -⟩ := Lifecycle.commits_of_ccnt compute completed.ccnt
  have completed := completed_of_body valid compute ready commits.body
  have decoded := Encoding.decode_encode wf
  have log := completed.cslog
  rw [if_pos build] at log
  refine ⟨⟨encode i, s.row, s.m1, s.m2, s.ncols⟩, by rw [log, List.getLast?_concat], decoded, fun w agree => ?_⟩
  simp only [registered, decoded]
  exact accepted out commits.body w (carries_of_agrees valid completed agree)

/-! ### Equality in F -/

theorem feq_iff {P : Nat} (pos : 0 < P) (a b : Int) : FEq P a b ↔ (a : ZMod P) = (b : ZMod P) := by
  rw [Decomposition.fEq_iff_modEq pos, ZMod.intCast_eq_intCast_iff]

section Field

variable {p : Params} (valid : p.Valid)
include valid

/-- An element stands for its integer in F. -/
theorem cast_toF (v : Int) : ((toF p.P v : Nat) : ZMod p.P) = v := by
  rw [← Int.cast_natCast, toF_cast valid.pos]
  exact ZMod.intCast_mod v p.P

theorem feq_toF (v : Int) : FEq p.P (toF p.P v : Int) v := by
  rw [feq_iff valid.pos, Int.cast_natCast, cast_toF valid]

theorem feq_toF_mul (a b : Int) : FEq p.P (toF p.P (a * b) : Int) (toF p.P a * toF p.P b) := by
  rw [feq_iff valid.pos]
  simp [cast_toF valid]

/-- An identity of integers, read on elements that stand for them. -/
theorem feq_of_eq {a b a' b' : Int} (identity : a' = b') (ha : (a : ZMod p.P) = a') (hb : (b : ZMod p.P) = b') :
    FEq p.P a b := by
  rw [feq_iff valid.pos, ha, hb, identity]

/-- The element of 0 or 1 is a bit. -/
theorem isBit_toF {v : Int} (bit : v = 0 ∨ v = 1) : IsBit p.P (toF p.P v : Int) := by
  rw [IsBit, feq_iff valid.pos]
  push_cast [cast_toF valid]
  rcases bit with rfl | rfl <;> simp

/-- The element of ±1 is a sign. -/
theorem isSign_toF {v : Int} (sign : v = 1 ∨ v = -1) : IsSign p.P (toF p.P v : Int) := by
  rw [IsSign, feq_iff valid.pos]
  push_cast [cast_toF valid]
  rcases sign with rfl | rfl <;> simp

/-- A selector's element is 1 only if the flag is. -/
theorem bit_of_feq {v : Int} (bit : v = 0 ∨ v = 1) (h : FEq p.P (toF p.P v : Int) 1) : v = 1 := by
  rcases bit with rfl | rfl
  · have := Fact.mk valid.prime
    rw [feq_iff valid.pos] at h
    push_cast [cast_toF valid] at h
    exact absurd h zero_ne_one
  · rfl

/-- The OPEN predicates read small integers as themselves. -/
theorem signedOf_of_small {v : Int} (small : mag v < 2 ^ 170) : signedOf p.P v = v := by
  have large : (2 : Int) ^ 172 < p.P := by exact_mod_cast valid.large
  exact sval_toF valid.odd (by norm_num at *; omega)

theorem signedOf_toF {v : Int} (small : mag v < 2 ^ 170) : signedOf p.P (toF p.P v : Int) = v := by
  rw [signedOf, toF_of_elem (toF_lt valid.pos v)]
  exact signedOf_of_small valid small

theorem inRange_limb (v : Int) (k : Nat) : InRange p.P (limb v k : Int) := by
  have lt := limb_lt v k
  have large := valid.large
  rw [InRange, toF_of_elem (by norm_num at *; omega)]
  omega

/-- The limb cells of an unsigned site decompose every expression of its value. -/
theorem decUnsigned_of_limbs {n : Nat} {l : Nat → Int} {e v : Int} (limbs : ∀ k, k < n → l k = (limb v k : Int))
    (holds : siteHolds n false v = true) (value : FEq p.P e v) : DecUnsigned p.P n l e := by
  simp only [siteHolds, Bool.and_eq_true, Bool.false_or, decide_eq_true_eq] at holds
  refine ⟨?_, fun k hk => limbs k hk ▸ inRange_limb valid v k⟩
  rw [Decomposition.limbSum_congr limbs, limbSum_limb v n holds.1, mag_of_nonneg holds.2]
  exact value

/-- The limb cells of a signed site decompose its value, with its sign. -/
theorem decSigned_of_limbs {n : Nat} {l : Nat → Int} {e v σ : Int} (limbs : ∀ k, k < n → l k = (limb v k : Int))
    (holds : siteHolds n true v = true) (sign : σ = 1 ∨ σ = -1) (recompose : σ * mag v = v) (value : FEq p.P e v) :
    DecSigned p.P n l (toF p.P σ : Int) e := by
  simp only [siteHolds, Bool.true_or, Bool.and_true, decide_eq_true_eq] at holds
  refine ⟨?_, isSign_toF valid sign, fun k hk => limbs k hk ▸ inRange_limb valid v k⟩
  rw [Decomposition.limbSum_congr limbs, limbSum_limb v n holds]
  rw [feq_iff valid.pos] at value ⊢
  push_cast [cast_toF valid]
  rw [value]
  exact_mod_cast congrArg (Int.cast : Int → ZMod p.P) recompose.symm

/-! ### RANGE16, DECOMP and TLUT -/

theorem trigGate_of_index {m2 j k : Nat} (small : k < 65536) :
    TrigGate p m2 j (toF p.P k : Int) (toF p.P (p.trigTab m2 j k).1 : Int) (toF p.P (p.trigTab m2 j k).2 : Int) :=
  ⟨k, small, feq_toF valid _, feq_toF valid _, feq_toF valid _⟩

theorem range16Gates_of_carries {bank : LookupBank} {v : Nat} {w : Assignment} (carries :
    ∀ slot ∈ [scalar .own .v, scalar .own .flag], Carries p.P [own .v v, own .flag (rangeFlag bank v)] w slot) :
    range16Gates p w := by
  have value : w.val .own .v = (toF p.P v : Int) := (carries _ (by simp)).scalar rfl
  have flag : w.val .own .flag = (toF p.P (rangeFlag bank v) : Int) := (carries _ (by simp)).scalar rfl
  have bit : rangeFlag bank v = 0 ∨ rangeFlag bank v = 1 := by
    rw [Completion.rangeFlag_eq]
    split <;> simp
  rw [range16Gates, flag, value]
  refine ⟨isBit_toF valid bit, fun selected => ?_⟩
  have set := bit_of_feq valid bit selected
  have small : v ≤ 65535 := by
    by_contra large
    rw [Completion.rangeFlag_eq, if_neg large] at set
    cases set
  have large := valid.large
  have elem : v < p.P := by norm_num at large; omega
  rw [InRange, toF_of_elem elem, toF_of_elem elem]
  omega

/-- DECOMP: the first `n ≤ 16` limb names carry the digits of the magnitude (rule R165). -/
theorem decompGates_of_carries {n : Nat} {u : Bool} (wide : n ≤ 16) {v : Int} (small : mag v < pow2 (16 * n))
    (unsigned : u = true → 0 ≤ v) {w : Assignment}
    (carries : ∀ slot ∈ decompSlots, Carries p.P (decompValues v n u) w slot) : decompGates p n u w := by
  have value : w.val .own .v = (toF p.P v : Int) := (carries _ (by simp [decompSlots])).scalar rfl
  have digits : ∀ k, k < n → w.val .own (.ell k) = (limb v k : Int) := fun k hk => by
    have listed : scalar .own (.ell k) ∈ decompSlots :=
      List.mem_append_right _ (List.mem_map.2 ⟨k, List.mem_range.2 (by omega), rfl⟩)
    have named : valueOf (decompValues v n u) ⟨.own, .ell k⟩ = some (limb v k : Int) := by
      rw [decompValues, valueOf_append_of_none]
      · exact valueOf_range_map (fun _ _ => Sym.ell.inj) .own (fun j => (limb v j : Int)) hk
      · cases u <;> rfl
    have elem : limb v k < p.P := (limb_lt v k).trans ((by norm_num : 2 ^ 16 < 2 ^ 172).trans valid.large)
    rw [(carries _ listed).scalar named, toF_of_elem elem]
  cases u with
  | true =>
    refine decUnsigned_of_limbs valid digits ?_ (value ▸ feq_toF valid v)
    simp [siteHolds, small, unsigned]
  | false =>
    have sign : w.val .own .s = (toF p.P (sgn v) : Int) := (carries _ (by simp [decompSlots])).scalar rfl
    have dec := decSigned_of_limbs valid digits (siteHolds_signed small) (sgn_eq v) (sgn_mul_mag v) (feq_toF valid v)
    rwa [← sign, ← value] at dec

theorem tlutGates_of_carries {m2 j k : Nat} (small : k < 65536) {w : Assignment} (carries :
    ∀ slot ∈ [scalar .own .k, scalar .own .tS, scalar .own .tC], Carries p.P
      [own .k k, own .tS (p.trigTab m2 j k).1, own .tC (p.trigTab m2 j k).2] w slot) : tlutGates p m2 j w := by
  have key : w.val .own .k = (toF p.P k : Int) := (carries _ (by simp)).scalar rfl
  have sine : w.val .own .tS = (toF p.P (p.trigTab m2 j k).1 : Int) := (carries _ (by simp)).scalar rfl
  have cosine : w.val .own .tC = (toF p.P (p.trigTab m2 j k).2 : Int) := (carries _ (by simp)).scalar rfl
  rw [tlutGates, key, sine, cosine]
  exact trigGate_of_index valid small

/-! ### RDIV and DIVP -/

/-- C-RD-1 to C-RD-4 for a dividend that the assignment gives as `n` (rules R192, R194). -/
theorem divisionGates_of_carries {op : Op} {quot : Sym} {m1 m2 : Nat} (named : quot = .q ∨ quot = .z)
    (fit : ∀ site ∈ [Sym.r, .gap, .h], Holds (p.limbs op site m1 m2) (bound m1 m2 - 1)) {x y n X : Int}
    (y_pos : 0 < y) (y_lt : y < bound m1 m2) {w : Assignment} (dividend : FEq p.P X n)
    (carries : ∀ slot ∈ divisionSlots p op quot m1 m2, Carries p.P (divisionValues quot x y (rdm n y)) w slot) :
    divisionGates p (fun name => p.limbs op name m1 m2) quot X w := by
  obtain ⟨r_holds, h_holds, gap_holds⟩ := division_sites (n := fun site => p.limbs op site m1 m2) fit n y_pos y_lt
  obtain ⟨spec, -, -, bit, parity⟩ := rdm_spec n y_pos
  simp only [divisionSlots, List.forall_mem_cons] at carries
  obtain ⟨-, cy, cq, cr, cp, ch, cgap, -⟩ := carries
  have y_eq : w.val .own .y = (toF p.P y : Int) := cy.scalar rfl
  have q_eq : w.val .own quot = (toF p.P (rdm n y).q : Int) := by
    rcases named with rfl | rfl <;> exact cq.scalar rfl
  obtain ⟨r_eq, r_limbs, p_eq, h_eq, h_limbs, gap_limbs⟩ :
      w.val .own .r = (toF p.P (rdm n y).r : Int)
      ∧ (∀ k, k < p.limbs op .r m1 m2 → w.lim .own .r k = (limb (rdm n y).r k : Int))
      ∧ w.val .own .p = (toF p.P (rdm n y).p : Int)
      ∧ w.val .own .h = (toF p.P (half y) : Int)
      ∧ (∀ k, k < p.limbs op .h m1 m2 → w.lim .own .h k = (limb (half y) k : Int))
      ∧ ∀ k, k < p.limbs op .gap m1 m2 → w.lim .own .gap k = (limb (y - (rdm n y).r - 1) k : Int) := by
    rcases named with rfl | rfl <;>
      exact ⟨(cr.site rfl).1, (cr.site rfl).2, cp.scalar rfl, (ch.site rfl).1, (ch.site rfl).2, cgap.bare rfl⟩
  rw [feq_iff valid.pos] at dividend
  simp only [divisionGates, y_eq, q_eq, r_eq, p_eq, h_eq]
  refine ⟨?_, decUnsigned_of_limbs valid r_limbs r_holds (feq_toF valid _),
    decUnsigned_of_limbs valid gap_limbs gap_holds ?_, isBit_toF valid bit, ?_,
    decUnsigned_of_limbs valid h_limbs h_holds (feq_toF valid _)⟩
  · exact feq_of_eq valid spec (by simp [cast_toF valid, dividend]) (by simp [cast_toF valid, mul_assoc])
  · simp [feq_iff valid.pos, cast_toF valid]
  · exact feq_of_eq valid parity (by simp [cast_toF valid]) (by simp [cast_toF valid])

/-! ### SQRT and SQRTF -/

/-- C-SQ-1 to C-SQ-5 and the decompositions (rule R222). -/
theorem sqrtGates_of_carries {m1 m2 : Nat} (h1 : Legal m1) {x : Int} (x_nonneg : 0 ≤ x) (x_lt : x < bound m1 m2)
    {w : Assignment} (carries : ∀ slot ∈ sqrtSlots (m1 + m2), Carries p.P (sqrtValues x (sq m2 x)) w slot) :
    sqrtGates p m1 m2 w := by
  obtain ⟨x_holds, a1_holds, a2_holds, a3_holds⟩ := sqrt_sites h1 x_nonneg x_lt
  simp only [sqrtSlots, List.forall_mem_cons] at carries
  obtain ⟨cx, cy, cr, ca1, ca2, ca3, -⟩ := carries
  obtain ⟨x_eq, x_limbs⟩ := cx.site rfl
  obtain ⟨a1_eq, a1_limbs⟩ := ca1.site rfl
  obtain ⟨a2_eq, a2_limbs⟩ := ca2.site rfl
  obtain ⟨a3_eq, a3_limbs⟩ := ca3.site rfl
  have y_eq := cy.scalar rfl
  have r_eq := cr.scalar rfl
  obtain ⟨bit, side⟩ : ((sq m2 x).r = 0 ∨ (sq m2 x).r = 1)
      ∧ roundingSide (sq m2 x) = (sq m2 x).r * (x * delta m2 - (sq m2 x).f * (sq m2 x).f - (sq m2 x).f - 1)
        + (1 - (sq m2 x).r) * ((sq m2 x).f - x * delta m2 + (sq m2 x).f * (sq m2 x).f) := by
    rcases SquareRoot.sq_r_cases m2 x with ⟨one, -⟩ | ⟨zero, -⟩
    · simp [roundingSide, one, SquareRoot.sq_N]
    · simp [roundingSide, zero, SquareRoot.sq_N, sub_add]
  simp only [sqrtGates, x_eq, y_eq, r_eq, a1_eq, a2_eq, a3_eq]
  refine ⟨isBit_toF valid bit, ?_, ?_, ?_, decUnsigned_of_limbs valid x_limbs x_holds (feq_toF valid _),
    decUnsigned_of_limbs valid a1_limbs a1_holds (feq_toF valid _),
    decUnsigned_of_limbs valid a2_limbs a2_holds (feq_toF valid _),
    decUnsigned_of_limbs valid a3_limbs a3_holds (feq_toF valid _)⟩
  · simp [feq_iff valid.pos, cast_toF valid, SquareRoot.sq_y, SquareRoot.sq_N]
  · simp [feq_iff valid.pos, cast_toF valid, SquareRoot.sq_y, SquareRoot.sq_N]
  · exact feq_of_eq valid side (by simp [cast_toF valid]) (by simp [cast_toF valid, SquareRoot.sq_y])

/-- C-SF-1 to C-SF-3 and the decompositions (rule R223). -/
theorem sqrtfGates_of_carries {m1 m2 : Nat} (h1 : Legal m1) {x : Int} (x_nonneg : 0 ≤ x) (x_lt : x < bound m1 m2)
    {w : Assignment} (carries : ∀ slot ∈ sqrtfSlots (m1 + m2), Carries p.P (sqrtfValues x (sq m2 x)) w slot) :
    sqrtfGates p m1 m2 w := by
  obtain ⟨x_holds, a1_holds, a2_holds, -⟩ := sqrt_sites h1 x_nonneg x_lt
  simp only [sqrtfSlots, List.forall_mem_cons] at carries
  obtain ⟨cx, cy, ca1, ca2, -⟩ := carries
  obtain ⟨x_eq, x_limbs⟩ := cx.site rfl
  obtain ⟨a1_eq, a1_limbs⟩ := ca1.site rfl
  obtain ⟨a2_eq, a2_limbs⟩ := ca2.site rfl
  have y_eq := cy.scalar rfl
  simp only [sqrtfGates, x_eq, y_eq, a1_eq, a2_eq]
  refine ⟨?_, ?_, decUnsigned_of_limbs valid x_limbs x_holds (feq_toF valid _),
    decUnsigned_of_limbs valid a1_limbs a1_holds (feq_toF valid _),
    decUnsigned_of_limbs valid a2_limbs a2_holds (feq_toF valid _)⟩
  · simp [feq_iff valid.pos, cast_toF valid, SquareRoot.sq_N]
  · simp [feq_iff valid.pos, cast_toF valid, SquareRoot.sq_N]

/-! ### REM -/

/-- C-RM-1 to C-RM-6 for the command and for the sub-gadget: the divisor and the pre-scale are what the assignment, or
the constants, give (rules R291, R322). -/
theorem remGates_of_carries {gd : Gadget} {m : Nat} {x y xs y' xs' : Int} {values : List (Key × Int)}
    (named : ∀ name, valueOf values ⟨gd, name⟩ = valueOf (remValues gd x y xs) ⟨gd, name⟩)
    (hx : mag x < pow2 (16 * m)) (hy : mag y < pow2 (16 * m)) (hxs : mag xs < pow2 (16 * m)) (nonzero : y ≠ 0)
    {w : Assignment} (divisor : FEq p.P y' y) (scaler : FEq p.P xs' xs)
    (carries : ∀ slot ∈ remSlots gd m, Carries p.P values w slot) : remGates p gd m y' xs' w := by
  obtain ⟨y_holds, z_holds, a_holds, g_holds⟩ := rem_sites hx hy hxs nonzero
  obtain ⟨spec, side, z_lt⟩ := rm_spec x xs nonzero
  simp only [remSlots, List.forall_mem_cons] at carries
  obtain ⟨cx, -, cX, cy, csy, cz, csa, ca, cg, -⟩ := carries
  have x_eq : w.val gd .x = (toF p.P x : Int) := cx.scalar ((named _).trans (by simp [remValues, valueOf_cons]))
  have X_eq : w.val gd .bigX = (toF p.P (x * xs) : Int) :=
    cX.scalar ((named _).trans (by simp [remValues, valueOf_cons, rm]))
  have sy_eq : w.val gd .sy = (toF p.P (sgn y) : Int) :=
    csy.scalar ((named _).trans (by simp [remValues, valueOf_cons, rm]))
  have sa_eq : w.val gd .sa = (toF p.P (rm x y xs).sa : Int) :=
    csa.scalar ((named _).trans (by simp [remValues, valueOf_cons]))
  obtain ⟨-, y_limbs⟩ := cy.signed (v := y) ((named _).trans (by simp [remValues, valueOf_cons]))
  obtain ⟨z_eq, z_limbs⟩ := cz.signed (v := (rm x y xs).z) ((named _).trans (by simp [remValues, valueOf_cons]))
  obtain ⟨a_eq, a_limbs⟩ := ca.site (v := (rm x y xs).a) ((named _).trans (by simp [remValues, valueOf_cons]))
  obtain ⟨g_eq, g_limbs⟩ :=
    cg.site (v := mag y - mag (rm x y xs).z - 1) ((named _).trans (by simp [remValues, valueOf_cons]))
  have z_sum : sgn y * mag (rm x y xs).z = (rm x y xs).z := by
    have signed : 0 ≤ sgn y * (rm x y xs).z := side
    rcases sgn_eq y with one | neg
    · rw [one, one_mul] at signed ⊢
      exact mag_of_nonneg signed
    · rw [neg, neg_one_mul] at signed ⊢
      rw [← mag_neg, mag_of_nonneg signed, neg_neg]
  rw [feq_iff valid.pos] at divisor scaler
  simp only [remGates, x_eq, X_eq, sy_eq, sa_eq, z_eq, a_eq, g_eq, Decomposition.limbSum_congr y_limbs,
    Decomposition.limbSum_congr z_limbs, limbSum_limb y m hy, limbSum_limb _ m (z_lt.trans hy)]
  refine ⟨?_, ?_,
    decSigned_of_limbs valid y_limbs y_holds (sgn_eq y) (sgn_mul_mag y) ((feq_iff valid.pos _ _).2 divisor),
    ⟨?_, fun k hk => z_limbs k hk ▸ inRange_limb valid _ k⟩,
    decUnsigned_of_limbs valid a_limbs a_holds (feq_toF valid _),
    isSign_toF valid (sgn_eq _), feq_toF valid _, decUnsigned_of_limbs valid g_limbs g_holds (feq_toF valid _)⟩
  · simp [feq_iff valid.pos, cast_toF valid, scaler]
  · exact feq_of_eq valid spec (by simp [cast_toF valid]) (by simp [cast_toF valid, divisor])
  · exact feq_of_eq valid z_sum.symm (by simp [cast_toF valid]) (by simp [cast_toF valid])

end Field

/-! ### The records -/

/-- Settles O46: RANGE16, DECOMP and TLUT. -/
theorem lookupWitnessAccepted : Obligations.LookupWitnessAccepted := by
  intro c i s results values hop wf build ready completed
  refine lastRecordHolds_of_gates c.valid (Lifecycle.isCompute_of_mem hop rfl) wf build ready completed
    fun out answer w carries => ?_
  cases i with
  | range16 b =>
    obtain ⟨v, -, rfl⟩ := body_range16_eq_ok_iff.1 answer
    exact range16Gates_of_carries c.valid carries
  | decomp b n u =>
    obtain ⟨v, -, small, unsigned, rfl⟩ := body_decomp_eq_ok_iff.1 answer
    simp only [Instr.wf, Bool.and_eq_true, decide_eq_true_eq] at wf
    exact decompGates_of_carries c.valid wf.2 small unsigned carries
  | tlut b j =>
    obtain ⟨k, -, small, rfl⟩ := body_tlut_eq_ok_iff.1 answer
    exact tlutGates_of_carries c.valid small carries
  | _ => simp [Instr.op] at hop

/-- Settles O47: RDIV divides `x`, DIVP divides `x·δ`. -/
theorem divisionWitnessAccepted : Obligations.DivisionWitnessAccepted := by
  intro c i s results values hop build ready completed
  have fit := (c.valid.each _ _ ready.m1 ready.m2).limbs
  cases i with
  | rdiv b =>
    refine lastRecordHolds_of_gates c.valid rfl rfl build ready completed fun out answer w carries => ?_
    obtain ⟨x, y, hx, hy, y_pos, -, rfl⟩ := body_rdiv_eq_ok_iff.1 answer
    have x_eq : w.val .own .x = (toF c.params.P x : Int) := (carries (scalar .own .x) (.head _)).scalar rfl
    exact divisionGates_of_carries c.valid (.inl rfl) fit.rdiv y_pos (mag_lt_iff.1 (HoldsFixed.small hy)).2
      (x_eq ▸ feq_toF c.valid x) carries
  | divp b =>
    refine lastRecordHolds_of_gates c.valid rfl rfl build ready completed fun out answer w carries => ?_
    obtain ⟨x, y, hx, hy, y_pos, -, rfl⟩ := body_divp_eq_ok_iff.1 answer
    have x_eq : w.val .own .x = (toF c.params.P x : Int) := (carries (scalar .own .x) (.head _)).scalar rfl
    refine divisionGates_of_carries c.valid (.inr rfl) fit.divp y_pos (mag_lt_iff.1 (HoldsFixed.small hy)).2 ?_ carries
    simp [feq_iff c.valid.pos, x_eq, cast_toF c.valid]
  | _ => simp [Instr.op] at hop

/-- Settles O48: SQRT and SQRTF. -/
theorem sqrtWitnessAccepted : Obligations.SqrtWitnessAccepted := by
  intro c i s results values hop build ready completed
  cases i with
  | sqrt b =>
    refine lastRecordHolds_of_gates c.valid rfl rfl build ready completed fun out answer w carries => ?_
    obtain ⟨x, hx, x_nonneg, rfl⟩ := body_sqrt_eq_ok_iff.1 answer
    exact sqrtGates_of_carries c.valid ready.m1 x_nonneg (mag_lt_iff.1 (HoldsFixed.small hx)).2 carries
  | sqrtf b =>
    refine lastRecordHolds_of_gates c.valid rfl rfl build ready completed fun out answer w carries => ?_
    obtain ⟨x, hx, x_nonneg, rfl⟩ := body_sqrtf_eq_ok_iff.1 answer
    exact sqrtfGates_of_carries c.valid ready.m1 x_nonneg (mag_lt_iff.1 (HoldsFixed.small hx)).2 carries
  | _ => simp [Instr.op] at hop

/-- Settles O50: REM. -/
theorem remWitnessAccepted : Obligations.RemWitnessAccepted := by
  intro c i s results values hop build ready completed
  cases i with
  | rem b =>
    refine lastRecordHolds_of_gates c.valid rfl rfl build ready completed fun out answer w carries => ?_
    obtain ⟨x, y, xs, hx, hy, hxs, nonzero, -, rfl⟩ := body_rem_eq_ok_iff.1 answer
    have y_eq : w.val .own .y = (toF c.params.P y : Int) :=
      ((carries (signedSite .own .y (s.m1 + s.m2)) (by simp [slots, Instr.op, remSlots])).signed rfl).1
    have xs_eq : w.val .own .xs = (toF c.params.P xs : Int) :=
      (carries (scalar .own .xs) (by simp [slots, Instr.op, remSlots])).scalar rfl
    exact remGates_of_carries c.valid (fun _ => rfl) (HoldsFixed.small hx) (HoldsFixed.small hy) (HoldsFixed.small hxs)
      nonzero (y_eq ▸ feq_toF c.valid y) (xs_eq ▸ feq_toF c.valid xs) carries
  | _ => cases hop

end Sys2Proof.Acceptance
end

section
/-! PROOFS. ATAN's six gates on the witness its command wrote (44_atan.md rule R258). -/

namespace Sys2Proof.Acceptance

open Sys2Proof.Machine Sys2Proof.Steps Sys2Proof.Bounds Sys2Proof.Answers Sys2Proof.FaultOrder

/-! ### Cells by their names -/

section Named

variable {P : Nat} {values : List (Key × Int)} {w : Assignment} {list : List Slot}
  (carries : ∀ slot ∈ list, Carries P values w slot) {g : Gadget} {name : Sym} {n : Nat} {signed : Bool} {v : Int}
include carries

/-- A name with a cell of its own carries the element of its value. -/
theorem val_of_carries
    (listed : list.find? (fun slot => decide (slot.key = ⟨g, name⟩)) = some ⟨⟨g, name⟩, true, n, signed⟩)
    (value : valueOf values ⟨g, name⟩ = some v) : w.val g name = (toF P v : Int) :=
  (carries _ (List.mem_of_find?_eq_some listed) v value).cell rfl

/-- A decomposed name carries the limbs of its value. -/
theorem lim_of_carries {cell : Bool}
    (listed : list.find? (fun slot => decide (slot.key = ⟨g, name⟩)) = some ⟨⟨g, name⟩, cell, n, signed⟩)
    (value : valueOf values ⟨g, name⟩ = some v) : ∀ k, k < n → w.lim g name k = (limb v k : Int) :=
  (carries _ (List.mem_of_find?_eq_some listed) v value).limbs

end Named

/-! ### ATAN -/

/-- A select by a bit in one formula. -/
theorem select_eq {f : Int} (bit : f = 0 ∨ f = 1) (a b : Int) : (if f = 1 then a else b) = f * a + (1 - f) * b := by
  rcases bit with rfl | rfl <;> simp

theorem atanStage2_of_set {m2 : Nat} {c : AtanStage1} (set : c.gt1 = 1) : atanStage2 m2 c =
    ⟨(rdm (delta m2 ^ 2) c.a).q, (rdm (delta m2 ^ 2) c.a).r, (rdm (delta m2 ^ 2) c.a).p, half c.a,
      c.a - (rdm (delta m2 ^ 2) c.a).r - 1⟩ := if_pos set

theorem atanStage2_of_clear {m2 : Nat} {c : AtanStage1} (clear : c.gt1 = 0) : atanStage2 m2 c = ⟨c.a, 0, 0, 0, 0⟩ :=
  if_neg (by rw [clear]; decide)

/-- Stage 2 divides where `gt1` is set and copies where it is not (rule R258, G2). -/
theorem atan_reciprocal_cases (e : Env) (x : Int) :
    ((atanRun e x).s1.gt1 = 1 ∧ 2 * delta e.m2 ^ 2 + (atanRun e x).s1.a - (atanRun e x).s2.p1
        = 2 * ((atanRun e x).s2.t * (atanRun e x).s1.a) + 2 * (atanRun e x).s2.r1
      ∧ (atanRun e x).s1.a = 2 * (atanRun e x).s2.h1 + (atanRun e x).s2.p1
      ∧ ((atanRun e x).s2.p1 = 0 ∨ (atanRun e x).s2.p1 = 1)
      ∧ (atanRun e x).s2.gap1 = (atanRun e x).s1.a - (atanRun e x).s2.r1 - 1)
    ∨ ((atanRun e x).s1.gt1 = 0 ∧ (atanRun e x).s2.t = (atanRun e x).s1.a ∧ (atanRun e x).s2.p1 = 0) := by
  have stage : (atanRun e x).s2 = atanStage2 e.m2 (atanRun e x).s1 := rfl
  rcases gt1_cases e.m2 x with ⟨set, above⟩ | ⟨clear, -⟩
  · obtain ⟨spec, -, -, bit, parity⟩ := rdm_spec (delta e.m2 ^ 2) ((delta_pos e.m2).trans above)
    refine .inl ⟨set, ?_⟩
    rw [stage, atanStage2_of_set (c := (atanRun e x).s1) set]
    exact ⟨spec, parity, bit, rfl⟩
  · refine .inr ⟨clear, ?_⟩
    rw [stage, atanStage2_of_clear (c := (atanRun e x).s1) clear]
    exact ⟨rfl, rfl⟩

/-- Stage 5 divides by the even `15·δ⁴`, so its identity has no parity (rule R255). -/
theorem atan_taylor_identity {m2 : Nat} (h2 : Legal m2) (v : Int) :
    2 * taylorNumerator m2 v + fifteenDelta4 m2 = 2 * ((atanStage5 m2 v).pt * fifteenDelta4 m2)
      + 2 * (atanStage5 m2 v).r5 := by
  obtain ⟨spec, -⟩ := rdm_spec (taylorNumerator m2 v) (fifteenDelta4_pos m2)
  have even : fifteenDelta4 m2 % 2 = 0 := by rcases h2 with rfl | rfl <;> decide
  rw [RoundingDivision.rdm_p, even, sub_zero] at spec
  exact spec

theorem delta_le {m2 : Nat} (h2 : Legal m2) : delta m2 ≤ 2 ^ 32 := by
  rcases h2 with rfl | rfl <;> decide

/-- The dividend and the divisor of stage 4 are far below the field (rule R254). -/
theorem atan_fraction_small {e : Env} (valid : e.p.Valid) (h1 : Legal e.m1) (h2 : Legal e.m2) (x : Int) :
    mag (atanRun e x).s3.num ≤ 2 ^ 96 ∧ (atanRun e x).s3.den < 2 ^ 65 := by
  obtain ⟨K_pos, K_lt⟩ := (valid.each _ _ h1 h2).atanK
  obtain ⟨t_nonneg, t_le⟩ := atanRun_t_mem (e := e) x
  obtain ⟨-, den_lt⟩ := atanRun_den_mem valid h1 h2 x
  have δ_pos := delta_pos e.m2
  have δ_le := delta_le h2
  have square_le : delta e.m2 ^ 2 ≤ (2 ^ 32) ^ 2 := pow_le_pow_left₀ δ_pos.le δ_le 2
  have difference : |(atanRun e x).s2.t - e.p.atanK e.m2| ≤ 2 ^ 32 := abs_le.2 ⟨by omega, by omega⟩
  refine ⟨?_, by omega⟩
  calc mag (atanRun e x).s3.num = |(atanRun e x).s2.t - e.p.atanK e.m2| * delta e.m2 ^ 2 := by
        rw [mag_eq_abs, show (atanRun e x).s3.num = ((atanRun e x).s2.t - e.p.atanK e.m2) * delta e.m2 ^ 2 from rfl,
          abs_mul, abs_of_nonneg (sq_nonneg (delta e.m2))]
    _ ≤ 2 ^ 32 * (2 ^ 32) ^ 2 := mul_le_mul difference square_le (sq_nonneg _) (by norm_num)
    _ = 2 ^ 96 := by norm_num

section Atan

variable {e : Env} (valid : e.p.Valid) (h1 : Legal e.m1) (h2 : Legal e.m2) {x : Int}
  (hx : mag x < bound e.m1 e.m2) {w : Assignment}
  (carries : ∀ slot ∈ atanSlots e.p e.m1 e.m2, Carries e.p.P (atanValues x (atanRun e x)) w slot)
include valid h1 h2 hx carries

theorem atanG1_of_carries : atanG1 e.p e.m1 e.m2 w := by
  have x_eq : w.val .own .x = (toF e.p.P x : Int) := val_of_carries carries rfl rfl
  have s_eq : w.val .own .s = (toF e.p.P (sgn x) : Int) := val_of_carries carries rfl rfl
  have a_eq : w.val .own .a = (toF e.p.P (atanRun e x).s1.a : Int) := val_of_carries carries rfl rfl
  have gt1_eq : w.val .own .gt1 = (toF e.p.P (atanRun e x).s1.gt1 : Int) := val_of_carries carries rfl rfl
  have d1_eq : w.val .own .d1 = (toF e.p.P (atanRun e x).s1.d1 : Int) := val_of_carries carries rfl rfl
  have bit : (atanRun e x).s1.gt1 = 0 ∨ (atanRun e x).s1.gt1 = 1 := Arctangent.flag_eq _
  have formula : (atanRun e x).s1.d1 = (atanRun e x).s1.gt1 * ((atanRun e x).s1.a - delta e.m2 - 1)
      + (1 - (atanRun e x).s1.gt1) * (delta e.m2 - (atanRun e x).s1.a) := select_eq bit _ _
  simp only [atanG1, s_eq, a_eq, gt1_eq, x_eq, d1_eq]
  exact ⟨decSigned_of_limbs valid (lim_of_carries carries rfl rfl) (siteHolds_signed hx) (sgn_eq x) (sgn_mul_mag x)
      (feq_toF valid x),
    isBit_toF valid bit, feq_of_eq valid formula (by simp [cast_toF valid]) (by simp [cast_toF valid]),
    decUnsigned_of_limbs valid (lim_of_carries carries rfl rfl) (atan_reciprocal_sites valid h1 h2 hx).1
      (feq_toF valid _)⟩

theorem atanG2_of_carries : atanG2 e.p e.m1 e.m2 w := by
  obtain ⟨-, r1_holds, h1_holds, gap1_holds⟩ := atan_reciprocal_sites valid h1 h2 hx
  have a_eq : w.val .own .a = (toF e.p.P (atanRun e x).s1.a : Int) := val_of_carries carries rfl rfl
  have gt1_eq : w.val .own .gt1 = (toF e.p.P (atanRun e x).s1.gt1 : Int) := val_of_carries carries rfl rfl
  have t_eq : w.val .own .t = (toF e.p.P (atanRun e x).s2.t : Int) := val_of_carries carries rfl rfl
  have r1_eq : w.val .own .r1 = (toF e.p.P (atanRun e x).s2.r1 : Int) := val_of_carries carries rfl rfl
  have p1_eq : w.val .own .p1 = (toF e.p.P (atanRun e x).s2.p1 : Int) := val_of_carries carries rfl rfl
  have h1_eq : w.val .own .h1 = (toF e.p.P (atanRun e x).s2.h1 : Int) := val_of_carries carries rfl rfl
  simp only [atanG2, a_eq, gt1_eq, t_eq, r1_eq, p1_eq, h1_eq]
  rcases atan_reciprocal_cases e x with ⟨set, spec, parity, bit, gap⟩ | ⟨clear, copy, zero⟩
  · refine ⟨feq_of_eq valid (sub_eq_zero.2 spec) ?_ (by simp), feq_of_eq valid (sub_eq_zero.2 parity) ?_ (by simp),
      isBit_toF valid bit, ?_, fun _ => ⟨decUnsigned_of_limbs valid (lim_of_carries carries rfl rfl) r1_holds
        (feq_toF valid _), decUnsigned_of_limbs valid (lim_of_carries carries rfl rfl) gap1_holds ?_,
        decUnsigned_of_limbs valid (lim_of_carries carries rfl rfl) h1_holds (feq_toF valid _)⟩⟩
    · simp [cast_toF valid, set]
      ring
    · simp [cast_toF valid, set]
      ring
    · simp [feq_iff valid.pos, cast_toF valid, set]
    · simp [feq_iff valid.pos, cast_toF valid, gap]
  · refine ⟨?_, ?_, isBit_toF valid (.inl zero), ?_, fun selected => ?_⟩
    · simp [feq_iff valid.pos, cast_toF valid, clear]
    · simp [feq_iff valid.pos, cast_toF valid, clear]
    · simp [feq_iff valid.pos, copy]
    · have set := bit_of_feq valid (.inl clear) selected
      rw [clear] at set
      cases set

omit hx in
theorem atanG3_of_carries : atanG3 e.p e.m1 e.m2 w := by
  obtain ⟨d2_holds, -⟩ := atan_division_sites valid h1 h2 x
  have gt2_eq : w.val .own .gt2 = (toF e.p.P (atanRun e x).s3.gt2 : Int) := val_of_carries carries rfl rfl
  have t_eq : w.val .own .t = (toF e.p.P (atanRun e x).s2.t : Int) := val_of_carries carries rfl rfl
  have d2_eq : w.val .own .d2 = (toF e.p.P (atanRun e x).s3.d2 : Int) := val_of_carries carries rfl rfl
  have num_eq : w.val .own .num = (toF e.p.P (((atanRun e x).s2.t - e.p.atanK e.m2) * delta e.m2 ^ 2) : Int) :=
    val_of_carries carries rfl rfl
  have den_eq : w.val .own .den = (toF e.p.P (delta e.m2 ^ 2 + (atanRun e x).s2.t * e.p.atanK e.m2) : Int) :=
    val_of_carries carries rfl rfl
  have bit : (atanRun e x).s3.gt2 = 0 ∨ (atanRun e x).s3.gt2 = 1 := Arctangent.flag_eq _
  have formula : (atanRun e x).s3.d2 = (atanRun e x).s3.gt2 * ((atanRun e x).s2.t - e.p.atanK e.m2 - 1)
      + (1 - (atanRun e x).s3.gt2) * (e.p.atanK e.m2 - (atanRun e x).s2.t) := select_eq bit _ _
  simp only [atanG3, gt2_eq, t_eq, d2_eq, num_eq, den_eq]
  refine ⟨isBit_toF valid bit, feq_of_eq valid formula (by simp [cast_toF valid]) (by simp [cast_toF valid]),
    decUnsigned_of_limbs valid (lim_of_carries carries rfl rfl) d2_holds (feq_toF valid _), ?_, ?_⟩
  · simp [feq_iff valid.pos, cast_toF valid]
  · simp [feq_iff valid.pos, cast_toF valid]

omit hx in
theorem atanG5_of_carries : atanG5 e.p e.m1 e.m2 w := by
  obtain ⟨-, -, -, -, r5_holds, gap5_holds⟩ := atan_division_sites valid h1 h2 x
  have v_eq : w.val .own .v = (toF e.p.P (atanRun e x).s4.v : Int) := val_of_carries carries rfl rfl
  have pt_eq : w.val .own .pt = (toF e.p.P (atanRun e x).s5.pt : Int) := val_of_carries carries rfl rfl
  have r5_eq : w.val .own .r5 = (toF e.p.P (atanRun e x).s5.r5 : Int) := val_of_carries carries rfl rfl
  have identity : 2 * taylorNumerator e.m2 (atanRun e x).s4.v + fifteenDelta4 e.m2
      = 2 * ((atanRun e x).s5.pt * fifteenDelta4 e.m2) + 2 * (atanRun e x).s5.r5 :=
    atan_taylor_identity h2 (atanRun e x).s4.v
  have gap : (atanRun e x).s5.gap5 = fifteenDelta4 e.m2 - (atanRun e x).s5.r5 - 1 := rfl
  simp only [atanG5, v_eq, pt_eq, r5_eq]
  refine ⟨feq_of_eq valid identity (by simp [taylorNumerator, cast_toF valid]) (by simp [cast_toF valid, mul_assoc]),
    decUnsigned_of_limbs valid (lim_of_carries carries rfl rfl) r5_holds (feq_toF valid _),
    decUnsigned_of_limbs valid (lim_of_carries carries rfl rfl) gap5_holds ?_⟩
  simp [feq_iff valid.pos, cast_toF valid, gap]

omit h1 h2 hx in
theorem atanG6_of_carries : atanG6 e.p e.m2 w := by
  have s_eq : w.val .own .s = (toF e.p.P (sgn x) : Int) := val_of_carries carries rfl rfl
  have gt1_eq : w.val .own .gt1 = (toF e.p.P (atanRun e x).s1.gt1 : Int) := val_of_carries carries rfl rfl
  have gt2_eq : w.val .own .gt2 = (toF e.p.P (atanRun e x).s3.gt2 : Int) := val_of_carries carries rfl rfl
  have pt_eq : w.val .own .pt = (toF e.p.P (atanRun e x).s5.pt : Int) := val_of_carries carries rfl rfl
  have w_eq : w.val .own .w = (toF e.p.P ((atanRun e x).s5.pt + (atanRun e x).s3.gt2 * e.p.pi6 e.m2) : Int) :=
    val_of_carries carries rfl rfl
  have w2_eq : w.val .own .w2 = (toF e.p.P (atanRun e x).s6.w2 : Int) := val_of_carries carries rfl rfl
  have res_eq : w.val .own .res = (toF e.p.P (sgn x * (atanRun e x).s6.w2) : Int) := val_of_carries carries rfl rfl
  have formula : (atanRun e x).s6.w2 = (atanRun e x).s1.gt1
        * (e.p.pi2 e.m2 - ((atanRun e x).s5.pt + (atanRun e x).s3.gt2 * e.p.pi6 e.m2))
      + (1 - (atanRun e x).s1.gt1) * ((atanRun e x).s5.pt + (atanRun e x).s3.gt2 * e.p.pi6 e.m2) :=
    select_eq (Arctangent.flag_eq _) _ _
  simp only [atanG6, s_eq, gt1_eq, gt2_eq, pt_eq, w_eq, w2_eq, res_eq]
  refine ⟨?_, feq_of_eq valid formula (by simp [cast_toF valid]) (by simp [cast_toF valid]), ?_⟩
  · simp [feq_iff valid.pos, cast_toF valid]
  · simp [feq_iff valid.pos, cast_toF valid]

omit hx in
/-- G4: the OPEN predicate accepts the witness of rule R259, whose cells are small enough to be read back. -/
theorem atanG4_of_carries : atanG4 e.p w := by
  have num_eq : w.val .own .num = (toF e.p.P (atanRun e x).s3.num : Int) := val_of_carries carries rfl rfl
  have den_eq : w.val .own .den = (toF e.p.P (atanRun e x).s3.den : Int) := val_of_carries carries rfl rfl
  have u_eq : w.val .own .u = (toF e.p.P (atanRun e x).s4.u : Int) := val_of_carries carries rfl rfl
  have r2_eq : w.val .own .r2 = (toF e.p.P (atanRun e x).s4.r2 : Int) := val_of_carries carries rfl rfl
  have p2_eq : w.val .own .p2 = (toF e.p.P (atanRun e x).s4.p2 : Int) := val_of_carries carries rfl rfl
  have h2_eq : w.val .own .h2 = (toF e.p.P (atanRun e x).s4.h2 : Int) := val_of_carries carries rfl rfl
  have gt2_eq : w.val .own .gt2 = (toF e.p.P (atanRun e x).s3.gt2 : Int) := val_of_carries carries rfl rfl
  have t_eq : w.val .own .t = (toF e.p.P (atanRun e x).s2.t : Int) := val_of_carries carries rfl rfl
  have v_eq : w.val .own .v = (toF e.p.P (atanRun e x).s4.v : Int) := val_of_carries carries rfl rfl
  have δ_le := delta_le h2
  have t_mem := atanRun_t_mem (e := e) x
  have v_mem := atanRun_v_mem valid h1 h2 x
  have den_pos := atanRun_den_pos valid h1 h2 x
  obtain ⟨num_small, den_small⟩ := atan_fraction_small valid h1 h2 x
  have u_small : mag (atanRun e x).s4.u ≤ mag (atanRun e x).s3.num := mag_rnd_le _ den_pos
  obtain ⟨spec, r2_nonneg, r2_lt, p2_bit, parity⟩ : 2 * (atanRun e x).s3.num + (atanRun e x).s3.den
        - (atanRun e x).s4.p2 = 2 * ((atanRun e x).s4.u * (atanRun e x).s3.den) + 2 * (atanRun e x).s4.r2
      ∧ 0 ≤ (atanRun e x).s4.r2 ∧ (atanRun e x).s4.r2 < (atanRun e x).s3.den
      ∧ ((atanRun e x).s4.p2 = 0 ∨ (atanRun e x).s4.p2 = 1)
      ∧ (atanRun e x).s3.den = 2 * (atanRun e x).s4.h2 + (atanRun e x).s4.p2 := rdm_spec _ den_pos
  have bit : (atanRun e x).s3.gt2 = 0 ∨ (atanRun e x).s3.gt2 = 1 := Arctangent.flag_eq _
  have select : (atanRun e x).s4.v = (atanRun e x).s3.gt2 * (atanRun e x).s4.u
      + (1 - (atanRun e x).s3.gt2) * (atanRun e x).s2.t := select_eq bit _ _
  have small {v : Int} (lower : -2 ^ 96 ≤ v) (upper : v ≤ 2 ^ 96) : mag v < 2 ^ 170 := by
    rw [mag_lt_iff]
    omega
  rw [mag_eq_abs, abs_le] at num_small
  rw [mag_eq_abs, mag_eq_abs] at u_small
  have u_mem := abs_le.1 (u_small.trans (abs_le.2 num_small))
  simp only [atanG4, num_eq, den_eq, u_eq, r2_eq, p2_eq, h2_eq, gt2_eq, t_eq, v_eq]
  rw [signedOf_toF valid (small num_small.1 num_small.2), signedOf_toF valid (small (by omega) (by omega)),
    signedOf_toF valid (small u_mem.1 u_mem.2), signedOf_toF valid (small (by omega) (by omega)),
    signedOf_toF valid (small (by omega) (by omega)), signedOf_toF valid (small (by omega) (by omega)),
    signedOf_toF valid (small (by omega) (by omega)), signedOf_toF valid (small (by omega) (by omega)),
    signedOf_toF valid (small (by omega) (by omega)), valid.atanRow4]
  exact ⟨by rw [spec, mul_assoc], r2_nonneg, r2_lt, parity, p2_bit, select⟩

end Atan

/-- Settles O49: ATAN's six gates, stage by stage. -/
theorem atanWitnessAccepted : Obligations.AtanWitnessAccepted := by
  intro c i s results values hop build ready completed
  cases i with
  | atan b =>
    refine lastRecordHolds_of_gates c.valid rfl rfl build ready completed fun out answer w carries => ?_
    obtain ⟨x, hx, -, rfl⟩ := body_atan_eq_ok_iff.1 answer
    have small := HoldsFixed.small hx
    exact ⟨atanG1_of_carries (e := s.env c.params) c.valid ready.m1 ready.m2 small carries,
      atanG2_of_carries (e := s.env c.params) c.valid ready.m1 ready.m2 small carries,
      atanG3_of_carries (e := s.env c.params) c.valid ready.m1 ready.m2 carries,
      atanG4_of_carries (e := s.env c.params) c.valid ready.m1 ready.m2 carries,
      atanG5_of_carries (e := s.env c.params) c.valid ready.m1 ready.m2 carries,
      atanG6_of_carries (e := s.env c.params) c.valid carries⟩
  | _ => cases hop

end Sys2Proof.Acceptance
end

section
/-! PROOFS. The gates of SIN, COS and TAN on the witness their commands wrote (46_trig.md rules R320–R324). -/

namespace Sys2Proof.Acceptance

open Sys2Proof.Machine Sys2Proof.Steps Sys2Proof.Bounds Sys2Proof.Answers Sys2Proof.FaultOrder

/-! ### The angle's values by their names -/

section AngleNames

variable (e : Env) (x : Int) {k : Nat}

/-- No name of a range of indexed names is another name. -/
theorem valueOf_range_map_of_ne {name : Nat → Sym} {other : Sym} (h : ∀ j, name j ≠ other) (g g' : Gadget)
    (value : Nat → Int) (n : Nat) :
    valueOf ((List.range n).map fun j => (⟨g, name j⟩, value j)) ⟨g', other⟩ = none := by
  refine valueOf_eq_none fun kv hkv e => ?_
  obtain ⟨j, -, rfl⟩ := List.mem_map.1 hkv
  exact h j (Key.mk.inj e).2

theorem valueOf_angle {v : Int} {name : Sym} (h : valueOf (ownAngleValues e x) ⟨.own, name⟩ = some v)
    (back : List (Key × Int)) : valueOf (angleValues e x ++ back) ⟨.own, name⟩ = some v :=
  valueOf_append_of_some _ ((angleValues_eq e x).symm ▸ valueOf_append_of_some _ h)

theorem valueOf_theta (hk : k < angleLimbs e.m2) :
    valueOf (ownAngleValues e x) ⟨.own, .theta k⟩ = some (theta (ang e x) k : Int) := by
  have found := valueOf_range_map (fun _ _ => Sym.theta.inj) .own (fun j => (theta (ang e x) j : Int)) hk
  simp [ownAngleValues, valueOf_append, valueOf_cons, own, found]

theorem valueOf_sj (hk : k < angleLimbs e.m2) :
    valueOf (ownAngleValues e x) ⟨.own, .sj k⟩ = some (sinEntry e (ang e x) k) := by
  have found := valueOf_range_map (fun _ _ => Sym.sj.inj) .own (sinEntry e (ang e x)) hk
  simp [ownAngleValues, valueOf_append, valueOf_cons, own, found, valueOf_range_map_of_ne]

theorem valueOf_cj (hk : k < angleLimbs e.m2) :
    valueOf (ownAngleValues e x) ⟨.own, .cj k⟩ = some (cosEntry e (ang e x) k) := by
  have found := valueOf_range_map (fun _ _ => Sym.cj.inj) .own (cosEntry e (ang e x)) hk
  simp [ownAngleValues, valueOf_append, valueOf_cons, own, found, valueOf_range_map_of_ne]

theorem valueOf_sums : valueOf (ownAngleValues e x) ⟨.own, .sab⟩ = some (scr e (ang e x)).sab
    ∧ valueOf (ownAngleValues e x) ⟨.own, .cab⟩ = some (scr e (ang e x)).cab
    ∧ valueOf (ownAngleValues e x) ⟨.own, .sr⟩ = some (scr e (ang e x)).sr
    ∧ valueOf (ownAngleValues e x) ⟨.own, .cr⟩ = some (scr e (ang e x)).cr := by
  simp [ownAngleValues, valueOf_append, valueOf_cons, own, valueOf_range_map_of_ne]

end AngleNames

theorem scr_pair (e : Env) (c : Angle) :
    (scr e c).sab = sinEntry e c 0 * cosEntry e c 1 + cosEntry e c 0 * sinEntry e c 1
      ∧ (scr e c).cab = cosEntry e c 0 * cosEntry e c 1 - sinEntry e c 0 * sinEntry e c 1 := by
  unfold scr
  split <;> exact ⟨rfl, rfl⟩

/-! ### The angle -/

section Angle

variable {e : Env} (valid : e.p.Valid) (h1 : Legal e.m1) (h2 : Legal e.m2) {x : Int}
  (hx : mag x < bound e.m1 e.m2) {back : List (Key × Int)} {w : Assignment}
  (carries : ∀ slot ∈ angleSlots e.m1 e.m2, Carries e.p.P (angleValues e x ++ back) w slot)
include carries

theorem angle_x_cell : w.val .own .x = (toF e.p.P x : Int) :=
  (carries (scalar .own .x) (by simp [angleSlots])).scalar (valueOf_angle e x rfl back)

theorem angle_s_cell : w.val .own .s = (toF e.p.P (ang e x).s : Int) :=
  (carries (scalar .own .s) (by simp [angleSlots])).scalar (valueOf_angle e x rfl back)

theorem angle_sum_cells : w.val .own .sab = (toF e.p.P (scr e (ang e x)).sab : Int)
    ∧ w.val .own .cab = (toF e.p.P (scr e (ang e x)).cab : Int)
    ∧ w.val .own .sr = (toF e.p.P (scr e (ang e x)).sr : Int)
    ∧ w.val .own .cr = (toF e.p.P (scr e (ang e x)).cr : Int) := by
  obtain ⟨sab, cab, sr, cr⟩ := valueOf_sums e x
  exact ⟨(carries (scalar .own .sab) (by simp [angleSlots])).scalar (valueOf_angle e x sab back),
    (carries (scalar .own .cab) (by simp [angleSlots])).scalar (valueOf_angle e x cab back),
    (carries (scalar .own .sr) (by simp [angleSlots])).scalar (valueOf_angle e x sr back),
    (carries (scalar .own .cr) (by simp [angleSlots])).scalar (valueOf_angle e x cr back)⟩

theorem angle_entry_cells {j : Nat} (hj : j < angleLimbs e.m2) :
    w.val .own (.theta j) = (toF e.p.P (theta (ang e x) j) : Int)
    ∧ w.val .own (.sj j) = (toF e.p.P (sinEntry e (ang e x) j) : Int)
    ∧ w.val .own (.cj j) = (toF e.p.P (cosEntry e (ang e x) j) : Int) :=
  ⟨(carries (scalar .own (.theta j)) (by simp [angleSlots, scalar, hj])).scalar
      (valueOf_angle e x (valueOf_theta e x hj) back),
    (carries (scalar .own (.sj j)) (by simp [angleSlots, scalar, hj])).scalar
      (valueOf_angle e x (valueOf_sj e x hj) back),
    (carries (scalar .own (.cj j)) (by simp [angleSlots, scalar, hj])).scalar
      (valueOf_angle e x (valueOf_cj e x hj) back)⟩

include valid

/-- An angle limb is its own element. -/
theorem angle_theta_cell {j : Nat} (hj : j < angleLimbs e.m2) : w.val .own (.theta j) = (theta (ang e x) j : Int) := by
  have small : theta (ang e x) j < e.p.P :=
    (theta_lt _ j).trans ((by norm_num : 65536 < 2 ^ 172).trans valid.large)
  rw [(angle_entry_cells carries hj).1, toF_of_elem small]

include hx in
/-- C-TR-1 with `m1 = 1`: sign and magnitude (rule R320). -/
theorem angleDirect_of_carries (one : e.m1 = 1) : angleDirect e.p e.m2 w := by
  have angle : ang e x = ⟨sgn x, mag x⟩ := if_pos one
  have limbs : ∀ j, j < angleLimbs e.m2 → w.val .own (.theta j) = (limb (mag x) j : Int) := fun j hj => by
    rw [angle_theta_cell valid carries hj, theta, angle]
  have width : 16 * (e.m1 + e.m2) = 16 * angleLimbs e.m2 := by rw [one, angleLimbs, Nat.add_comm]
  have small : mag (mag x) < pow2 (16 * angleLimbs e.m2) := by
    rw [mag_of_nonneg (mag_nonneg x), ← width]
    exact hx
  rw [angleDirect, angle_x_cell carries, angle_s_cell carries, Decomposition.limbSum_congr limbs,
    limbSum_limb _ _ small, mag_of_nonneg (mag_nonneg x), angle]
  refine ⟨feq_of_eq valid (sgn_mul_mag x).symm (by simp [cast_toF valid]) (by simp [cast_toF valid]),
    isSign_toF valid (sgn_eq x)⟩

include hx h1 h2 in
/-- C-TR-1 with `m1 = 2`: the REM sub-gadget and its copied limbs (rules R320, R322). -/
theorem angleReduced_of_carries (two : e.m1 = 2) (own_back : ∀ kv ∈ back, kv.1.gadget = .own) :
    angleReduced e.p e.m1 e.m2 w := by
  obtain ⟨y_pos, y_small, xs_small⟩ := reduction_operands valid h1 h2 two
  have angle : ang e x = ⟨1, (rm x (e.p.twoPiY e.m2) (e.p.xScaler e.m2)).z⟩ := if_neg (by rw [two]; decide)
  have named := valueOf_angleValues_rem two x back own_back
  have sub : ∀ slot ∈ remSlots .rem (e.m1 + e.m2), Carries e.p.P (angleValues e x ++ back) w slot := fun slot hslot =>
    carries slot (List.mem_append_right _ (by rwa [if_pos two]))
  have x_eq : w.val .rem .x = (toF e.p.P x : Int) := val_of_carries sub rfl ((named _).trans rfl)
  have y_eq : w.val .rem .y = (toF e.p.P (e.p.twoPiY e.m2) : Int) := val_of_carries sub rfl ((named _).trans rfl)
  have xs_eq : w.val .rem .xs = (toF e.p.P (e.p.xScaler e.m2) : Int) := val_of_carries sub rfl ((named _).trans rfl)
  have z_limbs : ∀ k, k < e.m1 + e.m2 →
      w.lim .rem .z k = (limb (rm x (e.p.twoPiY e.m2) (e.p.xScaler e.m2)).z k : Int) :=
    lim_of_carries sub rfl ((named _).trans rfl)
  refine ⟨by rw [x_eq, angle_x_cell carries]; rfl, y_eq ▸ feq_toF valid _, xs_eq ▸ feq_toF valid _,
    remGates_of_carries valid named hx y_small xs_small y_pos.ne' rfl rfl sub, fun j hj => ?_, ?_⟩
  · have inside : j < e.m1 + e.m2 := by
      rw [angleLimbs] at hj
      omega
    rw [angle_theta_cell valid carries hj, z_limbs j inside, theta, angle]
    rfl
  · rw [angle_s_cell carries, angle]
    exact feq_toF valid 1

include hx h1 h2 in
/-- C-TR-1 to C-TR-3 (rule R320). -/
theorem angleGates_of_carries (own_back : ∀ kv ∈ back, kv.1.gadget = .own) : angleGates e.p e.m1 e.m2 w := by
  obtain ⟨sab_eq, cab_eq, sr_eq, cr_eq⟩ := angle_sum_cells carries
  obtain ⟨sab, cab⟩ := scr_pair e (ang e x)
  have zero : 0 < angleLimbs e.m2 := Nat.succ_pos _
  have one : 1 < angleLimbs e.m2 := by rcases h2 with h | h <;> rw [angleLimbs, h] <;> decide
  obtain ⟨-, s0, c0⟩ := angle_entry_cells carries zero
  obtain ⟨-, s1, c1⟩ := angle_entry_cells carries one
  simp only [angleGates]
  refine ⟨?_, fun j hj => ?_, ?_, ?_, ?_, ?_⟩
  · split_ifs with direct
    · exact angleDirect_of_carries valid hx carries direct
    · exact angleReduced_of_carries valid h1 h2 hx carries (h1.resolve_left direct) own_back
  · obtain ⟨theta_eq, s_eq, c_eq⟩ := angle_entry_cells carries hj
    rw [theta_eq, s_eq, c_eq]
    exact trigGate_of_index valid (theta_lt _ j)
  · rw [sab_eq, s0, s1, c0, c1]
    exact feq_of_eq valid sab (by simp [cast_toF valid]) (by simp [cast_toF valid])
  · rw [cab_eq, s0, s1, c0, c1]
    exact feq_of_eq valid cab (by simp [cast_toF valid]) (by simp [cast_toF valid])
  all_goals
    rcases h2 with narrow | wide
  · rw [if_pos narrow, sr_eq, sab_eq, (scr_of_one _ narrow).1]
    rfl
  · obtain ⟨-, s2, c2⟩ := angle_entry_cells carries (j := 2) (by rw [angleLimbs, wide]; decide)
    rw [if_neg (by rw [wide]; decide), sr_eq, sab_eq, cab_eq, s2, c2]
    exact feq_of_eq valid (scr_of_two (ang e x) wide).1 (by simp [cast_toF valid]) (by simp [cast_toF valid])
  · rw [if_pos narrow, cr_eq, cab_eq, (scr_of_one _ narrow).2]
    rfl
  · obtain ⟨-, s2, c2⟩ := angle_entry_cells carries (j := 2) (by rw [angleLimbs, wide]; decide)
    rw [if_neg (by rw [wide]; decide), cr_eq, sab_eq, cab_eq, s2, c2]
    exact feq_of_eq valid (scr_of_two (ang e x) wide).2 (by simp [cast_toF valid]) (by simp [cast_toF valid])

end Angle

/-! ### SIN and COS -/

section Rescale

variable {e : Env} (valid : e.p.Valid) (h2 : Legal e.m2) {op : Op} {x sum res : Int} {w : Assignment}
  (carries : ∀ slot ∈ rescaleSlots e.p op e.m1 e.m2,
    Carries e.p.P (angleValues e x ++ rescaleValues e.m2 (rdm sum (rescaleD e.m2)) res) w slot)
include carries

theorem rescale_cells : w.val .own .q = (toF e.p.P (rdm sum (rescaleD e.m2)).q : Int)
    ∧ w.val .own .res = (toF e.p.P res : Int) :=
  ⟨(carries (scalar .own .q) (List.mem_append_right _ (by simp))).scalar
      (valueOf_append_of_none (valueOf_angleValues_eq_none e x (by simp))),
    (carries (scalar .own .res) (List.mem_append_right _ (by simp))).scalar
      (valueOf_append_of_none (valueOf_angleValues_eq_none e x (by simp)))⟩

include valid h2 in
/-- C-TR-4: the divisor `D` is even, so its parity bit is the constant 0 (rule R320). -/
theorem rescaleGates_of_carries
    (fit : ∀ site ∈ [Sym.r, .gap], Holds (e.p.limbs op site e.m1 e.m2) (rescaleD e.m2 - 1)) {n : Int}
    (dividend : FEq e.p.P n sum) : rescaleGates e.p op e.m1 e.m2 n w := by
  obtain ⟨r_holds, gap_holds⟩ := rescale_sites (e := e) (n := fun site => e.p.limbs op site e.m1 e.m2) fit sum
  obtain ⟨spec, -⟩ := rdm_spec sum (rescaleD_pos e.m2)
  rw [RoundingDivision.rdm_p, Completion.rescaleD_even h2, sub_zero] at spec
  obtain ⟨q_eq, -⟩ := rescale_cells carries
  obtain ⟨r_eq, r_limbs⟩ := (carries (scalarSite .own .r (e.p.limbs op .r e.m1 e.m2))
    (List.mem_append_right _ (by simp))).site
    (valueOf_append_of_none (valueOf_angleValues_eq_none e x (by simp)))
  have gap_limbs := (carries (bareSite .own .gap (e.p.limbs op .gap e.m1 e.m2))
    (List.mem_append_right _ (by simp))).bare (valueOf_append_of_none (valueOf_angleValues_eq_none e x (by simp)))
  rw [feq_iff valid.pos] at dividend
  simp only [rescaleGates, q_eq, r_eq]
  refine ⟨feq_of_eq valid spec (by simp [dividend]) (by simp [cast_toF valid, mul_assoc]),
    decUnsigned_of_limbs valid r_limbs r_holds (feq_toF valid _),
    decUnsigned_of_limbs valid gap_limbs gap_holds ?_⟩
  simp [feq_iff valid.pos, cast_toF valid]

end Rescale

/-! ### TAN -/

/-- TAN's division over the integers (rule R323). -/
theorem tanDivision_spec {e : Env} {x : Int} (nonzero : (scr e (ang e x)).cr ≠ 0) :
    2 * (sgn (scr e (ang e x)).cr * delta e.m2 * (scr e (ang e x)).sr) + mag (scr e (ang e x)).cr - (tanDivision e x).p
        = 2 * ((tanDivision e x).q * mag (scr e (ang e x)).cr) + 2 * (tanDivision e x).r
      ∧ 0 ≤ (tanDivision e x).r ∧ (tanDivision e x).r < mag (scr e (ang e x)).cr
      ∧ ((tanDivision e x).p = 0 ∨ (tanDivision e x).p = 1)
      ∧ mag (scr e (ang e x)).cr = 2 * half (mag (scr e (ang e x)).cr) + (tanDivision e x).p :=
  rdm_spec _ (by rw [mag_eq_abs]; exact abs_pos.2 nonzero)

section Tan

variable {e : Env} (valid : e.p.Valid) (h1 : Legal e.m1) (h2 : Legal e.m2) {x : Int}
  (nonzero : (scr e (ang e x)).cr ≠ 0) {w : Assignment}
  (carries : ∀ slot ∈ tanSlots e.p e.m1 e.m2, Carries e.p.P (angleValues e x
    ++ tanValues (sgn (scr e (ang e x)).cr) (mag (scr e (ang e x)).cr) (tanDivision e x)
      ((ang e x).s * (tanDivision e x).q)) w slot)
include carries

theorem tan_cells : w.val .own .sigma = (toF e.p.P (sgn (scr e (ang e x)).cr) : Int)
    ∧ w.val .own .q = (toF e.p.P (tanDivision e x).q : Int)
    ∧ w.val .own .r = (toF e.p.P (tanDivision e x).r : Int)
    ∧ w.val .own .p = (toF e.p.P (tanDivision e x).p : Int)
    ∧ w.val .own .h = (toF e.p.P (half (mag (scr e (ang e x)).cr)) : Int)
    ∧ w.val .own .res = (toF e.p.P ((ang e x).s * (tanDivision e x).q) : Int) := by
  have back : ∀ slot ∈ [scalar .own .sigma, bareSite .own .c (e.p.limbs .tan .c e.m1 e.m2), scalar .own .q,
      scalarSite .own .r (e.p.limbs .tan .r e.m1 e.m2), scalar .own .p,
      scalarSite .own .h (e.p.limbs .tan .h e.m1 e.m2), bareSite .own .gap (e.p.limbs .tan .gap e.m1 e.m2), scalar .own .res], Carries e.p.P _ w slot :=
    fun slot hslot => carries slot (List.mem_append_right _ hslot)
  refine ⟨val_of_carries back rfl ?_, val_of_carries back rfl ?_, val_of_carries back rfl ?_,
    val_of_carries back rfl ?_, val_of_carries back rfl ?_, val_of_carries back rfl ?_⟩ <;>
    exact valueOf_append_of_none (valueOf_angleValues_eq_none e x (by simp))

theorem tan_c_limbs : ∀ k, k < e.p.limbs .tan .c e.m1 e.m2 →
    w.lim .own .c k = (limb (mag (scr e (ang e x)).cr) k : Int) :=
  (carries (bareSite .own .c _) (List.mem_append_right _ (by simp))).bare
    (valueOf_append_of_none (valueOf_angleValues_eq_none e x (by simp)))

include valid h1 h2 nonzero in
/-- The limbs of `c` stand for the magnitude of the raw cosine sum (rule R323). -/
theorem tan_c_sum : limbSum (w.lim .own .c) (e.p.limbs .tan .c e.m1 e.m2) = mag (scr e (ang e x)).cr := by
  have holds := (tan_sites valid h1 h2 nonzero).1
  simp only [siteHolds, Bool.and_eq_true, Bool.false_or, decide_eq_true_eq] at holds
  rw [Decomposition.limbSum_congr (tan_c_limbs carries), limbSum_limb _ _ holds.1, mag_of_nonneg holds.2]

include valid h1 h2 nonzero in
/-- The division gate of rule R323. -/
theorem tanDivisionGate_of_carries (s_eq : w.val .own .s = (toF e.p.P (ang e x).s : Int))
    (sr_eq : w.val .own .sr = (toF e.p.P (scr e (ang e x)).sr : Int))
    (cr_eq : w.val .own .cr = (toF e.p.P (scr e (ang e x)).cr : Int)) : tanDivisionGate e.p e.m1 e.m2 w := by
  obtain ⟨c_holds, r_holds, h_holds, gap_holds⟩ := tan_sites valid h1 h2 nonzero
  obtain ⟨sigma_eq, q_eq, r_eq, p_eq, h_eq, res_eq⟩ := tan_cells carries
  obtain ⟨spec, -, -, bit, parity⟩ := tanDivision_spec nonzero
  have r_limbs := (carries (scalarSite .own .r (e.p.limbs .tan .r e.m1 e.m2))
    (List.mem_append_right _ (by simp))).site (valueOf_append_of_none (valueOf_angleValues_eq_none e x (by simp)))
  have h_limbs := (carries (scalarSite .own .h (e.p.limbs .tan .h e.m1 e.m2))
    (List.mem_append_right _ (by simp))).site (valueOf_append_of_none (valueOf_angleValues_eq_none e x (by simp)))
  have gap_limbs := (carries (bareSite .own .gap (e.p.limbs .tan .gap e.m1 e.m2))
    (List.mem_append_right _ (by simp))).bare (valueOf_append_of_none (valueOf_angleValues_eq_none e x (by simp)))
  simp only [tanDivisionGate, s_eq, sr_eq, cr_eq, sigma_eq, q_eq, r_eq, p_eq, h_eq, res_eq,
    tan_c_sum valid h1 h2 nonzero carries]
  refine ⟨decUnsigned_of_limbs valid (tan_c_limbs carries) c_holds rfl,
    feq_of_eq valid (sgn_mul_mag (scr e (ang e x)).cr).symm (by simp [cast_toF valid]) (by simp [cast_toF valid]),
    isSign_toF valid (sgn_eq _), feq_of_eq valid spec (by simp [cast_toF valid, mul_assoc])
      (by simp [cast_toF valid, mul_assoc]),
    decUnsigned_of_limbs valid r_limbs.2 r_holds (feq_toF valid _),
    decUnsigned_of_limbs valid gap_limbs gap_holds ?_, isBit_toF valid bit,
    feq_of_eq valid parity (by simp) (by simp [cast_toF valid]),
    decUnsigned_of_limbs valid h_limbs.2 h_holds (feq_toF valid _), ?_⟩
  · simp [feq_iff valid.pos, cast_toF valid]
  · simp [feq_iff valid.pos, cast_toF valid]

include valid h1 h2 nonzero in
/-- The OPEN predicate of rule R324 accepts the division's witness, whose cells are small enough to be read back. -/
theorem tanCheckGate_of_carries (wide : e.m2 = 2)
    (res_small : mag ((ang e x).s * (tanDivision e x).q) < bound e.m1 e.m2)
    (s_eq : w.val .own .s = (toF e.p.P (ang e x).s : Int))
    (sr_eq : w.val .own .sr = (toF e.p.P (scr e (ang e x)).sr : Int))
    (cr_eq : w.val .own .cr = (toF e.p.P (scr e (ang e x)).cr : Int)) : tanCheckGate e.p e.m1 e.m2 w := by
  obtain ⟨sigma_eq, q_eq, r_eq, p_eq, h_eq, res_eq⟩ := tan_cells carries
  obtain ⟨-, r_nonneg, r_lt, bit, -⟩ := tanDivision_spec nonzero
  have budget : 2 * (e.m2 : Int) * delta e.m2 * rescaleD e.m2 ≤ 2 ^ 98 := by
    rw [wide]
    decide
  obtain ⟨sr_le, cr_le⟩ := abs_scr_le_budget valid h1 h2 (ang e x)
  rw [← mag_eq_abs] at sr_le cr_le
  have wordSize : bound e.m1 e.m2 ≤ 2 ^ 98 := by
    rcases h1 with h | h <;> rw [h, wide] <;> decide
  have halved := half_eq (mag (scr e (ang e x)).cr)
  have q_small : mag (tanDivision e x).q < bound e.m1 e.m2 := by rwa [mag_sign_mul (ang_sign e x)] at res_small
  have small {v : Int} (h : mag v ≤ 2 ^ 98) : mag v < 2 ^ 170 := h.trans_lt (by norm_num)
  have between {v : Int} (lower : -1 ≤ v) (upper : v ≤ 2 ^ 98) : mag v < 2 ^ 170 := small (by
    rw [mag_eq_abs, abs_le]
    omega)
  have sign := sgn_eq (scr e (ang e x)).cr
  have angle := ang_sign e x
  have c_back := signedOf_of_small valid (between (v := mag (scr e (ang e x)).cr) (by omega) (by omega))
  simp only [tanCheckGate, s_eq, sr_eq, cr_eq, sigma_eq, q_eq, r_eq, p_eq, h_eq, res_eq,
    tan_c_sum valid h1 h2 nonzero carries, c_back]
  rw [signedOf_toF valid (small (sr_le.trans budget)), signedOf_toF valid (small (cr_le.trans budget)),
    signedOf_toF valid (between (by omega) (by omega)), signedOf_toF valid (small (q_small.le.trans wordSize)),
    signedOf_toF valid (between (by omega) (by omega)), signedOf_toF valid (between (by omega) (by omega)),
    signedOf_toF valid (between (by omega) (by omega)), signedOf_toF valid (between (by omega) (by omega)),
    signedOf_toF valid (small (res_small.le.trans wordSize))]
  have accepted := valid.tanM2Complete (scr e (ang e x)).sr (sgn (scr e (ang e x)).cr) (mag (scr e (ang e x)).cr)
    (ang e x).s sign.symm (by omega)
  rw [sgn_mul_mag] at accepted
  have scale : delta 2 = e.delta := by rw [Env.delta, wide]
  rw [scale] at accepted
  exact accepted

end Tan

/-- Settles O51: the angle, then the rescale of SIN and COS or the division of TAN. -/
theorem trigWitnessAccepted : Obligations.TrigWitnessAccepted := by
  intro c i s results values hop build ready completed
  have fit := (c.valid.each _ _ ready.m1 ready.m2).limbs
  cases i with
  | sin b =>
    refine lastRecordHolds_of_gates c.valid rfl rfl build ready completed fun out answer w carries => ?_
    obtain ⟨x, hx, -, rfl⟩ := body_sin_eq_ok_iff.1 answer
    have angle : ∀ slot ∈ angleSlots s.m1 s.m2, Carries c.params.P _ w slot := fun slot hslot =>
      carries slot (List.mem_append_left _ hslot)
    have sr_eq := (angle_sum_cells (e := s.env c.params) angle).2.2.1
    obtain ⟨q_eq, res_eq⟩ := rescale_cells (e := s.env c.params) carries
    refine ⟨angleGates_of_carries (e := s.env c.params) c.valid ready.m1 ready.m2 (HoldsFixed.small hx) angle
        (by simp [rescaleValues, own]),
      rescaleGates_of_carries (e := s.env c.params) c.valid ready.m2 carries fit.sin (sr_eq ▸ feq_toF c.valid _), ?_⟩
    rw [res_eq, q_eq, angle_s_cell (e := s.env c.params) angle]
    exact feq_toF_mul c.valid _ _
  | cos b =>
    refine lastRecordHolds_of_gates c.valid rfl rfl build ready completed fun out answer w carries => ?_
    obtain ⟨x, hx, rfl⟩ := body_cos_eq_ok_iff.1 answer
    have angle : ∀ slot ∈ angleSlots s.m1 s.m2, Carries c.params.P _ w slot := fun slot hslot =>
      carries slot (List.mem_append_left _ hslot)
    have cr_eq := (angle_sum_cells (e := s.env c.params) angle).2.2.2
    obtain ⟨q_eq, res_eq⟩ := rescale_cells (e := s.env c.params) carries
    refine ⟨angleGates_of_carries (e := s.env c.params) c.valid ready.m1 ready.m2 (HoldsFixed.small hx) angle
        (by simp [rescaleValues, own]),
      rescaleGates_of_carries (e := s.env c.params) c.valid ready.m2 carries fit.cos (cr_eq ▸ feq_toF c.valid _), ?_⟩
    rw [res_eq, q_eq]
    rfl
  | tan b =>
    refine lastRecordHolds_of_gates c.valid rfl rfl build ready completed fun out answer w carries => ?_
    obtain ⟨x, hx, nonzero, res_small, rfl⟩ := body_tan_eq_ok_iff.1 answer
    have angle : ∀ slot ∈ angleSlots s.m1 s.m2, Carries c.params.P _ w slot := fun slot hslot =>
      carries slot (List.mem_append_left _ hslot)
    have s_eq := angle_s_cell (e := s.env c.params) angle
    obtain ⟨-, -, sr_eq, cr_eq⟩ := angle_sum_cells (e := s.env c.params) angle
    refine ⟨angleGates_of_carries (e := s.env c.params) c.valid ready.m1 ready.m2 (HoldsFixed.small hx) angle
      (by simp [tanValues, own]), ?_⟩
    split_ifs with narrow
    · exact tanDivisionGate_of_carries (e := s.env c.params) c.valid ready.m1 ready.m2 nonzero carries s_eq sr_eq cr_eq
    · exact tanCheckGate_of_carries (e := s.env c.params) c.valid ready.m1 ready.m2 nonzero carries
        (ready.m2.resolve_left narrow) res_small s_eq sr_eq cr_eq
  | _ => simp [Instr.op] at hop

end Sys2Proof.Acceptance
end

section
/-! PROOFS. The gates of EXPR and LOG on the witness their commands wrote (47_exp_log.md rules R360–R363). -/

namespace Sys2Proof.Acceptance

open Sys2Proof.Machine Sys2Proof.Steps Sys2Proof.Bounds Sys2Proof.Answers Sys2Proof.FaultOrder

/-! ### EXPR -/

section Clip

variable {e : Env} (window : e.p.expLo e.m1 e.m2 ≤ e.p.expHi e.m1 e.m2) (x : Int)
include window

/-- The clip's flags: below, above, or inside the window (rule R361). -/
theorem clip_cases :
    ((clip e x).lt = 1 ∧ (clip e x).gt = 0 ∧ (clip e x).inside = 0 ∧ (clip e x).V = e.p.expMin e.m1 e.m2)
    ∨ ((clip e x).lt = 0 ∧ (clip e x).gt = 1 ∧ (clip e x).inside = 0 ∧ (clip e x).V = e.p.expMax e.m1 e.m2)
    ∨ ((clip e x).lt = 0 ∧ (clip e x).gt = 0 ∧ (clip e x).inside = 1 ∧ (clip e x).V = e.p.expFn e.m1 e.m2 x
      ∧ e.p.expLo e.m1 e.m2 ≤ x ∧ x ≤ e.p.expHi e.m1 e.m2) := by
  rcases lt_or_ge x (e.p.expLo e.m1 e.m2) with below | above_lo
  · rw [clip_below window below]
    exact .inl ⟨rfl, rfl, rfl, rfl⟩
  · rcases lt_or_ge (e.p.expHi e.m1 e.m2) x with above | below_hi
    · rw [clip_above window above]
      exact .inr (.inl ⟨rfl, rfl, rfl, rfl⟩)
    · rw [clip_inside above_lo below_hi]
      exact .inr (.inr ⟨rfl, rfl, rfl, rfl, above_lo, below_hi⟩)

end Clip

/-- EXPR's values by their names (rule R362). -/
theorem valueOf_expr (e : Env) (gd : Gadget) (x : Int) :
    valueOf (exprValues e gd x) ⟨gd, .x⟩ = some x ∧ valueOf (exprValues e gd x) ⟨gd, .y⟩ = some (clip e x).V
    ∧ valueOf (exprValues e gd x) ⟨gd, .lt⟩ = some (clip e x).lt
    ∧ valueOf (exprValues e gd x) ⟨gd, .gt⟩ = some (clip e x).gt
    ∧ valueOf (exprValues e gd x) ⟨gd, .inside⟩ = some (clip e x).inside
    ∧ valueOf (exprValues e gd x) ⟨gd, .dlo⟩ = some ((clip e x).lt * (e.p.expLo e.m1 e.m2 - x - 1)
        + (1 - (clip e x).lt) * (x - e.p.expLo e.m1 e.m2))
    ∧ valueOf (exprValues e gd x) ⟨gd, .dhi⟩ = some ((clip e x).gt * (x - e.p.expHi e.m1 e.m2 - 1)
        + (1 - (clip e x).gt) * (e.p.expHi e.m1 e.m2 - x))
    ∧ valueOf (exprValues e gd x) ⟨gd, .e⟩ = some (expCell e x) := by
  simp [exprValues, valueOf_cons]

section Expr

variable {e : Env} (valid : e.p.Valid) (h1 : Legal e.m1) (h2 : Legal e.m2) {gd : Gadget} {x : Int}
  (hx : mag x < bound e.m1 e.m2) (hV : mag (clip e x).V < bound e.m1 e.m2) {values : List (Key × Int)} {w : Assignment}
  (named : ∀ name, valueOf values ⟨gd, name⟩ = valueOf (exprValues e gd x) ⟨gd, name⟩)
  (carries : ∀ slot ∈ exprSlots e.p gd e.m1 e.m2, Carries e.p.P values w slot)
include named carries

/-- The cells that EXPR's command and sub-gadgets share with their surroundings (rules R362, R363). -/
theorem expr_cells : w.val gd .x = (toF e.p.P x : Int) ∧ w.val gd .y = (toF e.p.P (clip e x).V : Int) := by
  obtain ⟨x_value, y_value, -⟩ := valueOf_expr e gd x
  exact ⟨(carries (scalar gd .x) (by simp [exprSlots])).scalar ((named _).trans x_value),
    (carries (scalar gd .y) (by simp [exprSlots])).scalar ((named _).trans y_value)⟩

include valid h1 h2 hx hV

/-- C-EX-1 to C-EX-4, for an external exponential whose constraint accepts its value (rules R360, R362). -/
theorem exprGates_of_carries (external : ∀ x, e.p.expLo e.m1 e.m2 ≤ x → x ≤ e.p.expHi e.m1 e.m2 →
      e.p.expc e.m1 e.m2 x (e.p.expFn e.m1 e.m2 x) = true) : exprGates e.p gd e.m1 e.m2 w := by
  obtain ⟨dlo_holds, dhi_holds⟩ := expr_sites valid h1 h2 hx
  obtain ⟨x_eq, y_eq⟩ := expr_cells named carries
  obtain ⟨-, -, lt_value, gt_value, inside_value, dlo_value, dhi_value, e_value⟩ := valueOf_expr e gd x
  have lt_eq := (carries (scalar gd .lt) (by simp [exprSlots])).scalar ((named _).trans lt_value)
  have gt_eq := (carries (scalar gd .gt) (by simp [exprSlots])).scalar ((named _).trans gt_value)
  have inside_eq := (carries (scalar gd .inside) (by simp [exprSlots])).scalar ((named _).trans inside_value)
  have e_eq := (carries (scalar gd .e) (by simp [exprSlots])).scalar ((named _).trans e_value)
  obtain ⟨dlo_eq, dlo_limbs⟩ := (carries (scalarSite gd .dlo (e.p.limbs .expr .dlo e.m1 e.m2))
    (by simp [exprSlots])).site ((named _).trans dlo_value)
  obtain ⟨dhi_eq, dhi_limbs⟩ := (carries (scalarSite gd .dhi (e.p.limbs .expr .dhi e.m1 e.m2))
    (by simp [exprSlots])).site ((named _).trans dhi_value)
  have flags := clip_cases (valid.each _ _ h1 h2).window x
  have lt_bit : (clip e x).lt = 0 ∨ (clip e x).lt = 1 := by omega
  have gt_bit : (clip e x).gt = 0 ∨ (clip e x).gt = 1 := by omega
  have inside_bit : (clip e x).inside = 0 ∨ (clip e x).inside = 1 := by omega
  have inside_formula : (clip e x).inside = 1 - (clip e x).lt - (clip e x).gt := rfl
  simp only [exprGates, x_eq, y_eq, lt_eq, gt_eq, inside_eq, e_eq, dlo_eq, dhi_eq]
  refine ⟨isBit_toF valid lt_bit, isBit_toF valid gt_bit,
    feq_of_eq valid inside_formula (by simp [cast_toF valid]) (by simp [cast_toF valid]), ?_,
    decUnsigned_of_limbs valid dlo_limbs dlo_holds (feq_toF valid _), ?_,
    decUnsigned_of_limbs valid dhi_limbs dhi_holds (feq_toF valid _), ?_, fun selected => ?_⟩
  · simp [feq_iff valid.pos, cast_toF valid]
  · simp [feq_iff valid.pos, cast_toF valid]
  · rcases flags with ⟨lt, gt, outside, value⟩ | ⟨lt, gt, outside, value⟩ | ⟨lt, gt, inside, value, -, -⟩
    · simp [feq_iff valid.pos, cast_toF valid, lt, gt, outside, value]
    · simp [feq_iff valid.pos, cast_toF valid, lt, gt, outside, value]
    · simp [feq_iff valid.pos, cast_toF valid, inside, value, expCell]
  · have inside := bit_of_feq valid inside_bit selected
    obtain ⟨value, lower, upper⟩ : (clip e x).V = e.p.expFn e.m1 e.m2 x ∧ e.p.expLo e.m1 e.m2 ≤ x
        ∧ x ≤ e.p.expHi e.m1 e.m2 := by
      rcases flags with ⟨-, -, outside, -⟩ | ⟨-, -, outside, -⟩ | ⟨-, -, -, rest⟩
      · omega
      · omega
      · exact rest
    have wide : bound e.m1 e.m2 < 2 ^ 170 := by
      rcases h1 with h | h <;> rcases h2 with h' | h' <;> rw [h, h'] <;> decide
    have cell : expCell e x = e.p.expFn e.m1 e.m2 x := if_pos inside
    rw [value] at hV
    rw [cell, signedOf_toF valid (hx.trans wide), signedOf_toF valid (hV.trans wide)]
    exact external x lower upper

end Expr

/-! ### LOG -/

/-- LOG's sub-gadgets carry the witness of the clip at `y` and at `y − 1` (rule R363). -/
theorem valueOf_log (e : Env) (x y : Int) (name : Sym) :
    valueOf (logValues e x y) ⟨.expY, name⟩ = valueOf (exprValues e .expY y) ⟨.expY, name⟩
    ∧ valueOf (logValues e x y) ⟨.expYm1, name⟩ = valueOf (exprValues e .expYm1 (y - 1)) ⟨.expYm1, name⟩ := by
  have last : valueOf (exprValues e .expYm1 (y - 1)) ⟨.expY, name⟩ = none :=
    valueOf_of_gadget_ne fun kv hkv => by rw [exprValues_gadget hkv]; nofun
  have middle : valueOf (exprValues e .expY y) ⟨.expYm1, name⟩ = none :=
    valueOf_of_gadget_ne fun kv hkv => by rw [exprValues_gadget hkv]; nofun
  constructor <;> simp [logValues, valueOf_append, valueOf_cons, own, last, middle]

section Log

variable {e : Env} (valid : e.p.Valid) (h1 : Legal e.m1) (h2 : Legal e.m2) {x y : Int} {w : Assignment}
  (carries : ∀ slot ∈ logSlots e.p e.m1 e.m2, Carries e.p.P (logValues e x y) w slot)
include valid h1 h2 carries

/-- C-LG-1 to C-LG-3 and the two clips (rule R363). -/
theorem logGates_of_carries (x_pos : 0 < x) (hx : mag x < bound e.m1 e.m2) (least : IsLeast (LogSet e x) y)
    (strict : (clip e (y - 1)).V < x) (he1 : mag (clip e y).V < bound e.m1 e.m2)
    (he0 : mag (clip e (y - 1)).V < bound e.m1 e.m2)
    (external : ∀ x, e.p.expLo e.m1 e.m2 ≤ x → x ≤ e.p.expHi e.m1 e.m2 →
      e.p.expc e.m1 e.m2 x (e.p.expFn e.m1 e.m2 x) = true) : logGates e.p e.m1 e.m2 w := by
  obtain ⟨y_small, ym1_small⟩ := log_root_small least
  obtain ⟨g1_holds, g2_holds⟩ := log_sites valid h1 h2 x_pos hx he1 he0 least.1.2.2 strict
  have clipY : ∀ slot ∈ exprSlots e.p .expY e.m1 e.m2, Carries e.p.P (logValues e x y) w slot := fun slot hslot =>
    carries slot (List.mem_append_left _ (List.mem_append_right _ hslot))
  have clipYm1 : ∀ slot ∈ exprSlots e.p .expYm1 e.m1 e.m2, Carries e.p.P (logValues e x y) w slot := fun slot hslot =>
    carries slot (List.mem_append_right _ hslot)
  have namedY (name : Sym) := (valueOf_log e x y name).1
  have namedYm1 (name : Sym) := (valueOf_log e x y name).2
  obtain ⟨subY_eq, valueY_eq⟩ := expr_cells namedY clipY
  obtain ⟨subYm1_eq, valueYm1_eq⟩ := expr_cells namedYm1 clipYm1
  have x_eq : w.val .own .x = (toF e.p.P x : Int) := val_of_carries carries rfl rfl
  have y_eq : w.val .own .y = (toF e.p.P y : Int) := val_of_carries carries rfl rfl
  have ym1_eq : w.val .own .ym1 = (toF e.p.P (y - 1) : Int) := val_of_carries carries rfl rfl
  have e1_eq : w.val .own .e1 = (toF e.p.P (clip e y).V : Int) := val_of_carries carries rfl rfl
  have e0_eq : w.val .own .e0 = (toF e.p.P (clip e (y - 1)).V : Int) := val_of_carries carries rfl rfl
  have g1_eq : w.val .own .g1 = (toF e.p.P ((clip e y).V - x) : Int) := val_of_carries carries rfl rfl
  have g2_eq : w.val .own .g2 = (toF e.p.P (x - (clip e (y - 1)).V - 1) : Int) := val_of_carries carries rfl rfl
  refine ⟨exprGates_of_carries valid h1 h2 y_small he1 namedY clipY external,
    exprGates_of_carries valid h1 h2 ym1_small he0 namedYm1 clipYm1 external, ?_⟩
  rw [subY_eq, subYm1_eq, valueY_eq, valueYm1_eq, x_eq, y_eq, ym1_eq, e1_eq, e0_eq, g1_eq, g2_eq]
  refine ⟨rfl, rfl, ?_, rfl, rfl, ?_, decUnsigned_of_limbs valid (lim_of_carries carries rfl rfl) g1_holds
    (feq_toF valid _), ?_, decUnsigned_of_limbs valid (lim_of_carries carries rfl rfl) g2_holds (feq_toF valid _)⟩
  · simp [feq_iff valid.pos, cast_toF valid]
  · simp [feq_iff valid.pos, cast_toF valid]
  · simp [feq_iff valid.pos, cast_toF valid]

end Log

/-- Settles O52: EXPR's clip, and LOG's bracket between two clips. -/
theorem expLogWitnessAccepted : Obligations.ExpLogWitnessAccepted := by
  intro c i s results values hop build ready external completed
  cases i with
  | expr b =>
    refine lastRecordHolds_of_gates c.valid rfl rfl build ready completed fun out answer w carries => ?_
    obtain ⟨x, hx, hV, rfl⟩ := body_expr_eq_ok_iff.1 answer
    exact exprGates_of_carries (e := s.env c.params) c.valid ready.m1 ready.m2 (HoldsFixed.small hx) hV (fun _ => rfl)
      carries external
  | log b =>
    refine lastRecordHolds_of_gates c.valid rfl rfl build ready completed fun out answer w carries => ?_
    obtain ⟨x, y, hx, x_pos, found, strict, he1, he0, rfl⟩ := body_log_eq_ok_iff.1 answer
    have least := (logLeast_isLeast (e := s.env c.params) c.valid ready.m1 ready.m2 x).1 y found
    exact logGates_of_carries (e := s.env c.params) c.valid ready.m1 ready.m2 carries x_pos (HoldsFixed.small hx) least
      strict he1 he0 external
  | _ => simp [Instr.op] at hop

end Sys2Proof.Acceptance
end

section
/-! PROOFS. What accepted assignments are forced to hold (43_sqrt.md rules R221–R223, 45_rem.md rule R291): every value
the constraints relate is far below `P`, so their identities in F are identities of integers. -/

namespace Sys2Proof.Forcing

open Sys2Proof.Machine Sys2Proof.Acceptance Sys2Proof.FaultOrder

section Field

variable {p : Params} (valid : p.Valid)
include valid

/-- An element's signed value stands for it in F. -/
theorem cast_signedOf (v : Int) : ((signedOf p.P v : Int) : ZMod p.P) = v := by
  have modEq := Decomposition.sval_modEq (toF_lt valid.pos v)
  rw [← ZMod.intCast_eq_intCast_iff, Int.cast_natCast, cast_toF valid] at modEq
  exact modEq

/-- An element that stands for a small integer has it as its signed value. -/
theorem signedOf_eq {v i : Int} (h : (v : ZMod p.P) = i) (small : 2 * mag i < p.P) : signedOf p.P v = i := by
  have same : toF p.P v = toF p.P i := (feq_iff valid.pos _ _).2 h
  rw [signedOf, same, sval_toF valid.odd small]

/-- Small integers that are equal in F are equal. -/
theorem eq_of_cast_eq {a b : Int} (h : (a : ZMod p.P) = b) (ha : 2 * mag a < p.P) (hb : 2 * mag b < p.P) : a = b := by
  rw [← signedOf_eq valid rfl ha, signedOf_eq valid h hb]

theorem signedOf_of_isBit {v : Int} (h : IsBit p.P v) : signedOf p.P v = 0 ∨ signedOf p.P v = 1 := by
  have := Fact.mk valid.prime
  have large := valid.large
  rw [IsBit, feq_iff valid.pos] at h
  push_cast at h
  rcases mul_eq_zero.1 h with zero | one
  · exact .inl (signedOf_eq valid (by simp [zero]) (by simp [mag]; omega))
  · exact .inr (signedOf_eq valid (by simp [sub_eq_zero.1 one]) (by simp [mag]; omega))

theorem signedOf_of_isSign {v : Int} (h : IsSign p.P v) : signedOf p.P v = 1 ∨ signedOf p.P v = -1 := by
  have large := valid.large
  rcases (Decomposition.isSign_iff valid.prime v).1 h with one | neg
  · exact .inl (signedOf_eq valid ((feq_iff valid.pos _ _).1 one) (by simp [mag]; omega))
  · exact .inr (signedOf_eq valid ((feq_iff valid.pos _ _).1 neg) (by simp [mag]; omega))

theorem cast_limbSum (l : Nat → Int) (n : Nat) :
    ((limbSum l n : Int) : ZMod p.P) = limbSum (fun k => (toF p.P (l k) : Int)) n := by
  induction n with
  | zero => rfl
  | succ n ih =>
    simp only [limbSum]
    push_cast [cast_toF valid]
    rw [ih]

/-- Limbs that pass the range lookup stand for a number within their budget (rules R161, R163). -/
theorem exists_digits {l : Nat → Int} {n : Nat} (range : ∀ k, k < n → InRange p.P (l k)) :
    ∃ S : Int, 0 ≤ S ∧ S < pow2 (16 * n) ∧ ((limbSum l n : Int) : ZMod p.P) = S := by
  obtain ⟨nonneg, lt⟩ := Decomposition.limbSum_mem_budget (l := fun k => (toF p.P (l k) : Int)) (n := n) fun k hk => by
    have : toF p.P (l k) < 65536 := range k hk
    omega
  exact ⟨_, nonneg, lt, cast_limbSum valid l n⟩

/-- An unsigned decomposition bounds its value where the budget fits half the field. -/
theorem signedOf_mem_of_decUnsigned {l : Nat → Int} {n : Nat} {v : Int} (budget : 2 * pow2 (16 * n) ≤ p.P)
    (h : DecUnsigned p.P n l v) : 0 ≤ signedOf p.P v ∧ signedOf p.P v < pow2 (16 * n) := by
  obtain ⟨value, range⟩ := h
  obtain ⟨S, nonneg, lt, sum⟩ := exists_digits valid range
  rw [feq_iff valid.pos, sum] at value
  rw [signedOf_eq valid value (by rw [mag_of_nonneg nonneg]; omega)]
  exact ⟨nonneg, lt⟩

/-! ### REM -/

omit valid in
/-- The budgets of REM's decompositions, for a field above `2^(48m + 2)` (rule R291). -/
theorem rem_budgets {m : Nat} (large : 2 ^ (48 * m + 2) < p.P) :
    4 * (pow2 (16 * (2 * m)) * pow2 (16 * m)) < p.P ∧ 4 * pow2 (16 * m) < p.P ∧ 4 * pow2 (16 * (2 * m)) < p.P := by
  have power : 4 * (pow2 (16 * (2 * m)) * pow2 (16 * m)) < p.P := by
    have large : (2 : Int) ^ (48 * m + 2) < p.P := by exact_mod_cast large
    have exponent : 48 * m + 2 = 2 + (16 * (2 * m) + 16 * m) := by ring
    rwa [exponent, pow_add, ← pow2_eq (_ + _), pow2_add] at large
  have one_le (n : Nat) : 1 ≤ pow2 n := pow2_pos n
  have := le_mul_of_one_le_left (pow2_pos (16 * m)).le (one_le (16 * (2 * m)))
  have := le_mul_of_one_le_right (pow2_pos (16 * (2 * m))).le (one_le (16 * m))
  exact ⟨power, by linarith, by linarith⟩

/-- Settles O53's claim in one configuration: no identity of C-RM-1 to C-RM-6 wraps around. -/
theorem remainder_forced {m : Nat} {w : Assignment} (large : 2 ^ (48 * m + 2) < p.P) {y' xs' : Int}
    (gates : remGates p .own m y' xs' w) :
    signedOf p.P y' ≠ 0
      ∧ signedOf p.P (w.val .own .z) = modF (signedOf p.P (w.val .own .bigX)) (signedOf p.P y')
      ∧ signedOf p.P (w.val .own .sa) * signedOf p.P (w.val .own .a)
        = divF (signedOf p.P (w.val .own .bigX)) (signedOf p.P y') := by
  obtain ⟨-, dividend, ⟨y_eq, sy_sign, y_range⟩, ⟨z_eq, z_range⟩, a_dec, sa_sign, g_eq, g_dec⟩ := gates
  obtain ⟨Y, Y_nonneg, Y_lt, Y_sum⟩ := exists_digits valid y_range
  obtain ⟨Z, Z_nonneg, Z_lt, Z_sum⟩ := exists_digits valid z_range
  obtain ⟨noWrap, noWrapHalf, noWrapDouble⟩ := rem_budgets large
  obtain ⟨a_nonneg, a_lt⟩ := signedOf_mem_of_decUnsigned valid (by linarith [pow2_pos (16 * (2 * m))]) a_dec
  obtain ⟨g_nonneg, g_lt⟩ := signedOf_mem_of_decUnsigned valid (by linarith [pow2_pos (16 * m)]) g_dec
  have σ_sign := signedOf_of_isSign valid sy_sign
  have τ_sign := signedOf_of_isSign valid sa_sign
  rw [feq_iff valid.pos] at dividend y_eq z_eq g_eq
  push_cast at dividend y_eq z_eq g_eq
  rw [Y_sum, ← cast_signedOf valid (w.val .own .sy)] at y_eq
  rw [Z_sum, ← cast_signedOf valid (w.val .own .sy)] at z_eq
  rw [Y_sum, Z_sum] at g_eq
  rw [← cast_signedOf valid (w.val .own .sa), ← cast_signedOf valid (w.val .own .a)] at dividend
  generalize signedOf p.P (w.val .own .sy) = σ at *
  generalize signedOf p.P (w.val .own .sa) = τ at *
  generalize signedOf p.P (w.val .own .a) = A at *
  have y_value : signedOf p.P y' = σ * Y :=
    signedOf_eq valid (by rw [y_eq]; push_cast; rfl) (by rw [mag_sign_mul σ_sign, mag_of_nonneg Y_nonneg]; omega)
  have z_value : signedOf p.P (w.val .own .z) = σ * Z :=
    signedOf_eq valid (by rw [z_eq]; push_cast; rfl) (by rw [mag_sign_mul σ_sign, mag_of_nonneg Z_nonneg]; omega)
  have gap : signedOf p.P (w.val .own .g) = Y - Z - 1 :=
    signedOf_eq valid (by rw [g_eq]; push_cast; rfl) (by rw [mag]; omega)
  have product : A * Y + Z < pow2 (16 * (2 * m)) * pow2 (16 * m) := by nlinarith
  have X_small : mag (τ * A * (σ * Y) + σ * Z) ≤ A * Y + Z := by
    rw [mag_eq_abs]
    calc |τ * A * (σ * Y) + σ * Z| ≤ |τ * A * (σ * Y)| + |σ * Z| := abs_add_le _ _
      _ = mag (τ * A) * mag (σ * Y) + mag (σ * Z) := by rw [abs_mul, mag_eq_abs, mag_eq_abs, mag_eq_abs]
      _ = A * Y + Z := by
        rw [mag_sign_mul σ_sign, mag_sign_mul σ_sign, mag_sign_mul τ_sign, mag_of_nonneg a_nonneg,
          mag_of_nonneg Y_nonneg, mag_of_nonneg Z_nonneg]
  have X_value : signedOf p.P (w.val .own .bigX) = τ * A * (σ * Y) + σ * Z :=
    signedOf_eq valid (by rw [dividend, y_eq, z_eq]; push_cast; rfl) (by linarith)
  rw [X_value, y_value, z_value]
  have nonzero : σ * Y ≠ 0 := by rcases σ_sign with rfl | rfl <;> omega
  have quotient : divF (τ * A * (σ * Y) + σ * Z) (σ * Y) = τ * A := by
    refine Completion.divF_eq rfl (fun pos => ?_) (fun neg => ?_) nonzero <;> rcases σ_sign with rfl | rfl <;> omega
  have remainder := divF_modF (τ * A * (σ * Y) + σ * Z) (σ * Y)
  rw [quotient] at remainder ⊢
  exact ⟨nonzero, by linarith, rfl⟩

/-! ### SQRT and SQRTF -/

/-- The values that the root constraints relate are far below the field (rule R221 (d)). -/
theorem root_values_small {m1 m2 : Nat} (h1 : Legal m1) (h2 : Legal m2) {x f : Int} (x_nonneg : 0 ≤ x)
    (x_lt : x < bound m1 m2) (f_small : |f| ≤ bound m1 m2) :
    2 * mag (x * delta m2 - f * f) < p.P ∧ 2 * mag ((f + 1) * (f + 1) - x * delta m2 - 1) < p.P
      ∧ 2 * mag (x * delta m2 - f * f - f - 1) < p.P ∧ 2 * mag (f - x * delta m2 + f * f) < p.P := by
  have large : (2 : Int) ^ 172 < p.P := by exact_mod_cast valid.large
  have bound_le : bound m1 m2 ≤ 2 ^ 64 := by
    rcases h1 with rfl | rfl <;> rcases h2 with rfl | rfl <;> decide
  have N_le : x * delta m2 ≤ 2 ^ 64 * 2 ^ 32 :=
    mul_le_mul (x_lt.le.trans bound_le) (delta_le h2) (delta_pos m2).le (by norm_num)
  have N_nonneg : 0 ≤ x * delta m2 := mul_nonneg x_nonneg (delta_pos m2).le
  have square_le : f * f ≤ 2 ^ 64 * 2 ^ 64 := by
    rw [← abs_mul_abs_self f]
    exact mul_le_mul (f_small.trans bound_le) (f_small.trans bound_le) (abs_nonneg f) (by norm_num)
  have square_nonneg : 0 ≤ f * f := mul_self_nonneg f
  have expand : (f + 1) * (f + 1) = f * f + 2 * f + 1 := by ring
  obtain ⟨f_lower, f_upper⟩ := abs_le.1 (f_small.trans bound_le)
  generalize x * delta m2 = N at *
  generalize f * f = F at *
  rw [expand]
  simp only [mag]
  omega

omit valid in
/-- The floor root from its two non-negative differences (rule R220). -/
theorem sq_f_of_differences {m2 : Nat} {x f : Int} (x_nonneg : 0 ≤ x) (lower : 0 ≤ x * delta m2 - f * f)
    (upper : 0 ≤ (f + 1) * (f + 1) - x * delta m2 - 1) : (sq m2 x).f = f := by
  have f_nonneg : 0 ≤ f := by nlinarith
  exact Completion.sq_f_eq x_nonneg f_nonneg (by omega) (by omega)

section Root

variable {m1 m2 : Nat} (h1 : Legal m1) (h2 : Legal m2) {w : Assignment}
include h1 h2

/-- The sites of the root commands fit half the field. -/
theorem two_bound_le : 2 * pow2 (16 * (m1 + m2)) ≤ p.P := by
  have large : (2 : Int) ^ 172 < p.P := by exact_mod_cast valid.large
  have bound_le : pow2 (16 * (m1 + m2)) ≤ 2 ^ 64 := by
    rcases h1 with rfl | rfl <;> rcases h2 with rfl | rfl <;> decide
  omega

/-- The two differences `a1` and `a2` of an accepted assignment bracket the root (rules R222, R223). -/
theorem bracket_forced {f : Int} (f_small : |f| ≤ bound m1 m2)
    (a1_eq : ((w.val .own .a1 : Int) : ZMod p.P)
      = ((signedOf p.P (w.val .own .x) * delta m2 - f * f : Int) : ZMod p.P))
    (a2_eq : ((w.val .own .a2 : Int) : ZMod p.P)
      = (((f + 1) * (f + 1) - signedOf p.P (w.val .own .x) * delta m2 - 1 : Int) : ZMod p.P))
    (x_dec : DecUnsigned p.P (m1 + m2) (w.lim .own .x) (w.val .own .x))
    (a1_dec : DecUnsigned p.P (m1 + m2) (w.lim .own .a1) (w.val .own .a1))
    (a2_dec : DecUnsigned p.P (m1 + m2) (w.lim .own .a2) (w.val .own .a2)) :
    0 ≤ signedOf p.P (w.val .own .x) ∧ signedOf p.P (w.val .own .x) < bound m1 m2
      ∧ (sq m2 (signedOf p.P (w.val .own .x))).f = f := by
  have budget := two_bound_le valid h1 h2
  obtain ⟨x_nonneg, x_lt⟩ := signedOf_mem_of_decUnsigned valid budget x_dec
  obtain ⟨a1_small, a2_small, -⟩ := root_values_small valid h1 h2 x_nonneg x_lt f_small
  have lower := (signedOf_mem_of_decUnsigned valid budget a1_dec).1
  have upper := (signedOf_mem_of_decUnsigned valid budget a2_dec).1
  rw [signedOf_eq valid a1_eq a1_small] at lower
  rw [signedOf_eq valid a2_eq a2_small] at upper
  exact ⟨x_nonneg, x_lt, sq_f_of_differences x_nonneg lower upper⟩

variable (y_small : |signedOf p.P (w.val .own .y)| < bound m1 m2)
include y_small

/-- SQRT's constraints: the bracket around `y − r`, and `a3` tells the side of the half-way point (rule R222). -/
theorem root_forced (gates : sqrtGates p m1 m2 w) :
    0 ≤ signedOf p.P (w.val .own .x)
      ∧ signedOf p.P (w.val .own .y) = (sq m2 (signedOf p.P (w.val .own .x))).y
      ∧ signedOf p.P (w.val .own .r) = (sq m2 (signedOf p.P (w.val .own .x))).r := by
  obtain ⟨r_bit, a1_eq, a2_eq, a3_eq, x_dec, a1_dec, a2_dec, a3_dec⟩ := gates
  have bit := signedOf_of_isBit valid r_bit
  have f_small : |signedOf p.P (w.val .own .y) - signedOf p.P (w.val .own .r)| ≤ bound m1 m2 := by
    rw [abs_lt] at y_small
    rw [abs_le]
    omega
  rw [feq_iff valid.pos] at a1_eq a2_eq a3_eq
  push_cast at a1_eq a2_eq a3_eq
  rw [← cast_signedOf valid (w.val .own .x), ← cast_signedOf valid (w.val .own .y),
    ← cast_signedOf valid (w.val .own .r)] at a1_eq a2_eq a3_eq
  obtain ⟨x_nonneg, x_lt, root⟩ := bracket_forced valid h1 h2 f_small (by rw [a1_eq]; push_cast; rfl)
    (by rw [a2_eq]; push_cast; rfl) x_dec a1_dec a2_dec
  obtain ⟨-, -, up_small, down_small⟩ := root_values_small valid h1 h2 x_nonneg x_lt f_small
  have side := (signedOf_mem_of_decUnsigned valid (two_bound_le valid h1 h2) a3_dec).1
  have flag : signedOf p.P (w.val .own .r) = (sq m2 (signedOf p.P (w.val .own .x))).r := by
    have cases := SquareRoot.sq_r_cases m2 (signedOf p.P (w.val .own .x))
    rw [SquareRoot.sq_N, root] at cases
    rcases bit with zero | one
    · rw [zero] at a3_eq down_small cases ⊢
      rw [signedOf_eq valid (by rw [a3_eq]; push_cast; ring) down_small] at side
      omega
    · rw [one] at a3_eq up_small cases ⊢
      rw [signedOf_eq valid (by rw [a3_eq]; push_cast; ring) up_small] at side
      omega
  refine ⟨x_nonneg, ?_, flag⟩
  rw [SquareRoot.sq_y, root, ← flag]
  ring

/-- SQRTF's constraints: the bracket around `y` (rule R223). -/
theorem floor_root_forced (gates : sqrtfGates p m1 m2 w) :
    0 ≤ signedOf p.P (w.val .own .x)
      ∧ signedOf p.P (w.val .own .y) = (sq m2 (signedOf p.P (w.val .own .x))).f := by
  obtain ⟨a1_eq, a2_eq, x_dec, a1_dec, a2_dec⟩ := gates
  rw [feq_iff valid.pos] at a1_eq a2_eq
  push_cast at a1_eq a2_eq
  rw [← cast_signedOf valid (w.val .own .x), ← cast_signedOf valid (w.val .own .y)] at a1_eq a2_eq
  obtain ⟨x_nonneg, -, root⟩ := bracket_forced valid h1 h2 y_small.le (by rw [a1_eq]; push_cast; rfl)
    (by rw [a2_eq]; push_cast; rfl) x_dec a1_dec a2_dec
  exact ⟨x_nonneg, root.symm⟩

end Root

end Field

/-- Settles O53: the floor remainder and quotient. -/
theorem remConstraintsForceTheRemainder : Obligations.RemConstraintsForceTheRemainder :=
  fun c _ _ _ _ large gates _ => remainder_forced c.valid large gates

/-- Settles O54: SQRT and SQRTF. -/
theorem sqrtConstraintsForceTheRoot : Obligations.SqrtConstraintsForceTheRoot := by
  intro c m1 m2 w h1 h2 x y y_small
  exact ⟨root_forced c.valid h1 h2 y_small, floor_root_forced c.valid h1 h2 y_small⟩

end Sys2Proof.Forcing
end
